-- ==== Sys2Proof/Word.lean ====
section
/-! DEFINITION. The words the spec computes with (00_scope.md R9, R11): bytes, 32-bit register words, binary32
bit patterns, 7-bit device register addresses and 16-bit transaction units. -/

namespace Sys2Proof

/-- u8: a byte of the serial chain, a CMD field, a device register's value (00_scope.md R9). -/
abbrev Byte := BitVec 8

/-- u32: a register of the host window (20_memory.md R81). -/
abbrev Word := BitVec 32

/-- f32: an IEEE 754 binary32 value by its bit pattern, sign at bit 31, exponent at bits 30..23, fraction at bits
22..0 (00_scope.md R11, 20_memory.md R86). -/
abbrev F32 := BitVec 32

/-- A device register address as an instruction byte carries it, 7 bits wide (20_memory.md R87, 30_encoding.md
R120). -/
abbrev Reg7 := BitVec 7

/-- A transaction unit: the instruction byte at bits 15..8, which is sent first, and the data byte at bits 7..0
(30_encoding.md R122 and the rows WIRE_* of the opcode table). -/
abbrev Unit16 := BitVec 16

end Sys2Proof
end

