-- ==== Sys2Proof/Machine/Float.lean ====
section
/-! DEFINITION. IEEE 754 binary32 arithmetic on bit patterns, as 00_scope.md R11 and R13 ask for it: every operation
is computed exactly on integers and rounded once, to nearest, ties to even; subnormals are kept; nothing is fused. -/

namespace Sys2Proof.Machine

/-- The bits below the sign. -/
def f32Mag (v : F32) : Nat := v.toNat % 2147483648

/-- The sign bit. -/
def f32Neg (v : F32) : Bool := decide (2147483648 ≤ v.toNat)

/-- The biased exponent, bits 30..23. -/
def f32Exp (v : F32) : Nat := f32Mag v / 8388608

/-- The fraction, bits 22..0. -/
def f32Frac (v : F32) : Nat := v.toNat % 8388608

/-- isNaN (00_scope.md R11). -/
def f32IsNaN (v : F32) : Bool := decide (2139095040 < f32Mag v)

/-- Plus or minus infinity. -/
def f32IsInf (v : F32) : Bool := f32Mag v == 2139095040

/-- isFinite (00_scope.md R11): neither an infinity nor a NaN. -/
def f32IsFinite (v : F32) : Bool := decide (f32Mag v < 2139095040)

/-- Plus or minus zero. -/
def f32IsZero (v : F32) : Bool := f32Mag v == 0

/-- The integer significand of a finite value. -/
def f32Sig (v : F32) : Nat := if f32Exp v = 0 then f32Frac v else f32Frac v + 8388608

/-- The power of two that weighs the significand: a finite value is `± f32Sig v * 2 ^ f32Pow v`. -/
def f32Pow (v : F32) : Int := if f32Exp v = 0 then -149 else (f32Exp v : Int) - 150

/-- The signed significand. -/
def f32Int (v : F32) : Int := if f32Neg v then -(f32Sig v : Int) else (f32Sig v : Int)

/-- A pattern with the given sign and the given bits below it. -/
def f32Pack (neg : Bool) (mag : Nat) : F32 := BitVec.ofNat 32 (mag + if neg then 2147483648 else 0)

/-- +0.0. -/
def f32Zero : F32 := 0x00000000#32
/-- 1.0. -/
def f32One : F32 := 0x3F800000#32
/-- 2.0. -/
def f32Two : F32 := 0x40000000#32
/-- 4.0. -/
def f32Four : F32 := 0x40800000#32
/-- 255.0. -/
def f32Max8 : F32 := 0x437F0000#32
/-- 900.0. -/
def f32NineHundred : F32 := 0x44610000#32

/-- The pattern of a NaN result. IEEE 754 leaves its payload open and no rule states it; the vectors V-CAL6 and V-CAL7
of 95_test_vectors.md show this one. DEDUCED, log 7. -/
def f32NaN : F32 := 0x7FC00000#32

/-- An infinity of the given sign. -/
def f32Inf (neg : Bool) : F32 := f32Pack neg 2139095040

/-- `m / d` rounded to the nearest integer, ties to even. -/
def rneDiv (m d : Nat) : Nat :=
  if d < 2 * (m % d) ∨ (2 * (m % d) = d ∧ m / d % 2 = 1) then m / d + 1 else m / d

/-- The exponent of the last place kept when `m * 2 ^ e`, with `m` not 0, is rounded to 24 significant bits, or to
fewer for a subnormal result. -/
def f32Ulp (m : Nat) (e : Int) : Int := max (e + (Nat.log2 m : Int) - 23) (-149)

/-- The exact value `± m * 2 ^ e` rounded to binary32, to nearest, ties to even, overflowing to an infinity
(00_scope.md R11). -/
def f32Round (neg : Bool) (m : Nat) (e : Int) : F32 :=
  if m = 0 then f32Pack neg 0
  else
    let u := f32Ulp m e
    let q := if u ≤ e then m * 2 ^ (e - u).toNat else rneDiv m (2 ^ (u - e).toNat)
    f32Pack neg (min ((u + 149).toNat * 8388608 + q) 2139095040)

/-- `-v` flips the sign bit only (00_scope.md R11). -/
def f32Flip (v : F32) : F32 := v ^^^ 0x80000000#32

/-- `a + b` (00_scope.md R11). A zero sum is +0.0 unless both operands are negative. -/
def f32Add (a b : F32) : F32 :=
  if f32IsNaN a || f32IsNaN b then f32NaN
  else if f32IsInf a then
    if f32IsInf b && (f32Neg a != f32Neg b) then f32NaN else a
  else if f32IsInf b then b
  else
    let e := min (f32Pow a) (f32Pow b)
    let x : Int := f32Int a * 2 ^ (f32Pow a - e).toNat + f32Int b * 2 ^ (f32Pow b - e).toNat
    f32Round (if x = 0 then f32Neg a && f32Neg b else decide (x < 0)) x.natAbs e

/-- `a - b` (00_scope.md R11). -/
def f32Sub (a b : F32) : F32 := f32Add a (f32Flip b)

/-- `a * b` (00_scope.md R11). -/
def f32Mul (a b : F32) : F32 :=
  let neg := f32Neg a != f32Neg b
  if f32IsNaN a || f32IsNaN b then f32NaN
  else if f32IsInf a || f32IsInf b then
    if f32IsZero a || f32IsZero b then f32NaN else f32Inf neg
  else f32Round neg (f32Sig a * f32Sig b) (f32Pow a + f32Pow b)

/-- `a / b` (00_scope.md R11): x/0 is an infinity for x not 0, and 0/0 is a NaN. A finite quotient is taken to 50
places below the significands, with one more bit that says whether anything was left over, so that the one rounding
sees the exact quotient. -/
def f32Div (a b : F32) : F32 :=
  let neg := f32Neg a != f32Neg b
  if f32IsNaN a || f32IsNaN b then f32NaN
  else if f32IsInf a then
    if f32IsInf b then f32NaN else f32Inf neg
  else if f32IsInf b then f32Pack neg 0
  else if f32IsZero b then
    if f32IsZero a then f32NaN else f32Inf neg
  else
    let n := f32Sig a * 2 ^ 50
    let q := n / f32Sig b
    f32Round neg (2 * q + if n % f32Sig b = 0 then 0 else 1) (f32Pow a - f32Pow b - 51)

/-- `f32(n)`: an integer converted with round to nearest even (00_scope.md R11). -/
def f32OfNat (n : Nat) : F32 := f32Round false n 0

/-- The place of a value that is no NaN in the order of the reals and infinities; both zeros have one place. -/
def f32Key (v : F32) : Int := if f32Neg v then -(f32Mag v : Int) else (f32Mag v : Int)

/-- `a < b`: an IEEE comparison, false with a NaN (00_scope.md R11). -/
def f32Lt (a b : F32) : Bool := !f32IsNaN a && !f32IsNaN b && decide (f32Key a < f32Key b)

/-- `a ≤ b`: an IEEE comparison, false with a NaN (00_scope.md R11). -/
def f32Le (a b : F32) : Bool := !f32IsNaN a && !f32IsNaN b && decide (f32Key a ≤ f32Key b)

/-- `floor(v)` of a finite value: the greatest integer not above it, exact (00_scope.md R13). -/
def f32Floor (v : F32) : Int :=
  if 0 ≤ f32Pow v then f32Int v * 2 ^ (f32Pow v).toNat else f32Int v / 2 ^ (-f32Pow v).toNat

/-- `trunc(v)` of a finite value: its integer part, rounded toward zero, exact (00_scope.md R13). -/
def f32Trunc (v : F32) : Int :=
  if 0 ≤ f32Pow v then f32Int v * 2 ^ (f32Pow v).toNat else (f32Int v).tdiv (2 ^ (-f32Pow v).toNat)

/-- `satu8(v)`: 0 for a NaN or a value below 1.0, 255 from 255.0 on, else trunc(v) (00_scope.md R13). -/
def satu8 (v : F32) : Byte :=
  if f32IsNaN v || f32Lt v f32One then 0#8
  else if f32Le f32Max8 v then 255#8
  else BitVec.ofInt 8 (f32Trunc v)

end Sys2Proof.Machine
end

