-- ==== Sys2Proof/Config.lean ====
section
/-! DEFINITION. What an implementation fixes (00_scope.md R8, R12) and the values the environment chooses
(00_scope.md R14, R15). The parameters are plain data, carried by the state (10_state.md R30 item 2); the constants
that the spec leaves open have no body here, so that nothing can be proved of their values beyond the constraints the
spec gives. -/

namespace Sys2Proof

open Sys2Proof.Machine

/-- One value for each color code: R, G, B, IR (30_encoding.md R116). -/
structure PerColor where
  r : F32
  g : F32
  b : F32
  ir : F32
deriving DecidableEq, Repr

/-- The implementation parameters that 00_scope.md R8 marks OPEN (but for fexp and fln, see `MathPair`). -/
structure Params where
  /-- N, the chain length -/
  n : Nat
  /-- POOL_CAP -/
  poolCap : Nat
  /-- MAXI -/
  maxi : F32
  /-- CAL_A -/
  calA : PerColor
  /-- CAL_B -/
  calB : PerColor
  a0Min : F32
  a0Max : F32
  a1Min : F32
  a1Max : F32
  ovtReg : Byte
  ovtBit : Nat
  errpReg : Byte
  errpBit : Nat
deriving DecidableEq, Repr

/-- SPAWN_DEN (00_scope.md R8). -/
def spawnDen : Nat := 1000
/-- NEWTON_ITERS (00_scope.md R8). -/
def newtonIters : Nat := 10
/-- NOOP, the no-op sentinel byte (00_scope.md R8, 30_encoding.md R121). -/
def noopByte : Byte := 0xFF#8
/-- DUMMY (00_scope.md R8, 30_encoding.md R122). -/
def dummyByte : Byte := 0xFF#8
/-- REG_MAX, the highest device register address (00_scope.md R8). -/
def regMax : Byte := 0x45#8
/-- LED_SLOTS (00_scope.md R8). -/
def ledSlots : Nat := 5
/-- CHANNELS (00_scope.md R8). -/
def channels : Nat := 16

/-- All four coefficients are finite. -/
def perColorFinite (c : PerColor) : Bool := f32IsFinite c.r && f32IsFinite c.g && f32IsFinite c.b && f32IsFinite c.ir

/-- The constraints of the table of 00_scope.md R8. -/
def paramsValid (p : Params) : Bool :=
  decide (1 ≤ p.n) && decide (p.n ≤ 255) && decide (1 ≤ p.poolCap) && decide (p.poolCap ≤ 255) &&
  f32IsFinite p.maxi && f32Lt f32Zero p.maxi && perColorFinite p.calA && perColorFinite p.calB &&
  f32Lt f32Zero p.a0Min && f32Le p.a0Min p.a0Max && f32IsFinite p.a0Max &&
  f32Lt p.a0Max p.a1Min && f32Le p.a1Min p.a1Max && f32IsFinite p.a1Max &&
  decide (p.ovtReg ≤ 1#8) && decide (p.ovtBit < 8) && decide (p.errpReg ≤ 1#8) && decide (p.errpBit < 8)

/-- Some parameters that meet the constraints. They only show that there are some: `Config.params` is not known to be
these. The tests use them (95_test_vectors.md P2, P4 with rate ranges that hold the rates of V-SP2 and V-SP4). -/
def sampleParams : Params where
  n := 2
  poolCap := 4
  maxi := 0x3F800000#32
  calA := ⟨0x00000000#32, 0x3F800000#32, 0x3F000000#32, 0x00000000#32⟩
  calB := ⟨0x3E000000#32, 0x40000000#32, 0x3F800000#32, 0x00000000#32⟩
  a0Min := 0x3F000000#32
  a0Max := 0x3F800000#32
  a1Min := 0x40000000#32
  a1Max := 0x40400000#32
  ovtReg := 0x01#8
  ovtBit := 7
  errpReg := 0x01#8
  errpBit := 6

theorem sampleParams_valid : paramsValid sampleParams = true := by decide

/-- The implementation's parameters: any that meet the constraints (00_scope.md R8). Free, log 1. -/
opaque Config.someParams [Inhabited { p : Params // paramsValid p = true }] : { p : Params // paramsValid p = true }

/-- The parameters of the machine that `State.reset` describes. -/
def Config.params : Params := (@Config.someParams ⟨⟨sampleParams, sampleParams_valid⟩⟩).val

theorem Config.params_valid : paramsValid Config.params = true :=
  (@Config.someParams ⟨⟨sampleParams, sampleParams_valid⟩⟩).property

/-- The f32 exponential and natural logarithm of an implementation (00_scope.md R12). -/
structure MathPair where
  fexp : F32 → F32
  fln : F32 → F32

/-- What 00_scope.md R12 lets a model assume of the pair; (a) and (b), total and deterministic, hold of any function. -/
structure LawfulMath (m : MathPair) : Prop where
  /-- (c) fexp is monotonic non-decreasing on finite inputs -/
  fexp_mono : ∀ u v, f32IsFinite u = true → f32Le u v = true → f32IsFinite v = true → f32Le (m.fexp u) (m.fexp v) = true
  /-- (c) fexp(v) ≥ +0 for every non-NaN v -/
  fexp_nonneg : ∀ v, f32IsNaN v = false → f32Le f32Zero (m.fexp v) = true
  /-- (c) fexp(+0) = 1.0 -/
  fexp_pos_zero : m.fexp f32Zero = f32One
  /-- (c) fexp(-0) = 1.0 -/
  fexp_neg_zero : m.fexp (f32Flip f32Zero) = f32One
  /-- (d) fln(1.0) = +0 -/
  fln_one : m.fln f32One = f32Zero
  /-- (d) fln(v) is finite and > 0 for every finite v > 1 -/
  fln_pos : ∀ v, f32IsFinite v = true → f32Lt f32One v = true →
    f32IsFinite (m.fln v) = true ∧ f32Lt f32Zero (m.fln v) = true

/-- A pair that has the properties. It only shows that there is one. -/
def sampleMath : MathPair := ⟨fun _ => f32One, fun v => if f32Lt f32One v then f32One else f32Zero⟩

theorem sampleMath_lawful : LawfulMath sampleMath where
  fexp_mono := fun _ _ _ _ _ => by show f32Le f32One f32One = true; decide
  fexp_nonneg := fun _ _ => by show f32Le f32Zero f32One = true; decide
  fexp_pos_zero := rfl
  fexp_neg_zero := rfl
  fln_one := by decide
  fln_pos := fun v _ h => by
    have e : sampleMath.fln v = f32One := if_pos h
    rw [e]
    decide

/-- The implementation's fexp and fln: any pair with the properties of 00_scope.md R12. Free, log 6. -/
opaque Config.someMath [Inhabited { m : MathPair // LawfulMath m }] : { m : MathPair // LawfulMath m }

/-- The pair the machine computes with. -/
def Config.math : MathPair := (@Config.someMath ⟨⟨sampleMath, sampleMath_lawful⟩⟩).val

theorem Config.math_lawful : LawfulMath Config.math :=
  (@Config.someMath ⟨⟨sampleMath, sampleMath_lawful⟩⟩).property

/-- The byte received during the n-th Xfer, where the environment has not fixed it beforehand (00_scope.md R14, 93 I3,
I4, I5). Free, log 3. -/
opaque Config.busByte : Nat → Byte

/-- What the chip register at a key holds after `n` cut transactions, where nothing has stored to it since: its unknown
initial value for n = 0 (20_memory.md R99, 70_reset_and_hazards.md R341, 93 I24). Free, log 10. -/
opaque Config.unknownReg : Nat → Nat → Byte

/-- What the chip register at a key holds after the n-th write unit, where that unit's effect on it is left open
(20_memory.md R99, 93 I26). Free, logs 12 and 14. -/
opaque Config.openReg : Nat → Nat → Byte

/-- What answers the n-th Draw, before it is brought into the range asked for (00_scope.md R15). Free, log 4. -/
opaque Config.drawAnswer : Nat → Nat

/-- What answers the n-th DrawRates, before it is brought into the ranges (00_scope.md R15). Free, log 5. -/
opaque Config.ratesAnswer : Nat → F32 × F32

end Sys2Proof
end

