-- ==== Sys2Proof/Syntax.lean ====
section
/-! DEFINITION. The instructions: one constructor for each row of spec/opcode_table.json. A field of CMD that an opcode
does not use is an operand too, since the operation itself checks it (30_encoding.md R112, R115). ARG bits that an
opcode ignores are no operand (R111). -/

namespace Sys2Proof

inductive Instr where
  /-- NOP (40_transport.md R155). -/
  | nop (dev a b : Byte)
  /-- WRITE: register `reg` of device `dev` gets `val` (40_transport.md R160). -/
  | write (dev reg b val : Byte)
  /-- READ: register `reg` of every device (40_transport.md R170). -/
  | read (dev reg b : Byte)
  /-- SET_PW: the duty of an LED channel (41_channel_map.md R190). -/
  | setPw (dev slot color duty : Byte)
  /-- SET_GAIN: the gain of an LED channel from a relative intensity (41_channel_map.md R192). -/
  | setGain (dev slot color : Byte) (intensity : F32)
  /-- CLEAR_CH: every duty register of one device (41_channel_map.md R195). -/
  | clearCh (dev a b : Byte)
  /-- CLEAR_ALL: every duty register of the chain (41_channel_map.md R197). -/
  | clearAll (dev a b : Byte)
  /-- ENG_START (42_twinkle.md R230). -/
  | engStart (dev a b : Byte)
  /-- ENG_STOP (42_twinkle.md R233). -/
  | engStop (dev a b : Byte)
  /-- Q_THERM: the thermal fault of one device (43_queries.md R261). -/
  | qTherm (dev a b : Byte)
  /-- Q_ERR: the channel faults of one device (43_queries.md R263). -/
  | qErr (dev a b : Byte)
  /-- RESERVED_OP: an operation code 0x0B to 0xFF (30_encoding.md R114). -/
  | reservedOp (op dev a b : Byte)
  /-- TICK_UPDATE: internal, run for a pending tick (42_twinkle.md R240). -/
  | tickUpdate
  /-- SPAWN: internal, the last step of a tick update (42_twinkle.md R242). -/
  | spawn
  /-- WIRE_NOP: the no-op unit, told by its instruction byte alone (30_encoding.md R121, R124). -/
  | wireNop
  /-- WIRE_WR: the write unit of a device register (30_encoding.md R122). -/
  | wireWr (reg : Reg7) (val : Byte)
  /-- WIRE_RD: the read unit of a device register, with its dummy byte (30_encoding.md R122). -/
  | wireRd (reg : Reg7) (dummy : Byte)
deriving DecidableEq, Repr

end Sys2Proof
end

