-- ==== Sys2Proof/WellFormed.lean ====
section
/-! DEFINITION. Which instructions have words of their own, and which meet the operand rules of the opcode map. An
instruction that breaks an operand rule still runs: it fails with the error code the spec gives it. -/

namespace Sys2Proof

/-- The instruction has a command word or a transaction unit (30_encoding.md R118: the two internal operations have
none). -/
def Instr.encoded : Instr → Bool
  | .tickUpdate | .spawn => false
  | .nop .. | .write .. | .read .. | .setPw .. | .setGain .. | .clearCh .. | .clearAll .. | .engStart .. | .engStop ..
  | .qTherm .. | .qErr .. | .reservedOp .. | .wireNop | .wireWr .. | .wireRd .. => true

/-- The reserved operation codes are 0x0B to 0xFF (30_encoding.md R114). -/
def reservedCode (op : Byte) : Bool := decide (0x0B#8 ≤ op)

/-- The instruction is the one its words stand for: a reserved operation has a reserved code, and a read unit does not
have the instruction byte 0xFF, REG 0x7F with RW 1, which is the no-op's whatever the data byte is (30_encoding.md R121,
R124). Every other instruction with words is. -/
def Instr.wf : Instr → Bool
  | .reservedOp op _ _ _ => reservedCode op
  | .wireRd reg _ => !(reg == 0x7F#7)
  | .tickUpdate | .spawn => false
  | .nop .. | .write .. | .read .. | .setPw .. | .setGain .. | .clearCh .. | .clearAll .. | .engStart .. | .engStop ..
  | .qTherm .. | .qErr .. | .wireNop | .wireWr .. => true

/-- Every CMD field the opcode does not use is zero (30_encoding.md R112). -/
def Instr.reservedClear : Instr → Bool
  | .nop d a b | .clearAll d a b | .engStart d a b | .engStop d a b => d == 0#8 && a == 0#8 && b == 0#8
  | .write _ _ b _ => b == 0#8
  | .read d _ b => d == 0#8 && b == 0#8
  | .clearCh _ a b | .qTherm _ a b | .qErr _ a b => a == 0#8 && b == 0#8
  | .setPw .. | .setGain .. | .reservedOp .. | .tickUpdate | .spawn | .wireNop | .wireWr .. | .wireRd .. => true

/-- A pair (slot, color) is legal when slot ≤ 4 and color ≤ 2, or slot = 4 and color = 3 (41_channel_map.md R182). -/
def legalPair (slot color : Byte) : Bool :=
  (decide (slot ≤ 4#8) && decide (color ≤ 2#8)) || (slot == 4#8 && color == 3#8)

/-- Every operand is in the range 30_encoding.md R117 and 41_channel_map.md R182 give it, for a chain of `n`
devices. -/
def Instr.inRange (n : Nat) : Instr → Bool
  | .write d r _ _ => decide (d.toNat < n) && decide (r ≤ regMax)
  | .read _ r _ => decide (r ≤ regMax)
  | .setPw d s c _ => decide (d.toNat < n) && legalPair s c
  | .setGain d s c _ => decide (d.toNat < n) && legalPair s c
  | .clearCh d _ _ | .qTherm d _ _ | .qErr d _ _ => decide (d.toNat < n)
  | .wireWr r _ | .wireRd r _ => decide (r ≤ 0x45#7)
  | .nop .. | .clearAll .. | .engStart .. | .engStop .. | .reservedOp .. | .tickUpdate | .spawn | .wireNop => true

end Sys2Proof
end

