-- ==== Sys2Proof/Decode.lean ====
section
/-! DEFINITION. Decoding and encoding (30_encoding.md R110-R124). A command is the pair (CMD, ARG); a transaction unit
is one 16-bit word. Both decoders are total; only a number of bits that is no instruction's length, or bits outside
it, are rejected, by name. -/

namespace Sys2Proof

/-- The words of an instruction: what the host writes, or what the block sends to one chain position. -/
inductive Words where
  | command (cmd arg : Word)
  | wireUnit (u : Unit16)
deriving DecidableEq, Repr

/-- OP, CMD[31:24] (30_encoding.md R111). -/
def opField (cmd : Word) : Byte := cmd.extractLsb' 24 8
/-- DEV, CMD[23:16]. -/
def devField (cmd : Word) : Byte := cmd.extractLsb' 16 8
/-- A, CMD[15:8]. -/
def aField (cmd : Word) : Byte := cmd.extractLsb' 8 8
/-- B, CMD[7:0]. -/
def bField (cmd : Word) : Byte := cmd.extractLsb' 0 8
/-- `v8 = ARG[7:0]` (30_encoding.md R115). -/
def argByte (arg : Word) : Byte := arg.extractLsb' 0 8

/-- The opcode map (30_encoding.md R113): OP and the operand fields of a command. -/
def decodeFields (op dev a b : Byte) (arg : Word) : Instr :=
  if op = 0x00#8 then .nop dev a b
  else if op = 0x01#8 then .write dev a b (argByte arg)
  else if op = 0x02#8 then .read dev a b
  else if op = 0x03#8 then .setPw dev a b (argByte arg)
  else if op = 0x04#8 then .setGain dev a b arg
  else if op = 0x05#8 then .clearCh dev a b
  else if op = 0x06#8 then .clearAll dev a b
  else if op = 0x07#8 then .engStart dev a b
  else if op = 0x08#8 then .engStop dev a b
  else if op = 0x09#8 then .qTherm dev a b
  else if op = 0x0A#8 then .qErr dev a b
  else .reservedOp op dev a b

/-- The instruction of a host command: total (30_encoding.md R115). -/
def decodeCommand (cmd arg : Word) : Instr :=
  decodeFields (opField cmd) (devField cmd) (aField cmd) (bField cmd) arg

/-- The instruction byte of a unit, bits 15..8. -/
def unitInstr (u : Unit16) : Byte := u.extractLsb' 8 8
/-- The data byte of a unit, bits 7..0. -/
def unitData (u : Unit16) : Byte := u.extractLsb' 0 8
/-- The register address in an instruction byte, its bits 7..1 (30_encoding.md R120). -/
def unitReg (u : Unit16) : Reg7 := u.extractLsb' 9 7
/-- The RW bit of an instruction byte, its bit 0 (30_encoding.md R120). -/
def unitRw (u : Unit16) : Bool := u.getLsbD 8

/-- The instruction of a transaction unit: total. Its instruction byte alone tells its kind (30_encoding.md R124): 0xFF
is a no-op, whatever the data byte is, checked before the read unit, which it would otherwise match (log 13). -/
def decodeUnit (u : Unit16) : Instr :=
  if unitInstr u = noopByte then .wireNop
  else if unitRw u then .wireRd (unitReg u) (unitData u)
  else .wireWr (unitReg u) (unitData u)

def decode : Words → Instr
  | .command cmd arg => decodeCommand cmd arg
  | .wireUnit u => decodeUnit u

/-- Why a bit string is no instruction. -/
inductive DecodeError where
  /-- No instruction has this many bits: a command has 32, or 64 with its ARG, and a unit has 16. -/
  | noSuchLength (nbits : Nat)
  /-- The bit string has bits above its own length. -/
  | bitsAboveLength (nbits : Nat)
deriving DecidableEq, Repr

/-- A bit string as words, bit 0 the least significant: CMD is bits 31..0 and ARG bits 63..32, all of them 0 when only
CMD is given; a unit is bits 15..0. -/
def wordsOfBits (nbits w : Nat) : Except DecodeError Words :=
  if w ≥ 2 ^ nbits then .error (.bitsAboveLength nbits)
  else if nbits = 32 ∨ nbits = 64 then .ok (.command (BitVec.ofNat 32 w) (BitVec.ofNat 32 (w / 4294967296)))
  else if nbits = 16 then .ok (.wireUnit (BitVec.ofNat 16 w))
  else .error (.noSuchLength nbits)

/-- The instruction of a bit string, or why there is none. -/
def decodeBits (nbits w : Nat) : Except DecodeError Instr :=
  match wordsOfBits nbits w with
  | .ok ws => .ok (decode ws)
  | .error e => .error e

/-- What the decoder gives for an instruction whose bits are `w`, numbered as the opcode table numbers them. -/
def decodeTableWord (nbits w : Nat) : Option Instr :=
  match decodeBits nbits w with
  | .ok i => some i
  | .error _ => none

/-- A command word of its four fields (30_encoding.md R111). -/
def cmdWordOf (op dev a b : Byte) : Word := op ++ dev ++ a ++ b

/-- ARG for an operand byte, its other bits zero. -/
def argOf (v : Byte) : Word := v.setWidth 32

/-- The instruction byte `(reg << 1) | rw` of a 7-bit register address, before its data byte (30_encoding.md R120). -/
def unitOf (reg : Reg7) (rw : Bool) (data : Byte) : Unit16 := reg ++ BitVec.ofBool rw ++ data

/-- The words of an instruction (30_encoding.md R113, R121, R122); the internal operations have none (R118). ARG is
zero where the opcode ignores it. -/
def encode : Instr → Option Words
  | .nop d a b => some (.command (cmdWordOf 0x00#8 d a b) 0#32)
  | .write d r b v => some (.command (cmdWordOf 0x01#8 d r b) (argOf v))
  | .read d r b => some (.command (cmdWordOf 0x02#8 d r b) 0#32)
  | .setPw d s c v => some (.command (cmdWordOf 0x03#8 d s c) (argOf v))
  | .setGain d s c f => some (.command (cmdWordOf 0x04#8 d s c) f)
  | .clearCh d a b => some (.command (cmdWordOf 0x05#8 d a b) 0#32)
  | .clearAll d a b => some (.command (cmdWordOf 0x06#8 d a b) 0#32)
  | .engStart d a b => some (.command (cmdWordOf 0x07#8 d a b) 0#32)
  | .engStop d a b => some (.command (cmdWordOf 0x08#8 d a b) 0#32)
  | .qTherm d a b => some (.command (cmdWordOf 0x09#8 d a b) 0#32)
  | .qErr d a b => some (.command (cmdWordOf 0x0A#8 d a b) 0#32)
  | .reservedOp op d a b => some (.command (cmdWordOf op d a b) 0#32)
  | .tickUpdate => none
  | .spawn => none
  | .wireNop => some (.wireUnit 0xFFFF#16)
  | .wireWr r v => some (.wireUnit (unitOf r false v))
  | .wireRd r d => some (.wireUnit (unitOf r true d))

end Sys2Proof
end

