-- ==== Sys2Proof/Machine/State.lean ====
section
/-! DEFINITION. The state: the block (10_state.md R30), and beside it the environment a model keeps (10_state.md R57,
00_scope.md R14, R15). Plain data. -/

namespace Sys2Proof.Machine

/-- Nothing in the block faults: it has no traps (60_exceptions.md R300), so no meaning raises one, and there is no
constructor. An error is a code in STATUS.ERR (R301), a bus primitive that never returns is the state EXEC(op) (R313,
log 8). -/
inductive Fault where
deriving DecidableEq, Repr

/-- Why an instruction has no meaning. -/
inductive Refusal where
  /-- Raised by `exec` for an instruction without a meaning; every instruction has one, so nothing raises it. Safe. -/
  | notModelled (mnemonic : String)
deriving DecidableEq, Repr

/-- The error codes of STATUS.ERR that are ever written (60_exceptions.md R301). -/
inductive ErrorCode where
  | ok
  | opcode
  | rsvd
  | range
  | arg
  | numeric
  | config
deriving DecidableEq, Repr

/-- The sequencer: IDLE, or in an operation that has not ended. Operations are one atomic step each, so the second is
seen only where a bus primitive never returned (10_state.md R46, 60_exceptions.md R313). -/
inductive Sequencer where
  | idle
  | exec (op : Instr)
deriving DecidableEq, Repr

/-- The host-visible registers and the command slot (10_state.md R33-R40, R45). BUSY is `cmdValid`; RUNNING and
TICK_PEND are the engine's own bits. -/
structure Window where
  cmdWord : Word
  arg : Word
  cmdValid : Bool
  cmdArg : Word
  tickOvr : Bool
  cmdOvr : Bool
  accErr : Bool
  err : ErrorCode
  result : Word
  cfgTick : F32
  cfgSpawnK : BitVec 16
  cfgSlots : Byte
  cfgRext : Word
deriving DecidableEq, Repr

/-- The three buffers, one entry for each chain position, and the select line (10_state.md R44, R50, R55). -/
structure Transport where
  instr : List Byte
  data : List Byte
  rx : List Byte
  sel : Bool
deriving DecidableEq, Repr

/-- A pool entry (10_state.md R52). -/
structure Slot where
  active : Bool
  dev : Byte
  led : Byte
  baseR : Byte
  baseG : Byte
  baseB : Byte
  a1 : F32
  a0 : F32
  t : F32
  tmax : F32
  scale : F32
deriving DecidableEq, Repr

/-- The inactive slot value (10_state.md R53). -/
def inactiveSlot : Slot where
  active := false
  dev := 0#8
  led := 0#8
  baseR := 0#8
  baseG := 0#8
  baseB := 0#8
  a1 := 0#32
  a0 := 0#32
  t := 0#32
  tmax := 0#32
  scale := 0#32

/-- The twinkle engine: its state, its active configuration, its pool, and the outputs to the tick timer
(10_state.md R47-R49, R52, R55). -/
structure Engine where
  running : Bool
  tickPending : Bool
  actT : F32
  actK : BitVec 16
  actS : Byte
  slots : List Slot
  tickPeriodOut : F32
  tickEnableOut : Bool
deriving DecidableEq, Repr

/-- A call of a serial-bus primitive (00_scope.md R14). -/
inductive BusEvent where
  | selAssert
  | xfer (sent : Byte)
  | selDeassert
deriving DecidableEq, Repr

/-- How many bytes a host access moves (20_memory.md R83, R84). -/
inductive AccessSize where
  | one
  | two
  | four
deriving DecidableEq, Repr

/-- An event outside the block (20_memory.md R93), or the sequencer's turn between two of them. Log 2. -/
inductive Event where
  /-- The host reads the window (20_memory.md R83). -/
  | hostRead (off : BitVec 12) (size : AccessSize)
  /-- The host writes the window (20_memory.md R83). -/
  | hostWrite (off : BitVec 12) (size : AccessSize) (value : Word)
  /-- A tick arrives (60_exceptions.md R306). -/
  | tick
  /-- Reset is asserted (70_reset_and_hazards.md R340). -/
  | reset
  /-- The sequencer takes its turn (10_state.md R46). -/
  | turn
  /-- The collaborator will complete `k` more bus primitives and then never return from one (60_exceptions.md
  R313). -/
  | hang (k : Nat)
  /-- A transaction unit reaches the chip at a chain position (30_encoding.md R124, 20_memory.md R99). Log 15. -/
  | wireUnit (pos : Nat) (u : Unit16)
deriving DecidableEq, Repr

/-- The chips' registers: a byte for each of them (20_memory.md R99). `bytes` lists, at the address 128 * position +
register, those that have been stored to; the others hold a free value (log 10). -/
structure ChipRegs where
  bytes : List Host.Cell
  /-- resets that cut a transaction so far, each of which leaves every register unknown (70_reset_and_hazards.md R341) -/
  cuts : Nat
  /-- write units taken so far -/
  writes : Nat
deriving DecidableEq, Repr

/-- The environment and what the model records of it. None of it is state of the block (10_state.md R30, R57). -/
structure Env where
  /-- outside events still to come, in their order (log 2) -/
  events : List Event
  /-- answers to Xfer already fixed, the next one first (log 3) -/
  busIn : List Byte
  /-- Xfer calls so far -/
  xfers : Nat
  /-- answers to Draw already fixed (log 4) -/
  drawIn : List Nat
  /-- Draw calls so far -/
  draws : Nat
  /-- answers to DrawRates already fixed (log 5) -/
  ratesIn : List (F32 × F32)
  /-- DrawRates calls so far -/
  rateDraws : Nat
  /-- how many bus primitives complete before one never returns; none: all do (log 8) -/
  hangIn : Option Nat
  /-- the bus calls so far, oldest first (00_scope.md R14, log 19) -/
  trace : List BusEvent
  /-- what the last host read returned (20_memory.md R83, log 20) -/
  readData : Word
  /-- the chips' registers (20_memory.md R99, log 10) -/
  chips : ChipRegs
  /-- what each chip has latched for the next transaction (20_memory.md R99, log 11) -/
  latch : List (Option Reg7)
  /-- the premise that the chain answers as the reference chain of 20_memory.md R99 does (log 10) -/
  refChain : Bool
  /-- Xfer calls since the last SelAssert: the next one is this byte of its transaction (20_memory.md R90, log 10) -/
  beat : Nat
  /-- the chain position whose chip takes the unit being executed (log 15) -/
  unitPos : Nat
deriving DecidableEq, Repr

structure State where
  /-- the parameters: constant, and with them the registers ID, MAXI, CAL_A, CAL_B (10_state.md R30 item 2) -/
  par : Params
  window : Window
  transport : Transport
  seq : Sequencer
  engine : Engine
  env : Env
deriving DecidableEq, Repr

/-- The window after reset (10_state.md R58). -/
def Window.reset : Window where
  cmdWord := 0x00000000#32
  arg := 0x00000000#32
  cmdValid := false
  cmdArg := 0x00000000#32
  tickOvr := false
  cmdOvr := false
  accErr := false
  err := .ok
  result := 0x00000000#32
  cfgTick := 0x00000000#32
  cfgSpawnK := 0x0000#16
  cfgSlots := 0x00#8
  cfgRext := 0x00000000#32

/-- The transport of a chain of `n` devices after reset (10_state.md R58). -/
def Transport.reset (n : Nat) : Transport where
  instr := List.replicate n 0xFF#8
  data := List.replicate n 0xFF#8
  rx := List.replicate n 0x00#8
  sel := false

/-- The engine with a pool of `cap` slots after reset (10_state.md R58). -/
def Engine.reset (cap : Nat) : Engine where
  running := false
  tickPending := false
  actT := 0x00000000#32
  actK := 0x0000#16
  actS := 0x00#8
  slots := List.replicate cap inactiveSlot
  tickPeriodOut := 0x00000000#32
  tickEnableOut := false

/-- The environment of a chain of `n` devices before anything has happened: nothing fixed, nothing recorded, nothing
stored in the chips, and no premise about their answers. DESIGN CHOICE, log 21. -/
def Env.initial (n : Nat) : Env where
  events := []
  busIn := []
  xfers := 0
  drawIn := []
  draws := 0
  ratesIn := []
  rateDraws := 0
  hangIn := none
  trace := []
  readData := 0x00000000#32
  chips := { bytes := [], cuts := 0, writes := 0 }
  latch := List.replicate n none
  refChain := false
  beat := 0
  unitPos := 0

/-- The machine with the parameters `p` right after reset (10_state.md R58). -/
def State.resetWith (p : Params) : State where
  par := p
  window := Window.reset
  transport := Transport.reset p.n
  seq := .idle
  engine := Engine.reset p.poolCap
  env := Env.initial p.n

/-- The machine right after reset, with the implementation's parameters (10_state.md R58, log 1). -/
def State.reset : State := State.resetWith Config.params

end Sys2Proof.Machine
end

