-- ==== Sys2Proof/Machine/Ops.lean ====
section
/-! DEFINITION. The named operations over the state: the chips' registers, the serial-bus primitives, the entropy
port, the pool, and the end of an operation with its error code. -/

namespace Sys2Proof.Machine

/-! ### The chips' registers: the only byte memory (20_memory.md R80, R99) -/

/-- Address and byte pairs, addresses strictly rising. -/
abbrev Memory := List Host.Cell

/-- The canonical form: addresses strictly rise. -/
def Memory.wf (m : Memory) : Bool := decide (m.Pairwise fun x y => x.1 < y.1)

/-- The byte listed at an address. -/
def Memory.read : Memory → Nat → Option Byte
  | [], _ => none
  | (k, w) :: m, a => if k = a then some w else Memory.read m a

/-- Stores a byte. -/
def Memory.write : Memory → Nat → Byte → Memory
  | [], a, v => [(a, v)]
  | (k, w) :: m, a, v =>
    if a < k then (a, v) :: (k, w) :: m
    else if a = k then (a, v) :: m
    else (k, w) :: Memory.write m a v

/-- Stores the byte `f k` at each address k of a list. -/
def Memory.writeAll (m : Memory) (l : List Nat) (f : Nat → Byte) : Memory := l.foldl (fun m k => Memory.write m k (f k)) m

/-- Where register `a` of the chip at position `p` is kept. -/
def chipKey (p a : Nat) : Nat := 128 * p + a

/-- The byte at a key: the one listed, else the free value an unlisted register holds (20_memory.md R99, log 10). -/
def ChipRegs.read (c : ChipRegs) (k : Nat) : Byte := (Memory.read c.bytes k).getD (Config.unknownReg c.cuts k)

/-- dreg_p[a] (20_memory.md R99). -/
def chipReg (s : State) (p a : Nat) : Byte := s.env.chips.read (chipKey p a)

/-- The keys of `n` registers of the chip at `p`, from register `a`. -/
def chipKeys (p a n : Nat) : List Nat := (List.range n).map fun i => chipKey p (a + i)

/-- The registers on which a write of register `r` of the chip at `p` has an effect that is left open, besides `r` itself:
the sixteen duty registers for the broadcast register 0x40 and the sixteen gain registers for 0x41 (20_memory.md R99, 93
I26, log 12), and every register 0x00 to 0x45 for an address above them, of which R99 says nothing (log 14). -/
def openedBy (p : Nat) (r : Reg7) : List Nat :=
  if r = 0x40#7 then chipKeys p 0x08 16
  else if r = 0x41#7 then chipKeys p 0x18 16
  else if r ≤ 0x45#7 then []
  else chipKeys p 0x00 0x46

/-- The chips' registers after the chip at `p` takes a write unit: an address up to 0x45 is stored to (20_memory.md
R99), and the registers on which the effect is left open hold a free value. -/
def chipStore (c : ChipRegs) (p : Nat) (r : Reg7) (v : Byte) : ChipRegs :=
  let m := Memory.writeAll c.bytes (openedBy p r) (Config.openReg c.writes)
  { c with bytes := if r ≤ 0x45#7 then Memory.write m (chipKey p r.toNat) v else m, writes := c.writes + 1 }

/-- The chips' registers after a cut transaction: every one holds a new free value (70_reset_and_hazards.md R341). -/
def ChipRegs.cut (c : ChipRegs) : ChipRegs := { c with bytes := [], cuts := c.cuts + 1 }

/-- Sets what the chips hold and have latched. -/
def State.setChips (s : State) (m : ChipRegs) (l : List (Option Reg7)) : State :=
  { s with env := { s.env with chips := m, latch := l } }

/-- The chip at `p` takes a no-op unit: it does nothing, and what it had latched for this transaction is used up
(20_memory.md R99, log 11). A position outside the chain has no chip. -/
def chipIdle (p : Nat) (s : State) : State :=
  if p < s.par.n then s.setChips s.env.chips (s.env.latch.set p none) else s

/-- The chip at `p` takes a write unit (20_memory.md R99). -/
def chipWrite (p : Nat) (r : Reg7) (v : Byte) (s : State) : State :=
  if p < s.par.n then s.setChips (chipStore s.env.chips p r v) (s.env.latch.set p none) else s

/-- The chip at `p` takes a read unit: it latches the address for the next transaction (20_memory.md R99). -/
def chipLatch (p : Nat) (r : Reg7) (s : State) : State :=
  if p < s.par.n then s.setChips s.env.chips (s.env.latch.set p (some r)) else s

/-- The chip at `p` takes a unit: it decodes it and does what it says. -/
def chipTakes (p : Nat) (u : Unit16) (s : State) : State :=
  match decodeUnit u with
  | .wireNop => chipIdle p s
  | .wireWr r v => chipWrite p r v s
  | .wireRd r _ => chipLatch p r s
  | .nop .. | .write .. | .read .. | .setPw .. | .setGain .. | .clearCh .. | .clearAll .. | .engStart .. | .engStop ..
  | .qTherm .. | .qErr .. | .reservedOp .. | .tickUpdate | .spawn => s

/-- The unit staged for position `i` (20_memory.md R90). -/
def stagedUnit (s : State) (i : Nat) : Unit16 :=
  s.transport.instr.getD i noopByte ++ s.transport.data.getD i noopByte

/-- At SelDeassert each position takes the unit the transaction sent for it (20_memory.md R99). -/
def chipsTake (s : State) : State :=
  (List.range s.par.n).foldl (fun t i => chipTakes i (stagedUnit s i) t) s

/-- The registers whose read value the reference chain covers: plain storage, 0x08 to 0x27 (20_memory.md R99). -/
def plainStorage (a : Nat) : Bool := decide (0x08 ≤ a) && decide (a ≤ 0x27)

/-- What the chip at `p` answers for its latched register `a`: dreg_p[a], where the chain answers as the reference chain
does and the register is plain storage (20_memory.md R99). Otherwise the answer is open. -/
def regReply (s : State) (p a : Nat) : Option Byte :=
  if s.env.refChain && plainStorage a then some (chipReg s p a) else none

/-- The chips' reply in byte `b` of a transaction: the units received from position i are (any byte, dreg_i[a]), where a
is the address that i has latched (20_memory.md R99, R90). -/
def chipReply (s : State) (b : Nat) : Option Byte :=
  if b % 2 = 1 then (s.env.latch.getD (b / 2) none).bind fun a => regReply s (b / 2) a.toNat else none

/-! ### Running a piece of an operation -/

/-- A piece of an operation has come to its end with a value, or one of its bus primitives never returned
(60_exceptions.md R313). -/
inductive Res (α : Type) where
  | done (a : α) (s : State)
  | hung (s : State)
deriving DecidableEq, Repr

/-- Goes on with `k`, unless a primitive hung. -/
def Res.andThen {α β : Type} (r : Res α) (k : α → State → Res β) : Res β :=
  match r with
  | .done a s => k a s
  | .hung s => .hung s

/-- `for x in l`, in order (00_scope.md R10). -/
def forEach {α : Type} : List α → (α → State → Res Unit) → State → Res Unit
  | [], _, s => .done () s
  | x :: l, f, s => (f x s).andThen fun _ t => forEach l f t

/-! ### The serial-bus primitives (00_scope.md R14) -/

/-- Records a bus call. -/
def State.record (s : State) (e : BusEvent) : State := { s with env := { s.env with trace := s.env.trace ++ [e] } }

/-- Sets how many more bus primitives complete. -/
def State.setHang (s : State) (h : Option Nat) : State := { s with env := { s.env with hangIn := h } }

/-- Drives the select line (10_state.md R55). -/
def State.setSel (s : State) (b : Bool) : State := { s with transport := { s.transport with sel := b } }

/-- A call of a bus primitive: it completes, or it never returns (00_scope.md R14, 60_exceptions.md R313). The call
is recorded either way (log 8). -/
def busCall (e : BusEvent) (s : State) : Res Unit :=
  match s.env.hangIn with
  | none => .done () (s.record e)
  | some 0 => .hung ((s.record e).setHang none)
  | some (k + 1) => .done () ((s.record e).setHang (some k))

/-- Sets which byte of its transaction the next one is. -/
def State.setBeat (s : State) (b : Nat) : State := { s with env := { s.env with beat := b } }

/-- SelAssert(): a transaction begins with its byte 0. -/
def selAssert (s : State) : Res Unit := (busCall .selAssert s).andThen fun _ t => .done () ((t.setSel true).setBeat 0)

/-- SelDeassert(): the transaction ends, and the chips take its units. -/
def selDeassert (s : State) : Res Unit :=
  (busCall .selDeassert s).andThen fun _ t => .done () (chipsTake (t.setSel false))

/-- The environment's choice of the byte received during the next Xfer (00_scope.md R14, log 3). -/
def envAnswer (s : State) : Byte :=
  match s.env.busIn with
  | b :: _ => b
  | [] => Config.busByte s.env.xfers

/-- The byte received during the next Xfer: the reference chain's reply where it has one (20_memory.md R99), else the
environment's choice. -/
def busAnswer (s : State) : Byte := (chipReply s s.env.beat).getD (envAnswer s)

/-- One more Xfer is over. -/
def State.answered (s : State) : State :=
  { s with env := { s.env with busIn := s.env.busIn.tail, xfers := s.env.xfers + 1, beat := s.env.beat + 1 } }

/-- Xfer(b_out) -> b_in. -/
def xfer (b : Byte) (s : State) : Res Byte :=
  (busCall (.xfer b) s).andThen fun _ t => .done (busAnswer t) t.answered

/-- Fills the two staging buffers (10_state.md R50). -/
def State.stage (s : State) (i d : List Byte) : State :=
  { s with transport := { s.transport with instr := i, data := d } }

/-- Stores the byte received for a position (10_state.md R44). -/
def State.setRx (s : State) (i : Nat) (b : Byte) : State :=
  { s with transport := { s.transport with rx := s.transport.rx.set i b } }

/-- rx[i] (10_state.md R44). -/
def rxAt (s : State) (i : Nat) : Byte := s.transport.rx.getD i 0#8

/-! ### The entropy port (00_scope.md R15) -/

/-- The answer to Draw(k): any integer below `k`, the environment's choice (log 4). -/
def drawn (k : Nat) (s : State) : Nat :=
  (match s.env.drawIn with
    | r :: _ => r
    | [] => Config.drawAnswer s.env.draws) % k

/-- One more Draw is over. -/
def State.drew (s : State) : State :=
  { s with env := { s.env with drawIn := s.env.drawIn.tail, draws := s.env.draws + 1 } }

/-- The ranges DrawRates answers in (00_scope.md R15). -/
def ratesInRange (p : Params) (r : F32 × F32) : Bool :=
  f32Le p.a0Min r.1 && f32Le r.1 p.a0Max && f32Le p.a1Min r.2 && f32Le r.2 p.a1Max && f32Lt r.1 r.2

/-- A pair of rates brought into the ranges: one outside them, which no entropy source answers, counts as the least
pair (log 5). -/
def fitRates (p : Params) (r : F32 × F32) : F32 × F32 := if ratesInRange p r then r else (p.a0Min, p.a1Min)

/-- The answer (a0, a1) to DrawRates(): any pair in the ranges, the environment's choice. -/
def drawnRates (s : State) : F32 × F32 :=
  fitRates s.par
    (match s.env.ratesIn with
      | r :: _ => r
      | [] => Config.ratesAnswer s.env.rateDraws)

/-- One more DrawRates is over. -/
def State.drewRates (s : State) : State :=
  { s with env := { s.env with ratesIn := s.env.ratesIn.tail, rateDraws := s.env.rateDraws + 1 } }

/-! ### The pool (10_state.md R52) -/

/-- slot[j]. -/
def slotAt (s : State) (j : Nat) : Slot := s.engine.slots.getD j inactiveSlot

/-- `slot[j] <- x`. -/
def State.setSlot (s : State) (j : Nat) (x : Slot) : State :=
  { s with engine := { s.engine with slots := s.engine.slots.set j x } }

/-- Sets tick_pending (10_state.md R47). -/
def State.setTickPending (s : State) (b : Bool) : State := { s with engine := { s.engine with tickPending := b } }

/-! ### The end of an operation (10_state.md R46, 60_exceptions.md R300-R303)

There are no traps: where another machine takes an exception, this one ends the command with a code. -/

/-- RESULT <- w (10_state.md R36). -/
def State.setResult (s : State) (w : Word) : State := { s with window := { s.window with result := w } }

/-- A host command ends with a code: STATUS.ERR <- the code, cmd_valid <- 0 (10_state.md R46). -/
def State.endCommand (s : State) (e : ErrorCode) : State :=
  { s with window := { s.window with err := e, cmdValid := false } }

/-- The sequencer stays in an operation that never ends (60_exceptions.md R313). -/
def State.stuckIn (s : State) (op : Instr) : State := { s with seq := .exec op }

/-- What a host command leaves: it ends with its code, or it never ends. -/
def completeCommand (op : Instr) (r : Res ErrorCode) : State :=
  match r with
  | .done e s => s.endCommand e
  | .hung s => s.stuckIn op

/-- What an internal operation leaves: it writes no STATUS.ERR (60_exceptions.md R303). -/
def completeInternal (op : Instr) (r : Res Unit) : State :=
  match r with
  | .done _ s => s
  | .hung s => s.stuckIn op

/-- A host command's operation that has sent something and then succeeds. -/
def thenOk (r : Res Unit) : Res ErrorCode := r.andThen fun _ s => .done .ok s

end Sys2Proof.Machine
end

