-- ==== Sys2Proof/Machine/Operands.lean ====
section
/-! DEFINITION. Operand forms: the checks of a command's fields (30_encoding.md R116, R117), the channel map
(41_channel_map.md R181-R183) and the instruction byte (30_encoding.md R120). -/

namespace Sys2Proof.Machine

/-- `d < N` (30_encoding.md R117). -/
def devOk (s : State) (dev : Byte) : Bool := decide (dev.toNat < s.par.n)

/-- `r <= REG_MAX` (30_encoding.md R117). -/
def regOk (reg : Byte) : Bool := decide (reg ≤ regMax)

/-- `legal(slot, color)` (41_channel_map.md R182). -/
def pairOk (slot color : Byte) : Bool :=
  (decide (slot ≤ 4#8) && decide (color ≤ 2#8)) || (slot == 4#8 && color == 3#8)

/-- A field the opcode does not use is zero (30_encoding.md R112). -/
def unused (f : Byte) : Bool := f == 0#8

/-- ChanOff(slot, color) = 15 - 3*slot - color (41_channel_map.md R181). On the slots and colors the block uses the
difference is never negative. -/
def chanOff (slot color : Nat) : Nat := 15 - 3 * slot - color

/-- The duty register of a channel (41_channel_map.md R183). -/
def pwmReg (k : Nat) : Byte := 0x08#8 + BitVec.ofNat 8 k

/-- The gain register of a channel (41_channel_map.md R183). -/
def irefReg (k : Nat) : Byte := 0x18#8 + BitVec.ofNat 8 k

/-- The instruction byte `(reg << 1) | rw`, RW 0 for a write and 1 for a read (30_encoding.md R120). -/
def instrByte (reg : Byte) (rw : Bool) : Byte := (reg <<< 1) ||| (if rw then 1#8 else 0#8)

/-- The coefficient of a color code (30_encoding.md R116). -/
def colorOf (c : PerColor) (color : Byte) : F32 :=
  if color = 0#8 then c.r else if color = 1#8 then c.g else if color = 2#8 then c.b else c.ir

end Sys2Proof.Machine
end

