-- ==== Sys2Proof/Machine/Transport.lean ====
section
/-! DEFINITION. The register transport: the two transactions, and NOP, WRITE, READ and the reserved opcodes
(40_transport.md). -/

namespace Sys2Proof.Machine

/-- Sends the unit staged for position `i`; what is received is discarded (40_transport.md R151). -/
def sendUnit (i : Nat) (s : State) : Res Unit :=
  (xfer (s.transport.instr.getD i noopByte) s).andThen fun _ t =>
    (xfer (t.transport.data.getD i noopByte) t).andThen fun _ u => .done () u

/-- Sends the unit staged for position `i` and keeps the second byte received (40_transport.md R152). -/
def sendUnitCapture (i : Nat) (s : State) : Res Unit :=
  (xfer (s.transport.instr.getD i noopByte) s).andThen fun _ t =>
    (xfer (t.transport.data.getD i noopByte) t).andThen fun b u => .done () (u.setRx i b)

/-- One select-bracketed transaction: `unit` for each position, ascending (20_memory.md R90). -/
def bracket (unit : Nat → State → Res Unit) (s : State) : Res Unit :=
  (selAssert s).andThen fun _ t =>
    (forEach (List.range s.par.n) unit t).andThen fun _ u => selDeassert u

/-- Stages the write frame of (d, reg, v): the no-op sentinel everywhere but at position d (40_transport.md R151). -/
def stageWrite (d : Nat) (reg v : Byte) (s : State) : State :=
  s.stage ((List.replicate s.par.n noopByte).set d (instrByte reg false)) ((List.replicate s.par.n noopByte).set d v)

/-- WriteTxn(d, reg, v) (40_transport.md R151). -/
def writeTxn (d : Nat) (reg v : Byte) (s : State) : Res Unit := bracket sendUnit (stageWrite d reg v s)

/-- Stages a read's first burst: the read unit at every position (40_transport.md R152). -/
def stageRead (reg : Byte) (s : State) : State :=
  s.stage (List.replicate s.par.n (instrByte reg true)) (List.replicate s.par.n dummyByte)

/-- Stages a read's second burst: 0xFF everywhere (40_transport.md R152). -/
def stageIdle (s : State) : State := s.stage (List.replicate s.par.n noopByte) (List.replicate s.par.n noopByte)

/-- ReadTxn(reg) (40_transport.md R152). -/
def readTxn (reg : Byte) (s : State) : Res Unit :=
  (bracket sendUnit (stageRead reg s)).andThen fun _ t => bracket sendUnitCapture (stageIdle t)

/-- NOP's operation (40_transport.md R155). -/
def nopBody (dev a b : Byte) (s : State) : Res ErrorCode :=
  if unused dev && unused a && unused b then .done .ok s else .done .rsvd s

/-- NOP (40_transport.md R155). -/
def execNop (dev a b : Byte) (s : State) : Host.Outcome State Fault Refusal :=
  .next (completeCommand (.nop dev a b) (nopBody dev a b s))

/-- WRITE's operation (40_transport.md R160, R161). -/
def writeBody (dev reg b val : Byte) (s : State) : Res ErrorCode :=
  if !unused b then .done .rsvd s
  else if !(devOk s dev && regOk reg) then .done .range s
  else thenOk (writeTxn dev.toNat reg val s)

/-- WRITE (40_transport.md R160). -/
def execWrite (dev reg b val : Byte) (s : State) : Host.Outcome State Fault Refusal :=
  .next (completeCommand (.write dev reg b val) (writeBody dev reg b val s))

/-- READ's operation (40_transport.md R170, R171). -/
def readBody (dev reg b : Byte) (s : State) : Res ErrorCode :=
  if !(unused dev && unused b) then .done .rsvd s
  else if !regOk reg then .done .range s
  else thenOk (readTxn reg s)

/-- READ (40_transport.md R170). -/
def execRead (dev reg b : Byte) (s : State) : Host.Outcome State Fault Refusal :=
  .next (completeCommand (.read dev reg b) (readBody dev reg b s))

/-- A reserved opcode fails with ERR_OPCODE, whatever its fields (30_encoding.md R114, 60_exceptions.md R302). -/
def execReservedOp (op dev a b : Byte) (s : State) : Host.Outcome State Fault Refusal :=
  .next (completeCommand (.reservedOp op dev a b) (.done .opcode s))

end Sys2Proof.Machine
end

