-- ==== Sys2Proof/Machine/Queries.lean ====
section
/-! DEFINITION. The fault queries Q_THERM and Q_ERR (43_queries.md). A fault that a query finds is data. -/

namespace Sys2Proof.Machine

/-- `(rx[d] >> k) & 1` (43_queries.md R261, R263). -/
def rxBit (s : State) (d k : Nat) : Bool := (rxAt s d).getLsbD k

/-- Q_THERM's operation (43_queries.md R261). -/
def qThermBody (dev a b : Byte) (s : State) : Res ErrorCode :=
  if !(unused a && unused b) then .done .rsvd s
  else if !devOk s dev then .done .range s
  else (readTxn s.par.ovtReg s).andThen fun _ t =>
    .done .ok (t.setResult (if rxBit t dev.toNat t.par.ovtBit then 1#32 else 0#32))

/-- Q_THERM (43_queries.md R261). -/
def execQTherm (dev a b : Byte) (s : State) : Host.Outcome State Fault Refusal :=
  .next (completeCommand (.qTherm dev a b) (qThermBody dev a b s))

/-- Reads the error-flag register 0x42 + k of every device and answers device d's (43_queries.md R263). -/
def readFlag (d k : Nat) (s : State) : Res Byte :=
  (readTxn (0x42#8 + BitVec.ofNat 8 k) s).andThen fun _ t => .done (rxAt t d) t

/-- The sixteen two-bit flags of device d: EFLAG3 : EFLAG2 : EFLAG1 : EFLAG0, read in ascending order
(43_queries.md R262, R263). -/
def readFlags (d : Nat) (s : State) : Res Word :=
  (readFlag d 0 s).andThen fun f0 s0 =>
    (readFlag d 1 s0).andThen fun f1 s1 =>
      (readFlag d 2 s1).andThen fun f2 s2 =>
        (readFlag d 3 s2).andThen fun f3 s3 => .done (f3 ++ f2 ++ f1 ++ f0) s3

/-- Q_ERR's operation (43_queries.md R263). -/
def qErrBody (dev a b : Byte) (s : State) : Res ErrorCode :=
  if !(unused a && unused b) then .done .rsvd s
  else if !devOk s dev then .done .range s
  else (readTxn s.par.errpReg s).andThen fun _ t =>
    if rxBit t dev.toNat t.par.errpBit then
      (readFlags dev.toNat t).andThen fun w u => .done .ok (u.setResult w)
    else .done .ok (t.setResult 0x00000000#32)

/-- Q_ERR (43_queries.md R263). -/
def execQErr (dev a b : Byte) (s : State) : Host.Outcome State Fault Refusal :=
  .next (completeCommand (.qErr dev a b) (qErrBody dev a b s))

end Sys2Proof.Machine
end

