-- ==== Sys2Proof/Machine/ChannelMap.lean ====
section
/-! DEFINITION. The channel map and the intensity calibration: SET_PW, SET_GAIN, CLEAR_CH, CLEAR_ALL
(41_channel_map.md). -/

namespace Sys2Proof.Machine

/-- SetPW(d, slot, color, v) (41_channel_map.md R184). -/
def setPW (d slot color : Nat) (v : Byte) (s : State) : Res Unit := writeTxn d (pwmReg (chanOff slot color)) v s

/-- PushRGB(d, slot, r, g, b): red, green, blue, in this order (41_channel_map.md R185). -/
def pushRGB (d slot : Nat) (r g b : Byte) (s : State) : Res Unit :=
  (setPW d slot 0 r s).andThen fun _ t =>
    (setPW d slot 1 g t).andThen fun _ u => setPW d slot 2 b u

/-- Clamp(I) to [+0.0, MAXI] (41_channel_map.md R186). -/
def clampIntensity (maxi i : F32) : F32 :=
  if f32Lt i f32Zero then f32Zero else if f32Lt maxi i then maxi else i

/-- One Newton-Raphson step on `a*x*x + b*x - i`, in the order 41_channel_map.md R187 gives. -/
def newtonStep (a b i x : F32) : F32 :=
  let num := f32Sub (f32Add (f32Mul a (f32Mul x x)) (f32Mul b x)) i
  let den := f32Add (f32Mul (f32Mul f32Two a) x) b
  f32Sub x (f32Div num den)

/-- `k` steps from `x`, with no early exit (41_channel_map.md R187). -/
def newtonIterate (a b i : F32) : Nat → F32 → F32
  | 0, x => x
  | k + 1, x => newtonIterate a b i k (newtonStep a b i x)

/-- `y = ((4.0 * f32(rext)) * x) / 900.0` (41_channel_map.md R187). -/
def scaleRoot (rext : Word) (x : F32) : F32 :=
  f32Div (f32Mul (f32Mul f32Four (f32OfNat rext.toNat)) x) f32NineHundred

/-- The end of Calibrate: the code of a root, or none for NUMERIC (41_channel_map.md R187). -/
def codeOfRoot (rext : Word) (x : F32) : Option Byte :=
  if !f32IsFinite x then none
  else if !f32IsFinite (scaleRoot rext x) then none
  else if f32Floor (scaleRoot rext x) < 0 ∨ 255 < f32Floor (scaleRoot rext x) then none
  else some (BitVec.ofInt 8 (f32Floor (scaleRoot rext x)))

/-- Calibrate(c, I, rext) with the parameters `p`: a code, or none for NUMERIC (41_channel_map.md R187). -/
def calibrate (p : Params) (color : Byte) (i : F32) (rext : Word) : Option Byte :=
  codeOfRoot rext
    (newtonIterate (colorOf p.calA color) (colorOf p.calB color) (clampIntensity p.maxi i) newtonIters f32Zero)

/-- SET_PW's operation (41_channel_map.md R190). -/
def setPwBody (dev slot color duty : Byte) (s : State) : Res ErrorCode :=
  if !(devOk s dev && pairOk slot color) then .done .range s
  else thenOk (setPW dev.toNat slot.toNat color.toNat duty s)

/-- SET_PW (41_channel_map.md R190). -/
def execSetPw (dev slot color duty : Byte) (s : State) : Host.Outcome State Fault Refusal :=
  .next (completeCommand (.setPw dev slot color duty) (setPwBody dev slot color duty s))

/-- SET_GAIN's operation (41_channel_map.md R192, R193): the code goes to the gain register and to RESULT. -/
def setGainBody (dev slot color : Byte) (intensity : F32) (s : State) : Res ErrorCode :=
  if !(devOk s dev && pairOk slot color) then .done .range s
  else if f32IsNaN intensity then .done .arg s
  else match calibrate s.par color intensity s.window.cfgRext with
    | none => .done .numeric s
    | some q =>
      (writeTxn dev.toNat (irefReg (chanOff slot.toNat color.toNat)) q s).andThen fun _ t =>
        .done .ok (t.setResult (q.setWidth 32))

/-- SET_GAIN (41_channel_map.md R192). -/
def execSetGain (dev slot color : Byte) (intensity : F32) (s : State) : Host.Outcome State Fault Refusal :=
  .next (completeCommand (.setGain dev slot color intensity) (setGainBody dev slot color intensity s))

/-- Zero to the sixteen duty registers of one device, ascending (41_channel_map.md R195). -/
def clearDevice (d : Nat) (s : State) : Res Unit :=
  forEach (List.range channels) (fun k t => writeTxn d (pwmReg k) 0x00#8 t) s

/-- CLEAR_CH's operation (41_channel_map.md R195). -/
def clearChBody (dev a b : Byte) (s : State) : Res ErrorCode :=
  if !(unused a && unused b) then .done .rsvd s
  else if !devOk s dev then .done .range s
  else thenOk (clearDevice dev.toNat s)

/-- CLEAR_CH (41_channel_map.md R195). -/
def execClearCh (dev a b : Byte) (s : State) : Host.Outcome State Fault Refusal :=
  .next (completeCommand (.clearCh dev a b) (clearChBody dev a b s))

/-- CLEAR_ALL's operation, device by device (41_channel_map.md R197). -/
def clearAllBody (dev a b : Byte) (s : State) : Res ErrorCode :=
  if !(unused dev && unused a && unused b) then .done .rsvd s
  else thenOk (forEach (List.range s.par.n) clearDevice s)

/-- CLEAR_ALL (41_channel_map.md R197). -/
def execClearAll (dev a b : Byte) (s : State) : Host.Outcome State Fault Refusal :=
  .next (completeCommand (.clearAll dev a b) (clearAllBody dev a b s))

end Sys2Proof.Machine
end

