-- ==== Sys2Proof/Machine/Twinkle.lean ====
section
/-! DEFINITION. The twinkle animation engine: ENG_START, ENG_STOP, TICK_UPDATE, SPAWN (42_twinkle.md). The shared
operations take the pair (fexp, fln) as an argument; the meanings give them the implementation's, `Config.math`. -/

namespace Sys2Proof.Machine

/-- Env(a0, a1, t) = fexp(-(a0 * t)) - fexp(-(a1 * t)) (42_twinkle.md R224). -/
def envelope (m : MathPair) (a0 a1 t : F32) : F32 :=
  f32Sub (m.fexp (f32Flip (f32Mul a0 t))) (m.fexp (f32Flip (f32Mul a1 t)))

/-- tmax = fln(a1 / a0) / (a1 - a0) (42_twinkle.md R225). -/
def peakTime (m : MathPair) (a0 a1 : F32) : F32 := f32Div (m.fln (f32Div a1 a0)) (f32Sub a1 a0)

/-- scale = 1.0 / Env(a0, a1, tmax) (42_twinkle.md R225). -/
def peakScale (m : MathPair) (a0 a1 tmax : F32) : F32 := f32Div f32One (envelope m a0 a1 tmax)

/-- f = Env(a0, a1, t) * scale for a slot (42_twinkle.md R226). -/
def slotFactor (m : MathPair) (x : Slot) : F32 := f32Mul (envelope m x.a0 x.a1 x.t) x.scale

/-- An output color: satu8(f32(base) * f) (42_twinkle.md R226). -/
def slotColor (base : Byte) (f : F32) : Byte := satu8 (f32Mul (f32OfNat base.toNat) f)

/-- A slot whose t has advanced by the tick period (42_twinkle.md R240). -/
def slotAdvanced (actT : F32) (x : Slot) : Slot := { x with t := f32Add x.t actT }

/-- The extinguish condition on the output just computed (42_twinkle.md R227). -/
def slotDark (r g b : Byte) (x : Slot) : Bool :=
  decide (r ≤ 1#8) && decide (g ≤ 1#8) && decide (b ≤ 1#8) && f32Lt x.tmax x.t

/-- Advances, pushes, and where it is dark extinguishes the slot `x`, which becomes slot j (42_twinkle.md R240). -/
def tickActiveSlot (m : MathPair) (j : Nat) (x : Slot) (s : State) : Res Unit :=
  let f := slotFactor m x
  let r := slotColor x.baseR f
  let g := slotColor x.baseG f
  let b := slotColor x.baseB f
  (pushRGB x.dev.toNat x.led.toNat r g b s).andThen fun _ t =>
    if slotDark r g b x then
      (pushRGB x.dev.toNat x.led.toNat 0#8 0#8 0#8 t).andThen fun _ u => .done () (u.setSlot j inactiveSlot)
    else .done () (t.setSlot j x)

/-- The body of TICK_UPDATE's loop for slot j (42_twinkle.md R240). -/
def tickSlot (m : MathPair) (j : Nat) (s : State) : Res Unit :=
  if (slotAt s j).active then tickActiveSlot m j (slotAdvanced s.engine.actT (slotAt s j)) s else .done () s

/-- A new slot (42_twinkle.md R242). -/
def spawnedSlot (m : MathPair) (d l r g b : Nat) (rates : F32 × F32) : Slot where
  active := true
  dev := BitVec.ofNat 8 d
  led := BitVec.ofNat 8 l
  baseR := BitVec.ofNat 8 r
  baseG := BitVec.ofNat 8 g
  baseB := BitVec.ofNat 8 b
  a1 := rates.2
  a0 := rates.1
  t := f32Zero
  tmax := peakTime m rates.1 rates.2
  scale := peakScale m rates.1 rates.2 (peakTime m rates.1 rates.2)

/-- The spawn aborts unless tmax and scale are finite and scale > +0.0 (42_twinkle.md R242). -/
def spawnable (x : Slot) : Bool := f32IsFinite x.tmax && f32IsFinite x.scale && f32Lt f32Zero x.scale

/-- Some active slot below act_S targets (d, l) (42_twinkle.md R242). -/
def ledTaken (s : State) (d l : Nat) : Bool :=
  (s.engine.slots.take s.engine.actS.toNat).any fun x => x.active && x.dev.toNat == d && x.led.toNat == l

/-- The least j below act_S whose slot is not active (42_twinkle.md R242). -/
def freeSlot (s : State) : Option Nat :=
  (s.engine.slots.take s.engine.actS.toNat).findIdx? fun x => !x.active

/-- The last part of SPAWN, once slot j is chosen: the color, the rates, the check, the claim (42_twinkle.md R242). -/
def spawnClaim (m : MathPair) (j d l : Nat) (s : State) : State :=
  let s1 := s.drew
  let s2 := s1.drew
  let s3 := s2.drew
  let x := spawnedSlot m d l (drawn 255 s) (drawn 255 s1) (drawn 255 s2) (drawnRates s3)
  if spawnable x then s3.drewRates.setSlot j x else s3.drewRates

/-- The middle part of SPAWN, once (d, l) is drawn: the duplicate test and the free slot (42_twinkle.md R242). -/
def spawnPlace (m : MathPair) (d l : Nat) (s : State) : State :=
  if ledTaken s d l then s
  else match freeSlot s with
    | none => s
    | some j => spawnClaim m j d l s

/-- SPAWN (42_twinkle.md R242). -/
def spawnOnce (m : MathPair) (s : State) : State :=
  let s1 := s.drew
  if drawn spawnDen s < s.engine.actK.toNat then
    spawnPlace m (drawn s.par.n s1) (drawn ledSlots s1.drew) s1.drew.drew
  else s1

/-- TICK_UPDATE's operation (42_twinkle.md R240). -/
def tickBody (m : MathPair) (s : State) : Res Unit :=
  (forEach (List.range s.engine.actS.toNat) (tickSlot m) (s.setTickPending false)).andThen fun _ t =>
    .done () (spawnOnce m t)

/-- TICK_UPDATE (42_twinkle.md R240). It writes no STATUS.ERR. -/
def execTickUpdate (s : State) : Host.Outcome State Fault Refusal :=
  .next (completeInternal .tickUpdate (tickBody Config.math s))

/-- SPAWN (42_twinkle.md R242): it sends nothing on the bus, so it cannot hang. Log 23. -/
def execSpawn (s : State) : Host.Outcome State Fault Refusal :=
  .next (spawnOnce Config.math s)

/-- ENG_START's configuration is valid (42_twinkle.md R230). -/
def startConfigOk (s : State) : Bool :=
  f32IsFinite s.window.cfgTick && f32Lt f32Zero s.window.cfgTick &&
    decide (s.window.cfgSpawnK.toNat ≤ spawnDen) && decide (s.window.cfgSlots.toNat ≤ s.par.poolCap)

/-- The engine that ENG_START leaves (42_twinkle.md R230). -/
def startedEngine (s : State) : Engine where
  running := true
  tickPending := false
  actT := s.window.cfgTick
  actK := s.window.cfgSpawnK
  actS := s.window.cfgSlots
  slots := List.replicate s.par.poolCap inactiveSlot
  tickPeriodOut := s.window.cfgTick
  tickEnableOut := true

/-- ENG_START's operation (42_twinkle.md R230, R231). -/
def engStartBody (dev a b : Byte) (s : State) : Res ErrorCode :=
  if !(unused dev && unused a && unused b) then .done .rsvd s
  else if !startConfigOk s then .done .config s
  else .done .ok { s with engine := startedEngine s }

/-- ENG_START (42_twinkle.md R230). -/
def execEngStart (dev a b : Byte) (s : State) : Host.Outcome State Fault Refusal :=
  .next (completeCommand (.engStart dev a b) (engStartBody dev a b s))

/-- The body of ENG_STOP's loop for slot j: an active slot's LED goes black, and the slot is cleared
(42_twinkle.md R233). -/
def stopSlot (j : Nat) (s : State) : Res Unit :=
  if (slotAt s j).active then
    (pushRGB (slotAt s j).dev.toNat (slotAt s j).led.toNat 0#8 0#8 0#8 s).andThen fun _ t =>
      .done () (t.setSlot j inactiveSlot)
  else .done () s

/-- The engine stops: running, tick_pending and tick_enable_out become 0, the rest is kept (42_twinkle.md R233,
R234). -/
def State.stopEngine (s : State) : State :=
  { s with engine := { s.engine with running := false, tickPending := false, tickEnableOut := false } }

/-- ENG_STOP's operation (42_twinkle.md R233, R234). -/
def engStopBody (dev a b : Byte) (s : State) : Res ErrorCode :=
  if !(unused dev && unused a && unused b) then .done .rsvd s
  else (forEach (List.range s.par.poolCap) stopSlot s).andThen fun _ t => .done .ok t.stopEngine

/-- ENG_STOP (42_twinkle.md R233). -/
def execEngStop (dev a b : Byte) (s : State) : Host.Outcome State Fault Refusal :=
  .next (completeCommand (.engStop dev a b) (engStopBody dev a b s))

end Sys2Proof.Machine
end

