-- ==== Sys2Proof/Machine/Wire.lean ====
section
/-! DEFINITION. The transaction units as instructions: what the chip at the position `env.unitPos` does with one
(30_encoding.md R121-R124, 20_memory.md R99, log 15). Inside an operation of the block the chips take the units of a
transaction at its SelDeassert, by the same shared operations (`chipsTake`). -/

namespace Sys2Proof.Machine

/-- WIRE_NOP: the chip does nothing (20_memory.md R99, 30_encoding.md R124). -/
def execWireNop (s : State) : Host.Outcome State Fault Refusal := .next (chipIdle s.env.unitPos s)

/-- WIRE_WR: the chip stores the byte (20_memory.md R99). -/
def execWireWr (reg : Reg7) (val : Byte) (s : State) : Host.Outcome State Fault Refusal :=
  .next (chipWrite s.env.unitPos reg val s)

/-- WIRE_RD: the chip latches the address for the next transaction; its dummy byte means nothing (20_memory.md R99,
30_encoding.md R122). -/
def execWireRd (reg : Reg7) (_dummy : Byte) (s : State) : Host.Outcome State Fault Refusal :=
  .next (chipLatch s.env.unitPos reg s)

end Sys2Proof.Machine
end

