-- ==== Sys2Proof/Machine/Dispatch.lean ====
section
/-! DEFINITION. One arm for each instruction. -/

namespace Sys2Proof.Machine

def exec (i : Instr) (s : State) : Host.Outcome State Fault Refusal :=
  match i with
  | .nop dev a b => Sys2Proof.Machine.execNop dev a b s
  | .write dev reg b val => Sys2Proof.Machine.execWrite dev reg b val s
  | .read dev reg b => Sys2Proof.Machine.execRead dev reg b s
  | .setPw dev slot color duty => Sys2Proof.Machine.execSetPw dev slot color duty s
  | .setGain dev slot color intensity => Sys2Proof.Machine.execSetGain dev slot color intensity s
  | .clearCh dev a b => Sys2Proof.Machine.execClearCh dev a b s
  | .clearAll dev a b => Sys2Proof.Machine.execClearAll dev a b s
  | .engStart dev a b => Sys2Proof.Machine.execEngStart dev a b s
  | .engStop dev a b => Sys2Proof.Machine.execEngStop dev a b s
  | .qTherm dev a b => Sys2Proof.Machine.execQTherm dev a b s
  | .qErr dev a b => Sys2Proof.Machine.execQErr dev a b s
  | .reservedOp op dev a b => Sys2Proof.Machine.execReservedOp op dev a b s
  | .tickUpdate => Sys2Proof.Machine.execTickUpdate s
  | .spawn => Sys2Proof.Machine.execSpawn s
  | .wireNop => Sys2Proof.Machine.execWireNop s
  | .wireWr reg val => Sys2Proof.Machine.execWireWr reg val s
  | .wireRd reg dummy => Sys2Proof.Machine.execWireRd reg dummy s

end Sys2Proof.Machine
end

