-- ==== Sys2Proof/Machine/Flags.lean ====
section
/-! DEFINITION. The STATUS register: its fields, how they read, and how its sticky bits are set and cleared
(10_state.md R35, 60_exceptions.md R301, R304). -/

namespace Sys2Proof.Machine

/-- The four bits STATUS.ERR of an error code (60_exceptions.md R301). -/
def errorBits : ErrorCode → BitVec 4
  | .ok => 0
  | .opcode => 1
  | .rsvd => 2
  | .range => 3
  | .arg => 4
  | .numeric => 5
  | .config => 6

/-- STATUS as the host reads it: [31:12] 0, ERR [11:8], [7:6] 0, ACC_ERR, CMD_OVR, TICK_OVR, TICK_PEND, RUNNING, BUSY
(10_state.md R35). -/
def statusWord (s : State) : Word :=
  0#20 ++ errorBits s.window.err ++ 0#2 ++ BitVec.ofBool s.window.accErr ++ BitVec.ofBool s.window.cmdOvr ++
    BitVec.ofBool s.window.tickOvr ++ BitVec.ofBool s.engine.tickPending ++ BitVec.ofBool s.engine.running ++
    BitVec.ofBool s.window.cmdValid

/-- STATUS.TICK_OVR <- 1 (60_exceptions.md R307). -/
def State.setTickOvr (s : State) : State := { s with window := { s.window with tickOvr := true } }

/-- STATUS.CMD_OVR <- 1 (10_state.md R45). -/
def State.setCmdOvr (s : State) : State := { s with window := { s.window with cmdOvr := true } }

/-- STATUS.ACC_ERR <- 1 (20_memory.md R84). -/
def State.setAccErr (s : State) : State := { s with window := { s.window with accErr := true } }

/-- A host write of STATUS: a 1 in bit 3, 4 or 5 clears that sticky bit, and nothing else happens (10_state.md R35,
60_exceptions.md R304). -/
def State.clearSticky (s : State) (w : Word) : State :=
  { s with window := { s.window with
      tickOvr := s.window.tickOvr && !w.getLsbD 3
      cmdOvr := s.window.cmdOvr && !w.getLsbD 4
      accErr := s.window.accErr && !w.getLsbD 5 } }

end Sys2Proof.Machine
end

