-- ==== Sys2Proof/Machine/HostWindow.lean ====
section
/-! DEFINITION. The host window: its map, its reads and its writes (20_memory.md R81-R86), the issue of a command
(10_state.md R45), and the other events outside the block: a tick (60_exceptions.md R306) and reset
(70_reset_and_hazards.md R340, R341). -/

namespace Sys2Proof.Machine

/-- A legal access is a 4-byte access at a multiple of 4 (20_memory.md R83, R84). -/
def accessLegal (off : BitVec 12) (size : AccessSize) : Bool := size == .four && off.toNat % 4 == 0

/-- ID: SPAWN_DEN, POOL_CAP, N (10_state.md R41). -/
def idWord (p : Params) : Word := BitVec.ofNat 16 spawnDen ++ BitVec.ofNat 8 p.poolCap ++ BitVec.ofNat 8 p.n

/-- The coefficient at place k of a color table, k = 0 (R) to 3 (IR) (10_state.md R43). -/
def colorAt (c : PerColor) (k : Nat) : F32 := colorOf c (BitVec.ofNat 8 k)

/-- What the register at an offset reads as; a reserved offset reads 0 (20_memory.md R82). -/
def windowReg (off : Nat) (s : State) : Word :=
  if off = 0x000 then s.window.cmdWord
  else if off = 0x004 then s.window.arg
  else if off = 0x008 then statusWord s
  else if off = 0x00C then s.window.result
  else if off = 0x010 then s.window.cfgTick
  else if off = 0x014 then s.window.cfgSpawnK.setWidth 32
  else if off = 0x018 then s.window.cfgSlots.setWidth 32
  else if off = 0x01C then s.window.cfgRext
  else if off = 0x020 then idWord s.par
  else if off = 0x024 then s.par.maxi
  else if 0x040 ≤ off ∧ off < 0x060 then
    if off % 8 = 0 then colorAt s.par.calA ((off - 0x040) / 8)
    else if off % 8 = 4 then colorAt s.par.calB ((off - 0x040) / 8)
    else 0#32
  else if 0x100 ≤ off ∧ off < 0x100 + 4 * s.par.n ∧ off % 4 = 0 then (rxAt s ((off - 0x100) / 4)).setWidth 32
  else 0#32

/-- A command is issued, or dropped with CMD_OVR while one is pending (10_state.md R45). -/
def issueCommand (w : Word) (s : State) : State :=
  if s.window.cmdValid then s.setCmdOvr
  else { s with window := { s.window with cmdWord := w, cmdArg := s.window.arg, cmdValid := true } }

/-- A write of the register at an offset: its writable bits; a read-only register and a reserved offset ignore it
(20_memory.md R82, R83). -/
def windowWrite (off : Nat) (w : Word) (s : State) : State :=
  if off = 0x000 then issueCommand w s
  else if off = 0x004 then { s with window := { s.window with arg := w } }
  else if off = 0x008 then s.clearSticky w
  else if off = 0x010 then { s with window := { s.window with cfgTick := w } }
  else if off = 0x014 then { s with window := { s.window with cfgSpawnK := w.setWidth 16 } }
  else if off = 0x018 then { s with window := { s.window with cfgSlots := w.setWidth 8 } }
  else if off = 0x01C then { s with window := { s.window with cfgRext := w } }
  else s

/-- What a host read returned. -/
def State.setReadData (s : State) (w : Word) : State := { s with env := { s.env with readData := w } }

/-- MemRead: an illegal one returns 0 and sets ACC_ERR (20_memory.md R83, R84). -/
def hostRead (off : BitVec 12) (size : AccessSize) (s : State) : State :=
  if accessLegal off size then s.setReadData (windowReg off.toNat s) else s.setAccErr.setReadData 0#32

/-- MemWrite: an illegal one changes no register and sets ACC_ERR (20_memory.md R83, R84). -/
def hostWrite (off : BitVec 12) (size : AccessSize) (w : Word) (s : State) : State :=
  if accessLegal off size then windowWrite off.toNat w s else s.setAccErr

/-- A tick arrives: ignored while stopped, merged while one is pending, else pending (60_exceptions.md R306-R308). -/
def tickArrives (s : State) : State :=
  if !s.engine.running then s
  else if s.engine.tickPending then s.setTickOvr
  else s.setTickPending true

/-- What a model of the chain keeps over a reset: nothing is sent, so the chips keep everything (70_reset_and_hazards.md
R342), unless the reset cuts a transaction in flight, when the select line is still asserted; then every chip register is
unknown, a new free value (R341, log 9). -/
def envAfterReset (s : State) : Env :=
  if s.transport.sel then { s.env with chips := s.env.chips.cut, latch := List.replicate s.par.n none } else s.env

/-- Reset: every item of 10_state.md R30 takes its value of R58, in one step (70_reset_and_hazards.md R340). -/
def resetBlock (s : State) : State where
  par := s.par
  window := Window.reset
  transport := Transport.reset s.par.n
  seq := .idle
  engine := Engine.reset s.par.poolCap
  env := envAfterReset s

end Sys2Proof.Machine
end

