-- ==== Sys2Proof/Machine/Fetch.lean ====
section
/-! DEFINITION. What the next step is: the next outside event, or the operation the sequencer chooses (10_state.md R46,
20_memory.md R93), and how an instruction is placed where the next step takes it. -/

namespace Sys2Proof.Machine

/-- What a step does: it runs an instruction from a state, or it only moves to a state. -/
inductive Turn where
  | run (i : Instr) (s : State)
  | stay (s : State)
deriving DecidableEq, Repr

/-- The sequencer's choice: a pending tick while running, then an accepted command, else IDLE. In an operation that
hung it has none (10_state.md R46, 60_exceptions.md R309, R313). -/
def sequencerTurn (s : State) : Turn :=
  match s.seq with
  | .exec _ => .stay s
  | .idle =>
    if s.engine.running && s.engine.tickPending then .run .tickUpdate s
    else if s.window.cmdValid then .run (decodeCommand s.window.cmdWord s.window.cmdArg) s
    else .stay s

/-- What an event does. -/
def eventTurn (e : Event) (s : State) : Turn :=
  match e with
  | .hostRead off size => .stay (hostRead off size s)
  | .hostWrite off size w => .stay (hostWrite off size w s)
  | .tick => .stay (tickArrives s)
  | .reset => .stay (resetBlock s)
  | .turn => sequencerTurn s
  | .hang k => .stay (s.setHang (some k))
  | .wireUnit p u => .run (decodeUnit u) { s with env := { s.env with unitPos := p } }

/-- The next outside event is over. -/
def State.setEvents (s : State) (l : List Event) : State := { s with env := { s.env with events := l } }

/-- The next turn: the next event of the queue; with an empty queue it is the sequencer's (log 2). -/
def nextTurn (s : State) : Turn :=
  match s.env.events with
  | e :: l => eventTurn e (s.setEvents l)
  | [] => sequencerTurn s

/-- The state with an instruction's words where the next step takes them: a command in the command slot, with the
sequencer free to take it (no event before it, no tick pending in a running engine); a unit as the next event, at
position 0 (log 16). -/
def placeWords (s : State) : Words → State
  | .command cmd arg =>
    { s with
      window := { s.window with cmdWord := cmd, cmdArg := arg, cmdValid := true }
      seq := .idle
      engine := { s.engine with tickPending := s.engine.tickPending && !s.engine.running }
      env := { s.env with events := [] } }
  | .wireUnit u => s.setEvents [.wireUnit 0 u]

end Sys2Proof.Machine
end

