-- ==== Sys2Proof/Machine/Step.lean ====
section
/-! DEFINITION. One step of the machine. -/

namespace Sys2Proof.Machine

/-- One step: the next turn's instruction is run, or the turn is only an event's effect (20_memory.md R93). -/
def step (s : State) : Host.Outcome State Fault Refusal :=
  match nextTurn s with
  | .run i t => exec i t
  | .stay t => .next t

/-- `s` with the instruction whose bits are `w` stored where the next step takes it. A bit string that is no
instruction is not stored. -/
def State.withFetchWord (s : State) (nbits w : Nat) : State :=
  match wordsOfBits nbits w with
  | .ok ws => placeWords s ws
  | .error _ => s

end Sys2Proof.Machine
end

