-- ==== Sys2Proof/Safety.lean ====
section
/-! DEFINITION. What the claims speak of: the frames of the wire as the spec lists them (30_encoding.md R123), what a
transaction leaves when every bus primitive completes, the reset values (10_state.md R58), and the invariant of the
machine (10_state.md R51, R54, R55). -/

namespace Sys2Proof.Machine

/-! ### Frames on the wire (30_encoding.md R123) -/

/-- One select bracket of 2·n bytes, the units in ascending order of position (20_memory.md R90). -/
def frame (n : Nat) (unit : Nat → Byte × Byte) : List BusEvent :=
  BusEvent.selAssert ::
    ((List.range n).flatMap fun i => [BusEvent.xfer (unit i).1, BusEvent.xfer (unit i).2]) ++ [BusEvent.selDeassert]

/-- The write frame for (d, r, v): the write unit at d, the no-op unit elsewhere. -/
def writeFrame (n d : Nat) (r v : Byte) : List BusEvent :=
  frame n fun i => if i = d then (r <<< 1, v) else (0xFF#8, 0xFF#8)

/-- The first burst of a read of r: the read unit at every position. -/
def readFrame (n : Nat) (r : Byte) : List BusEvent := frame n fun _ => ((r <<< 1) ||| 1#8, 0xFF#8)

/-- The second burst of a read: 2·n bytes of 0xFF. -/
def idleFrame (n : Nat) : List BusEvent := frame n fun _ => (0xFF#8, 0xFF#8)

/-! ### The register addresses of the legal pairs (the tables of 41_channel_map.md R183) -/

/-- The duty register of (slot, color). -/
def dutyAddr (slot color : Nat) : Byte :=
  (([[0x17#8, 0x16#8, 0x15#8], [0x14#8, 0x13#8, 0x12#8], [0x11#8, 0x10#8, 0x0F#8], [0x0E#8, 0x0D#8, 0x0C#8],
    [0x0B#8, 0x0A#8, 0x09#8, 0x08#8]] : List (List Byte)).getD slot []).getD color 0#8

/-- The gain register of (slot, color). -/
def gainAddr (slot color : Nat) : Byte :=
  (([[0x27#8, 0x26#8, 0x25#8], [0x24#8, 0x23#8, 0x22#8], [0x21#8, 0x20#8, 0x1F#8], [0x1E#8, 0x1D#8, 0x1C#8],
    [0x1B#8, 0x1A#8, 0x19#8, 0x18#8]] : List (List Byte)).getD slot []).getD color 0#8

/-! ### What an operation leaves when every bus primitive completes -/

/-- Every bus primitive completes (00_scope.md R14): none hangs. -/
abbrev BusCompletes (s : State) : Prop := s.env.hangIn = none

/-- The byte the environment answers to the k-th Xfer from here (log 3). -/
def answerAt (s : State) (k : Nat) : Byte := (s.env.busIn[k]?).getD (Config.busByte (s.env.xfers + k))

/-- The second byte received for position i in the second burst of a read of r from here: the reference chain's reply where
it has one, else the environment's (40_transport.md R152, 20_memory.md R99). -/
def readAnswer (s : State) (r : Byte) (i : Nat) : Byte :=
  (regReply s i r.toNat).getD (answerAt s (2 * s.par.n + (2 * i + 1)))

/-- What WriteTxn(d, r, v) leaves (40_transport.md R151, 20_memory.md R99): the staging buffers hold the write frame,
the frame has been sent, 2·n answers have been discarded, the chip at d has stored the byte, and no chip has a latched
address. Everything else is as before. -/
def State.wrote (s : State) (d : Nat) (r v : Byte) : State :=
  { s with
    transport :=
      { s.transport with
        instr := (List.replicate s.par.n 0xFF#8).set d (r <<< 1)
        data := (List.replicate s.par.n 0xFF#8).set d v
        sel := false }
    env :=
      { s.env with
        trace := s.env.trace ++ writeFrame s.par.n d r v
        busIn := s.env.busIn.drop (2 * s.par.n)
        xfers := s.env.xfers + 2 * s.par.n
        chips := chipStore s.env.chips d (r.setWidth 7) v
        latch := List.replicate s.par.n none
        beat := 2 * s.par.n } }

/-- What ReadTxn(r) leaves (40_transport.md R152): two frames have been sent, rx[i] is the second byte received for
position i in the second one, and the staging buffers are all 0xFF. Everything else is as before. -/
def State.hasRead (s : State) (r : Byte) : State :=
  { s with
    transport :=
      { instr := List.replicate s.par.n 0xFF#8
        data := List.replicate s.par.n 0xFF#8
        rx := (List.range s.par.n).map (readAnswer s r)
        sel := false }
    env :=
      { s.env with
        trace := s.env.trace ++ readFrame s.par.n r ++ idleFrame s.par.n
        busIn := s.env.busIn.drop (4 * s.par.n)
        xfers := s.env.xfers + 4 * s.par.n
        latch := List.replicate s.par.n none
        beat := 2 * s.par.n } }

/-- What PushRGB leaves: three writes, red, green, blue (41_channel_map.md R185). -/
def State.pushed (s : State) (d slot : Nat) (r g b : Byte) : State :=
  ((s.wrote d (dutyAddr slot 0) r).wrote d (dutyAddr slot 1) g).wrote d (dutyAddr slot 2) b

/-- What a tick update leaves of an active slot j, whose value with t advanced is `x`: the color pushed, and where it is
dark, black pushed and the slot inactive (42_twinkle.md R240). -/
def State.ticked (m : MathPair) (s : State) (j : Nat) (x : Slot) : State :=
  let f := slotFactor m x
  let r := slotColor x.baseR f
  let g := slotColor x.baseG f
  let b := slotColor x.baseB f
  let t := s.pushed x.dev.toNat x.led.toNat r g b
  if r ≤ 1#8 ∧ g ≤ 1#8 ∧ b ≤ 1#8 ∧ f32Lt x.tmax x.t = true then
    (t.pushed x.dev.toNat x.led.toNat 0#8 0#8 0#8).setSlot j inactiveSlot
  else t.setSlot j x

/-- What a tick update leaves of slot j: an inactive one is skipped (42_twinkle.md R240). -/
def State.tickedSlot (m : MathPair) (s : State) (j : Nat) : State :=
  if (slotAt s j).active then
    s.ticked m j { slotAt s j with t := f32Add (slotAt s j).t s.engine.actT }
  else s

/-- What ENG_STOP leaves of slot j: an active one is blacked and cleared (42_twinkle.md R233). -/
def State.stoppedSlot (s : State) (j : Nat) : State :=
  if (slotAt s j).active then
    (s.pushed (slotAt s j).dev.toNat (slotAt s j).led.toNat 0#8 0#8 0#8).setSlot j inactiveSlot
  else s

/-! ### Reset -/

/-- Every item of state holds the value the table of 10_state.md R58 gives it, in the order of the table. -/
structure HoldsResetValues (t : State) : Prop where
  cmdWord : t.window.cmdWord = 0x00000000#32
  arg : t.window.arg = 0x00000000#32
  status : statusWord t = 0x00000000#32
  result : t.window.result = 0x00000000#32
  cfgTick : t.window.cfgTick = 0x00000000#32
  cfgSpawnK : t.window.cfgSpawnK = 0x0000#16
  cfgSlots : t.window.cfgSlots = 0x00#8
  cfgRext : t.window.cfgRext = 0x00000000#32
  rx : t.transport.rx = List.replicate t.par.n 0x00#8
  cmdValid : t.window.cmdValid = false
  cmdArg : t.window.cmdArg = 0x00000000#32
  sequencer : t.seq = .idle
  tickPending : t.engine.tickPending = false
  running : t.engine.running = false
  actT : t.engine.actT = 0x00000000#32
  actK : t.engine.actK = 0x0000#16
  actS : t.engine.actS = 0x00#8
  instr : t.transport.instr = List.replicate t.par.n 0xFF#8
  data : t.transport.data = List.replicate t.par.n 0xFF#8
  slots : t.engine.slots = List.replicate t.par.poolCap inactiveSlot
  sel : t.transport.sel = false
  tickPeriodOut : t.engine.tickPeriodOut = 0x00000000#32
  tickEnableOut : t.engine.tickEnableOut = false

/-! ### The invariant -/

/-- Every buffer has one entry for each position, and the pool one for each slot (10_state.md R51 (a), R52). -/
structure Shaped (s : State) : Prop where
  instr : s.transport.instr.length = s.par.n
  data : s.transport.data.length = s.par.n
  rx : s.transport.rx.length = s.par.n
  slots : s.engine.slots.length = s.par.poolCap
  latch : s.env.latch.length = s.par.n

/-- A slot of a block with parameters `p`: inactive, or what 10_state.md R52 and R54 (d) say of an active one. -/
structure SlotGood (p : Params) (x : Slot) : Prop where
  inactive : x.active = false → x = inactiveSlot
  dev : x.active = true → x.dev.toNat < p.n
  led : x.active = true → x.led.toNat < 5
  ratesPos : x.active = true → f32Lt f32Zero x.a0 = true
  ratesOrder : x.active = true → f32Lt x.a0 x.a1 = true
  tmaxFinite : x.active = true → f32IsFinite x.tmax = true
  scaleFinite : x.active = true → f32IsFinite x.scale = true
  scalePos : x.active = true → f32Lt f32Zero x.scale = true

/-- The invariants of the pool (10_state.md R54), in its order; `bounded` and `stopped` say INACTIVE (R53). -/
structure PoolGood (s : State) : Prop where
  distinct : ∀ i j, i ≠ j → (slotAt s i).active = true → (slotAt s j).active = true →
    ¬((slotAt s i).dev = (slotAt s j).dev ∧ (slotAt s i).led = (slotAt s j).led)
  bounded : ∀ j, s.engine.actS.toNat ≤ j → slotAt s j = inactiveSlot
  stopped : s.engine.running = false → ∀ j, slotAt s j = inactiveSlot
  slots : ∀ j, SlotGood s.par (slotAt s j)

/-- What holds at reset and is kept by every step. -/
structure Inv (s : State) : Prop where
  /-- the constraints of 00_scope.md R8 -/
  params : paramsValid s.par = true
  shaped : Shaped s
  pool : PoolGood s
  /-- ENG_START's checks held of the active configuration (42_twinkle.md R230) -/
  spawnK : s.engine.actK.toNat ≤ spawnDen
  slotsInUse : s.engine.actS.toNat ≤ s.par.poolCap
  /-- a tick is pending only while running (10_state.md R47) -/
  tickRunning : s.engine.tickPending = true → s.engine.running = true
  /-- between operations the select line is deasserted (10_state.md R55) -/
  selIdle : s.seq = .idle → s.transport.sel = false
  /-- the chips' registers are in canonical form -/
  chips : Memory.wf s.env.chips.bytes = true

end Sys2Proof.Machine
end

