-- ==== Sys2Proof/Certificates/Slice0/Obligations.lean ====
section
/-! DEFINITION. The statements about the model. `exec i s = .next t` says that the instruction completes; where a
statement gives the whole state `t`, it gives its frame with it. -/

open Sys2Proof Sys2Proof.Machine

/-! ### Encoding -/

/-- Decoding the words of a well-formed instruction gives it back, with every operand (30_encoding.md R110-R124). -/
def Obligations.DecodeGivesTheEncodedInstruction : Prop :=
  ∀ i : Instr, i.wf = true → ∃ ws, encode i = some ws ∧ decode ws = i

/-- Every command word and every unit decodes to one well-formed instruction, whose encoding has that same CMD word, or
that same unit but for the data byte of a no-op unit, which tells nothing (30_encoding.md R115, R124; log 13). -/
def Obligations.EveryWordDecodesToOneInstruction : Prop :=
  (∀ ws, (decode ws).wf = true) ∧
  (∀ u, ∃ u', encode (decodeUnit u) = some (.wireUnit u') ∧ decodeUnit u' = decodeUnit u ∧
    unitInstr u' = unitInstr u ∧ (unitInstr u ≠ 0xFF#8 → u' = u)) ∧
  (∀ cmd arg, ∃ arg', encode (decodeCommand cmd arg) = some (.command cmd arg') ∧
    decodeCommand cmd arg' = decodeCommand cmd arg)

/-- Words written out from the opcode map and the unit encodings (95_test_vectors.md V-ENC, V-WR, V-RD, V-CH, V-Q); that the
unit FF 00, which stands in no table, is a no-op as FF FF is, is the model's reading of 30_encoding.md R124 (log 13). -/
def Obligations.WrittenOutWordsDecode : Prop :=
  decodeCommand 0x01010800#32 0x00000080#32 = .write 0x01#8 0x08#8 0x00#8 0x80#8 ∧
  decodeCommand 0x02004200#32 0x00000000#32 = .read 0x00#8 0x42#8 0x00#8 ∧
  decodeCommand 0x03010002#32 0xFFFFFF05#32 = .setPw 0x01#8 0x00#8 0x02#8 0x05#8 ∧
  decodeCommand 0x04000403#32 0x3F000000#32 = .setGain 0x00#8 0x04#8 0x03#8 0x3F000000#32 ∧
  decodeCommand 0x07000100#32 0x00000000#32 = .engStart 0x00#8 0x01#8 0x00#8 ∧
  decodeCommand 0x0A010000#32 0x00000000#32 = .qErr 0x01#8 0x00#8 0x00#8 ∧
  decodeCommand 0xFF000000#32 0x00000000#32 = .reservedOp 0xFF#8 0x00#8 0x00#8 0x00#8 ∧
  decodeUnit 0x4E80#16 = .wireWr 0x27#7 0x80#8 ∧ decodeUnit 0x85FF#16 = .wireRd 0x42#7 0xFF#8 ∧
  decodeUnit 0xFFFF#16 = .wireNop ∧ decodeUnit 0xFF00#16 = .wireNop

/-- 30_encoding.md R121: the no-op unit is 0xFF, 0xFF, whose instruction byte reads as REG 0x7F, RW 1; no instruction
byte built from an address up to 0x45 is 0xFF, and the largest is 0x8B. -/
def Obligations.NoBuiltInstructionByteIsTheSentinel : Prop :=
  decodeUnit 0xFFFF#16 = .wireNop ∧ unitReg 0xFFFF#16 = 0x7F#7 ∧ unitRw 0xFFFF#16 = true ∧
  instrByte 0x45#8 true = 0x8B#8 ∧
  ∀ r : Byte, r ≤ 0x45#8 → ∀ w : Bool, instrByte r w ≠ 0xFF#8 ∧ instrByte r w ≤ 0x8B#8

/-! ### Steps -/

/-- The sequencer's turn, by an empty queue or a turn in it (log 2): idle, it runs a pending tick update while running,
else an accepted command, else stays (10_state.md R46, 60_exceptions.md R309). -/
def Obligations.SequencerRunsTickThenCommand : Prop :=
  ∀ s t : State, ((s.env.events = [] ∧ t = s) ∨ ∃ l, s.env.events = .turn :: l ∧ t = s.setEvents l) → s.seq = .idle →
    ((s.engine.running = true ∧ s.engine.tickPending = true) → step s = exec .tickUpdate t) ∧
    (¬(s.engine.running = true ∧ s.engine.tickPending = true) → s.window.cmdValid = true →
      step s = exec (decodeCommand s.window.cmdWord s.window.cmdArg) t) ∧
    (¬(s.engine.running = true ∧ s.engine.tickPending = true) → s.window.cmdValid = false → step s = .next t)

/-- A unit that reaches a chip is executed as what it decodes to, at that position. The model's choice, log 15. -/
def Obligations.UnitEventRunsTheDecodedUnit : Prop :=
  ∀ (s : State) (p : Nat) (u : Unit16) (l : List Event), s.env.events = .wireUnit p u :: l →
    step s = exec (decodeUnit u) { s with env := { s.env with events := l, unitPos := p } }

/-- An instruction placed for the next step is the one the next step runs, on a state with the same parameters,
transport, pool, chips and trace (log 16). -/
def Obligations.PlacedInstructionRunsNext : Prop :=
  ∀ (s : State) (nbits w : Nat) (i : Instr), decodeTableWord nbits w = some i →
    ∃ t, step (s.withFetchWord nbits w) = exec i t ∧ t.par = s.par ∧ t.transport = s.transport ∧
      t.engine.slots = s.engine.slots ∧ t.env.chips = s.env.chips ∧ t.env.trace = s.env.trace

/-- An operation whose bus primitive never returned: the sequencer has no turn, no host access, tick or turn changes
the transport, the code, BUSY once set, or ends it, and a reset does (60_exceptions.md R313, 70_reset_and_hazards.md
R341; how a hang is modelled is log 8). -/
def Obligations.StuckOperationEndsOnlyByReset : Prop :=
  ∀ (s : State) (op : Instr), s.seq = .exec op →
    (s.env.events = [] → step s = .next s) ∧
    (∀ e l, s.env.events = e :: l → e ≠ .reset → (∀ p u, e ≠ .wireUnit p u) →
      ∃ t, step s = .next t ∧ t.seq = .exec op ∧ t.transport = s.transport ∧ t.window.err = s.window.err ∧
        (s.window.cmdValid = true → t.window.cmdValid = true)) ∧
    (∀ l, s.env.events = .reset :: l →
      ∃ t, step s = .next t ∧ t.seq = .idle ∧ t.transport.sel = false ∧ t.window.cmdValid = false)

/-! ### The host window -/

/-- A legal read answers the register's value, 0 at a reserved offset, and has no side effect (20_memory.md R82, R83,
R85; 10_state.md R33-R44). -/
def Obligations.HostReadReturnsTheRegister : Prop :=
  ∀ (s : State) (off : BitVec 12) (l : List Event), s.env.events = .hostRead off .four :: l → off.toNat % 4 = 0 →
    ∃ v, step s = .next ((s.setEvents l).setReadData v) ∧
      (off = 0x000#12 → v = s.window.cmdWord) ∧ (off = 0x004#12 → v = s.window.arg) ∧
      (off = 0x008#12 → v = statusWord s) ∧ (off = 0x00C#12 → v = s.window.result) ∧
      (off = 0x010#12 → v = s.window.cfgTick) ∧ (off = 0x014#12 → v = s.window.cfgSpawnK.setWidth 32) ∧
      (off = 0x018#12 → v = s.window.cfgSlots.setWidth 32) ∧ (off = 0x01C#12 → v = s.window.cfgRext) ∧
      (off = 0x020#12 → v = 0x03E8#16 ++ BitVec.ofNat 8 s.par.poolCap ++ BitVec.ofNat 8 s.par.n) ∧
      (off = 0x024#12 → v = s.par.maxi) ∧
      (off = 0x040#12 → v = s.par.calA.r) ∧ (off = 0x044#12 → v = s.par.calB.r) ∧
      (off = 0x048#12 → v = s.par.calA.g) ∧ (off = 0x04C#12 → v = s.par.calB.g) ∧
      (off = 0x050#12 → v = s.par.calA.b) ∧ (off = 0x054#12 → v = s.par.calB.b) ∧
      (off = 0x058#12 → v = s.par.calA.ir) ∧ (off = 0x05C#12 → v = s.par.calB.ir) ∧
      (∀ i, i < s.par.n → off.toNat = 0x100 + 4 * i → v = (rxAt s i).setWidth 32) ∧
      ((0x028 ≤ off.toNat ∧ off.toNat < 0x040) ∨ (0x060 ≤ off.toNat ∧ off.toNat < 0x100) ∨
        0x100 + 4 * s.par.n ≤ off.toNat → v = 0x00000000#32)

/-- 20_memory.md R84: an access of 1 or 2 bytes, or at no multiple of 4, changes no register but ACC_ERR, which it sets;
a read of this kind returns 0, and a write issues no command. -/
def Obligations.IllegalAccessOnlySetsAccErr : Prop :=
  ∀ (s : State) (off : BitVec 12) (size : AccessSize) (l : List Event), (size ≠ .four ∨ off.toNat % 4 ≠ 0) →
    (s.env.events = .hostRead off size :: l → step s = .next (((s.setEvents l).setReadData 0x00000000#32).setAccErr)) ∧
    (∀ w, s.env.events = .hostWrite off size w :: l → step s = .next ((s.setEvents l).setAccErr))

/-- A write of CMD issues the command with the ARG of that moment, or, while one is pending, only sets CMD_OVR
(10_state.md R45, R33, R34). -/
def Obligations.CommandWriteIssuesOrIsDropped : Prop :=
  ∀ (s : State) (w : Word) (l : List Event), s.env.events = .hostWrite 0x000#12 .four w :: l →
    (s.window.cmdValid = true →
      step s = .next { s.setEvents l with window := { s.window with cmdOvr := true } }) ∧
    (s.window.cmdValid = false →
      step s = .next { s.setEvents l with
        window := { s.window with cmdWord := w, cmdArg := s.window.arg, cmdValid := true } })

/-- A legal write of ARG or of a CFG register stores its writable bits and nothing else; a write of a read-only register
or of a reserved offset changes nothing (20_memory.md R82, R83; 10_state.md R34, R37-R40). -/
def Obligations.RegisterWritesOnlyStore : Prop :=
  ∀ (s : State) (off : BitVec 12) (w : Word) (l : List Event), s.env.events = .hostWrite off .four w :: l →
    off.toNat % 4 = 0 →
    (off = 0x004#12 → step s = .next { s.setEvents l with window := { s.window with arg := w } }) ∧
    (off = 0x010#12 → step s = .next { s.setEvents l with window := { s.window with cfgTick := w } }) ∧
    (off = 0x014#12 →
      step s = .next { s.setEvents l with window := { s.window with cfgSpawnK := w.extractLsb' 0 16 } }) ∧
    (off = 0x018#12 →
      step s = .next { s.setEvents l with window := { s.window with cfgSlots := w.extractLsb' 0 8 } }) ∧
    (off = 0x01C#12 → step s = .next { s.setEvents l with window := { s.window with cfgRext := w } }) ∧
    (off = 0x00C#12 ∨ 0x020 ≤ off.toNat → step s = .next (s.setEvents l))

/-- A write of STATUS clears the sticky bits written as 1 and changes nothing else (10_state.md R35, 60_exceptions.md
R304). -/
def Obligations.StatusWriteClearsStickyBits : Prop :=
  ∀ (s : State) (w : Word) (l : List Event), s.env.events = .hostWrite 0x008#12 .four w :: l →
    ∃ t, step s = .next t ∧
      t = { s.setEvents l with
        window := { s.window with
          tickOvr := t.window.tickOvr, cmdOvr := t.window.cmdOvr, accErr := t.window.accErr } } ∧
      (t.window.tickOvr = true ↔ s.window.tickOvr = true ∧ w.getLsbD 3 = false) ∧
      (t.window.cmdOvr = true ↔ s.window.cmdOvr = true ∧ w.getLsbD 4 = false) ∧
      (t.window.accErr = true ↔ s.window.accErr = true ∧ w.getLsbD 5 = false)

/-- The fields of STATUS (10_state.md R35, 60_exceptions.md R301). -/
def Obligations.StatusShowsItsFields : Prop :=
  ∀ s : State, (statusWord s).getLsbD 0 = s.window.cmdValid ∧ (statusWord s).getLsbD 1 = s.engine.running ∧
    (statusWord s).getLsbD 2 = s.engine.tickPending ∧ (statusWord s).getLsbD 3 = s.window.tickOvr ∧
    (statusWord s).getLsbD 4 = s.window.cmdOvr ∧ (statusWord s).getLsbD 5 = s.window.accErr ∧
    (statusWord s).extractLsb' 6 2 = 0#2 ∧ (statusWord s).extractLsb' 12 20 = 0#20 ∧
    (statusWord s).extractLsb' 8 4 =
      (match s.window.err with
        | .ok => 0#4 | .opcode => 1#4 | .rsvd => 2#4 | .range => 3#4 | .arg => 4#4 | .numeric => 5#4 | .config => 6#4)

/-! ### The tick input and reset -/

/-- 60_exceptions.md R308: a tick while running = 0 has no effect at all. -/
def Obligations.TickWhileStoppedHasNoEffect : Prop :=
  ∀ (s : State) (l : List Event), s.env.events = .tick :: l → s.engine.running = false →
    step s = .next (s.setEvents l)

/-- While running, a tick becomes pending, or merges into the pending one and sets TICK_OVR (60_exceptions.md R306,
R307). -/
def Obligations.TickWhileRunningIsPendingOrMerged : Prop :=
  ∀ (s : State) (l : List Event), s.env.events = .tick :: l → s.engine.running = true →
    (s.engine.tickPending = false →
      step s = .next { s.setEvents l with engine := { s.engine with tickPending := true } }) ∧
    (s.engine.tickPending = true →
      step s = .next { s.setEvents l with window := { s.window with tickOvr := true } })

/-- 10_state.md R58: in `State.reset`, and after the reset event, every item holds the value of the table; the reset
event keeps the parameters, and with them the constant registers. -/
def Obligations.ResetGivesEveryItemItsValue : Prop :=
  HoldsResetValues State.reset ∧
  ∀ (s : State) (l : List Event), s.env.events = .reset :: l →
    ∃ t, step s = .next t ∧ HoldsResetValues t ∧ t.par = s.par

/-- The reset event keeps the parameters and sends nothing; it leaves the chips as they are, but for a reset that cuts a
transaction in flight (the select line is asserted), after which every register holds a new free value
(70_reset_and_hazards.md R341, R342; that sel tells it is log 9, the free value is log 10). -/
def Obligations.ResetLeavesTheChain : Prop :=
  ∀ (s : State) (l : List Event), s.env.events = .reset :: l →
    ∃ t, step s = .next t ∧ t.par = s.par ∧ t.env.events = l ∧ t.env.trace = s.env.trace ∧
      (s.transport.sel = false → t.env = (s.setEvents l).env) ∧
      (s.transport.sel = true →
        ∀ p a, chipReg t p a = Config.unknownReg (s.env.chips.cuts + 1) (chipKey p a))

/-! ### The register transport -/

/-- NOP sends nothing and changes only STATUS.ERR and cmd_valid, ending OK, or ERR_RSVD for a non-zero field
(40_transport.md R155). -/
def Obligations.NopOnlyEndsTheCommand : Prop :=
  ∀ (s : State) (d a b : Byte),
    exec (.nop d a b) s = .next (s.endCommand (if d = 0#8 ∧ a = 0#8 ∧ b = 0#8 then .ok else .rsvd))

/-- 30_encoding.md R114: a command with an OP of 0x0B to 0xFF fails with ERR_OPCODE, whatever its fields, and nothing
else changes. -/
def Obligations.ReservedOpcodeFails : Prop :=
  ∀ (cmd arg : Word) (s : State), 0x0B#8 ≤ opField cmd →
    exec (decodeCommand cmd arg) s = .next (s.endCommand .opcode)

/-- A command with a non-zero field that its opcode does not use ends ERR_RSVD; one with clear fields and an operand out
of range ends ERR_RANGE; nothing else changes (30_encoding.md R112, R117; 60_exceptions.md R302, R303). -/
def Obligations.FailingOperandChecksOnlyEndTheCommand : Prop :=
  ∀ (i : Instr) (s : State), (∃ cmd arg, encode i = some (.command cmd arg)) →
    (i.reservedClear = false → exec i s = .next (s.endCommand .rsvd)) ∧
    (i.reservedClear = true → i.inRange s.par.n = false → exec i s = .next (s.endCommand .range))

/-- WRITE sends one write frame, the chip at d stores the byte, and the command ends OK; rx, RESULT, the engine and
everything else are as before (40_transport.md R151, R160). -/
def Obligations.WriteSendsOneFrame : Prop :=
  ∀ (s : State) (d r v : Byte), BusCompletes s → Shaped s → d.toNat < s.par.n → r ≤ 0x45#8 →
    exec (.write d r 0x00#8 v) s = .next ((s.wrote d.toNat r v).endCommand .ok)

/-- What a WRITE does to the chips: the addressed register holds the byte, and every other register reads as before,
but for those a broadcast register reaches (20_memory.md R99, 93 I26, log 12). -/
def Obligations.WriteStoresAtOneChipRegister : Prop :=
  ∀ (s : State) (d r v : Byte), BusCompletes s → Shaped s → d.toNat < s.par.n → r ≤ 0x45#8 →
    ∃ t, exec (.write d r 0x00#8 v) s = .next t ∧ chipReg t d.toNat r.toNat = v ∧
      ∀ p a, a < 128 → (p, a) ≠ (d.toNat, r.toNat) →
        (p = d.toNat → ¬(r = 0x40#8 ∧ 0x08 ≤ a ∧ a ≤ 0x17) ∧ ¬(r = 0x41#8 ∧ 0x18 ≤ a ∧ a ≤ 0x27)) →
        chipReg t p a = chipReg s p a

/-- A WRITE whose bus primitive number k never returns: the calls up to it are on the trace, the buffers are staged, no
chip has taken its unit, and the command neither ends nor fails. One whose hang lies beyond its frame completes
(60_exceptions.md R313; 10_state.md R51 (b); how a hang is modelled is log 8). -/
def Obligations.WriteHangsAtAnyPrimitive : Prop :=
  ∀ (s : State) (d r v : Byte) (k : Nat), s.env.hangIn = some k → Shaped s → d.toNat < s.par.n → r ≤ 0x45#8 →
    (k < 2 * s.par.n + 2 →
      ∃ t, exec (.write d r 0x00#8 v) s = .next t ∧ t.seq = .exec (.write d r 0x00#8 v) ∧ t.par = s.par ∧
        t.window = s.window ∧ t.engine = s.engine ∧ t.transport.rx = s.transport.rx ∧
        t.transport.instr = (List.replicate s.par.n 0xFF#8).set d.toNat (r <<< 1) ∧
        t.transport.data = (List.replicate s.par.n 0xFF#8).set d.toNat v ∧
        (0 < k → t.transport.sel = true) ∧ t.env.chips = s.env.chips ∧ t.env.latch = s.env.latch ∧
        t.env.hangIn = none ∧ t.env.trace = s.env.trace ++ (writeFrame s.par.n d.toNat r v).take (k + 1)) ∧
    (2 * s.par.n + 2 ≤ k →
      exec (.write d r 0x00#8 v) s =
        .next (((s.wrote d.toNat r v).setHang (some (k - (2 * s.par.n + 2)))).endCommand .ok))

/-- READ sends its two frames, rx[i] is the second byte received for position i in the second (the environment's answer, or
the reference chain's where that is a premise of the state), and the command ends OK; RESULT, the chips' registers, the
engine and everything else are as before (40_transport.md R152, R170; 20_memory.md R99). -/
def Obligations.ReadCapturesTheSecondBytes : Prop :=
  ∀ (s : State) (r : Byte), BusCompletes s → Shaped s → r ≤ 0x45#8 →
    exec (.read 0x00#8 r 0x00#8) s = .next ((s.hasRead r).endCommand .ok)

/-- A READ after a WRITE of a duty or gain register: the register of the written device holds the byte written, and the
READ returns what the register of a position holds wherever the chain answers as the reference chain does (`refChain`, or
an answer that agrees with it), and so the byte written (20_memory.md R99, as a premise; 40_transport.md R151, R152). -/
def Obligations.ReadAfterWriteReturnsTheByte : Prop :=
  ∀ (s : State) (d r v : Byte), BusCompletes s → Shaped s → d.toNat < s.par.n → 0x08#8 ≤ r → r ≤ 0x27#8 →
    ∃ t u, exec (.write d r 0x00#8 v) s = .next t ∧ exec (.read 0x00#8 r 0x00#8) t = .next u ∧
      chipReg t d.toNat r.toNat = v ∧
      (∀ i, i < s.par.n →
        s.env.refChain = true ∨ answerAt t (2 * s.par.n + (2 * i + 1)) = chipReg t i r.toNat →
        rxAt u i = chipReg t i r.toNat) ∧
      (s.env.refChain = true ∨ answerAt t (2 * s.par.n + (2 * d.toNat + 1)) = v → rxAt u d.toNat = v)

/-- On the reference chain a READ of a duty or gain register returns the byte each device holds, and a second READ returns
the same, whether or not anything has ever been written there; neither changes a register (20_memory.md R99, as a premise;
40_transport.md R152). -/
def Obligations.ReadsOnTheReferenceChainAgree : Prop :=
  ∀ (s : State) (r : Byte), BusCompletes s → Shaped s → s.env.refChain = true → 0x08#8 ≤ r → r ≤ 0x27#8 →
    ∃ t u, exec (.read 0x00#8 r 0x00#8) s = .next t ∧ exec (.read 0x00#8 r 0x00#8) t = .next u ∧
      (∀ i, i < s.par.n → rxAt t i = chipReg s i r.toNat) ∧ u.transport.rx = t.transport.rx ∧
      t.env.chips = s.env.chips ∧ u.env.chips = s.env.chips

/-- Only READ, Q_THERM and Q_ERR write rx, whether or not they end (10_state.md R44). -/
def Obligations.OnlyReadTransactionsWriteRx : Prop :=
  ∀ (i : Instr) (s t : State), exec i s = .next t → (∀ d r b, i ≠ .read d r b) → (∀ d a b, i ≠ .qTherm d a b) →
    (∀ d a b, i ≠ .qErr d a b) → t.transport.rx = s.transport.rx

/-- What the chain answers reaches nothing but the read commands: any other instruction leaves the same state, but for
the answers still to come, whatever they are, and whether or not the chain answers as the reference chain (00_scope.md
R14, 40_transport.md R151, 20_memory.md R99). -/
def Obligations.BusAnswersReachOnlyReadCommands : Prop :=
  ∀ (i : Instr) (s : State) (bytes : List Byte) (ref : Bool), (∀ d r b, i ≠ .read d r b) → (∀ d a b, i ≠ .qTherm d a b) →
    (∀ d a b, i ≠ .qErr d a b) →
    ∃ t u, exec i s = .next t ∧ exec i { s with env := { s.env with busIn := bytes, refChain := ref } } = .next u ∧
      u = { t with env := { t.env with busIn := u.env.busIn, refChain := ref } }

/-! ### The channel map and the calibration -/

/-- The channel map: on the legal pairs ChanOff gives the table of 41_channel_map.md R181, so that each of the sixteen
channels is reached by exactly one pair, and the duty and gain registers are those of R183. -/
def Obligations.EachChannelHasOneLegalPair : Prop :=
  (∀ k, k < 16 → ∃ s c : Byte, legalPair s c = true ∧ chanOff s.toNat c.toNat = k ∧
    ∀ s' c' : Byte, legalPair s' c' = true → chanOff s'.toNat c'.toNat = k → s' = s ∧ c' = c) ∧
  ∀ s c : Byte, legalPair s c = true → chanOff s.toNat c.toNat + 3 * s.toNat + c.toNat = 15 ∧
    pwmReg (chanOff s.toNat c.toNat) = dutyAddr s.toNat c.toNat ∧
    irefReg (chanOff s.toNat c.toNat) = gainAddr s.toNat c.toNat

/-- SET_PW is one write of the duty byte to the duty register of the legal pair; it ends OK (41_channel_map.md R184,
R190). -/
def Obligations.SetPwWritesTheDutyRegister : Prop :=
  ∀ (s : State) (d slot color v : Byte), BusCompletes s → Shaped s → d.toNat < s.par.n → legalPair slot color = true →
    exec (.setPw d slot color v) s = .next ((s.wrote d.toNat (dutyAddr slot.toNat color.toNat) v).endCommand .ok)

/-- SET_GAIN with an intensity that is no NaN: the code Calibrate computes goes to the gain register of the legal pair
and to RESULT, or, where Calibrate fails, the command ends ERR_NUMERIC and nothing else changes; a NaN ends it ERR_ARG
(41_channel_map.md R187, R192). -/
def Obligations.SetGainWritesTheCode : Prop :=
  ∀ (s : State) (d slot color : Byte) (f : F32), BusCompletes s → Shaped s → d.toNat < s.par.n →
    legalPair slot color = true →
    (f32IsNaN f = true → exec (.setGain d slot color f) s = .next (s.endCommand .arg)) ∧
    (f32IsNaN f = false → calibrate s.par color f s.window.cfgRext = none →
      exec (.setGain d slot color f) s = .next (s.endCommand .numeric)) ∧
    (∀ q, f32IsNaN f = false → calibrate s.par color f s.window.cfgRext = some q →
      exec (.setGain d slot color f) s =
        .next (((s.wrote d.toNat (gainAddr slot.toNat color.toNat) q).setResult (q.setWidth 32)).endCommand .ok))

/-- Clamp takes every intensity that is no NaN into [0, MAXI], and leaves one that is in it (41_channel_map.md R186). -/
def Obligations.ClampLandsInRange : Prop :=
  ∀ (maxi i : F32), f32Lt f32Zero maxi = true → f32IsNaN i = false →
    f32Le f32Zero (clampIntensity maxi i) = true ∧ f32Le (clampIntensity maxi i) maxi = true ∧
    (f32Le f32Zero i = true → f32Le i maxi = true → clampIntensity maxi i = i) ∧
    (f32Lt i f32Zero = true → clampIntensity maxi i = 0x00000000#32) ∧
    (f32Lt maxi i = true → clampIntensity maxi i = maxi)

/-- Once x is an infinity or a NaN it stays non-finite through every later Newton step, and the calibration gives no
code (41_channel_map.md R188 (a)). -/
def Obligations.NonFiniteRootIsPermanent : Prop :=
  ∀ (a b i x : F32) (rext : Word), f32IsFinite x = false →
    ∀ k, f32IsFinite (newtonIterate a b i k x) = false ∧ codeOfRoot rext (newtonIterate a b i k x) = none

/-- CLEAR_CH is sixteen writes of zero, 0x08 to 0x17 ascending, to one device; its duty registers then hold zero, every
other chip register reads as before, and the command ends OK (41_channel_map.md R195). -/
def Obligations.ClearChannelZeroesOneDevice : Prop :=
  ∀ (s : State) (d : Byte), BusCompletes s → Shaped s → d.toNat < s.par.n →
    ∃ t, exec (.clearCh d 0x00#8 0x00#8) s = .next t ∧
      t = ((List.range 16).foldl (fun u k => u.wrote d.toNat (0x08#8 + BitVec.ofNat 8 k) 0x00#8) s).endCommand .ok ∧
      t.env.trace = s.env.trace ++
        (List.range 16).flatMap (fun k => writeFrame s.par.n d.toNat (0x08#8 + BitVec.ofNat 8 k) 0x00#8) ∧
      t.window = { s.window with err := .ok, cmdValid := false } ∧ t.engine = s.engine ∧
      t.transport.rx = s.transport.rx ∧
      (∀ a, 0x08 ≤ a → a ≤ 0x17 → chipReg t d.toNat a = 0x00#8) ∧
      (∀ p a, a < 128 → (p ≠ d.toNat ∨ a < 0x08 ∨ 0x17 < a) → chipReg t p a = chipReg s p a)

/-- CLEAR_ALL clears device by device; every duty register of the chain then holds zero, every other chip register reads
as before, and the command ends OK (41_channel_map.md R197). -/
def Obligations.ClearAllZeroesTheChain : Prop :=
  ∀ s : State, BusCompletes s → Shaped s →
    ∃ t, exec (.clearAll 0x00#8 0x00#8 0x00#8) s = .next t ∧
      t = ((List.range s.par.n).foldl (fun w d =>
        (List.range 16).foldl (fun u k => u.wrote d (0x08#8 + BitVec.ofNat 8 k) 0x00#8) w) s).endCommand .ok ∧
      t.env.trace = s.env.trace ++ (List.range s.par.n).flatMap (fun d =>
        (List.range 16).flatMap (fun k => writeFrame s.par.n d (0x08#8 + BitVec.ofNat 8 k) 0x00#8)) ∧
      t.window = { s.window with err := .ok, cmdValid := false } ∧ t.engine = s.engine ∧
      t.transport.rx = s.transport.rx ∧
      (∀ p a, p < s.par.n → 0x08 ≤ a → a ≤ 0x17 → chipReg t p a = 0x00#8) ∧
      (∀ p a, a < 128 → (s.par.n ≤ p ∨ a < 0x08 ∨ 0x17 < a) → chipReg t p a = chipReg s p a)

/-! ### The twinkle engine -/

/-- ENG_START: with a valid configuration the engine runs with it, its pool empty and no tick pending, and nothing else
changes but that the command ends OK; with an invalid one the command ends ERR_CONFIG and nothing else changes
(42_twinkle.md R230). -/
def Obligations.StartRunsTheEngineOrRefuses : Prop :=
  ∀ s : State,
    ((f32IsFinite s.window.cfgTick = true ∧ f32Lt f32Zero s.window.cfgTick = true ∧
        s.window.cfgSpawnK.toNat ≤ 1000 ∧ s.window.cfgSlots.toNat ≤ s.par.poolCap) →
      exec (.engStart 0x00#8 0x00#8 0x00#8) s = .next { s with
        window := { s.window with err := .ok, cmdValid := false }
        engine :=
          { running := true, tickPending := false, actT := s.window.cfgTick, actK := s.window.cfgSpawnK
            actS := s.window.cfgSlots, slots := List.replicate s.par.poolCap inactiveSlot
            tickPeriodOut := s.window.cfgTick, tickEnableOut := true } }) ∧
    (¬(f32IsFinite s.window.cfgTick = true ∧ f32Lt f32Zero s.window.cfgTick = true ∧
        s.window.cfgSpawnK.toNat ≤ 1000 ∧ s.window.cfgSlots.toNat ≤ s.par.poolCap) →
      exec (.engStart 0x00#8 0x00#8 0x00#8) s = .next (s.endCommand .config))

/-- ENG_STOP: each active slot, ascending, is blacked with three writes and cleared; then running, tick_pending and
tick_enable_out are 0, every slot is INACTIVE, and the command ends OK (42_twinkle.md R233, R234). -/
def Obligations.StopClearsThePoolAndStops : Prop :=
  ∀ s : State, Inv s → BusCompletes s →
    ∃ t, exec (.engStop 0x00#8 0x00#8 0x00#8) s = .next t ∧
      t = ((List.range s.par.poolCap).foldl State.stoppedSlot s).stopEngine.endCommand .ok ∧
      (∀ j, slotAt t j = inactiveSlot) ∧
      t.engine = { s.engine with
        running := false, tickPending := false, tickEnableOut := false, slots := t.engine.slots } ∧
      t.transport.rx = s.transport.rx ∧ t.window = { s.window with err := .ok, cmdValid := false }

/-- After ENG_STOP the three duty registers of every LED that had an active slot were last written zero, the slot is
inactive, and, where the chain answers as the reference chain of 20_memory.md R99, a READ of each of the registers then
returns zero for that device (42_twinkle.md R244 (c)). -/
def Obligations.StopLeavesActiveLedsBlack : Prop :=
  ∀ s : State, Inv s → BusCompletes s →
    ∃ t, exec (.engStop 0x00#8 0x00#8 0x00#8) s = .next t ∧
      ∀ j c, (slotAt s j).active = true → c < 3 →
        chipReg t (slotAt s j).dev.toNat (dutyAddr (slotAt s j).led.toNat c).toNat = 0x00#8 ∧
        (slotAt t j).active = false ∧
        (s.env.refChain = true → ∃ u, exec (.read 0x00#8 (dutyAddr (slotAt s j).led.toNat c) 0x00#8) t = .next u ∧
          rxAt u (slotAt s j).dev.toNat = 0x00#8)

/-- TICK_UPDATE: tick_pending is cleared, every active slot below act_S, ascending, advances by act_T, is pushed, and is
blacked and cleared where it extinguishes; then one spawn is attempted; STATUS.ERR and RESULT are unchanged
(42_twinkle.md R224-R227, R240). -/
def Obligations.TickAdvancesEverySlotThenSpawns : Prop :=
  ∀ s : State, Inv s → BusCompletes s →
    ∃ t, exec .tickUpdate s = .next t ∧
      t = spawnOnce Config.math
        ((List.range s.engine.actS.toNat).foldl (fun u j => u.tickedSlot Config.math j) (s.setTickPending false)) ∧
      t.window = s.window ∧ t.engine.tickPending = false ∧ t.transport.rx = s.transport.rx

/-- Each TICK_UPDATE claims at most one slot: of two slots inactive before it, at most one is active after, whatever the
exponential and the logarithm are, and so with the implementation's (42_twinkle.md R244 (d)). -/
def Obligations.TickClaimsAtMostOneSlot : Prop :=
  (∀ s : State, exec .tickUpdate s = .next (completeInternal .tickUpdate (tickBody Config.math s))) ∧
  ∀ (m : MathPair) (s t : State) (i j : Nat), t = completeInternal .tickUpdate (tickBody m s) →
    (slotAt s i).active = false → (slotAt s j).active = false → (slotAt t i).active = true →
    (slotAt t j).active = true → i = j

/-- SPAWN, by its draws: it stops after one draw that does not pass, after three where the LED has an active slot or no
slot is free, and after eight it claims the first inactive slot, unless tmax or scale will not do. Nothing else changes
(42_twinkle.md R225, R242, R243). -/
def Obligations.SpawnClaimsTheFirstFreeSlot : Prop :=
  ∀ s : State, Shaped s → s.engine.actS.toNat ≤ s.par.poolCap →
    (¬drawn 1000 s < s.engine.actK.toNat → exec .spawn s = .next s.drew) ∧
    (drawn 1000 s < s.engine.actK.toNat → ∀ d l, d = drawn s.par.n s.drew → l = drawn 5 s.drew.drew →
      ((∃ j, j < s.engine.actS.toNat ∧ (slotAt s j).active = true ∧ (slotAt s j).dev.toNat = d ∧
          (slotAt s j).led.toNat = l) → exec .spawn s = .next s.drew.drew.drew) ∧
      ((∀ j, j < s.engine.actS.toNat → (slotAt s j).active = true) → exec .spawn s = .next s.drew.drew.drew) ∧
      (¬(∃ j, j < s.engine.actS.toNat ∧ (slotAt s j).active = true ∧ (slotAt s j).dev.toNat = d ∧
          (slotAt s j).led.toNat = l) →
        ∀ j, j < s.engine.actS.toNat → (slotAt s j).active = false →
          (∀ i, i < j → (slotAt s i).active = true) →
          ∀ u v w r g b a0 a1 tmax scale, u = s.drew.drew.drew → v = u.drew → w = v.drew →
            r = drawn 255 u → g = drawn 255 v → b = drawn 255 w → (a0, a1) = drawnRates w.drew →
            tmax = f32Div (Config.math.fln (f32Div a1 a0)) (f32Sub a1 a0) →
            scale = f32Div 0x3F800000#32 (f32Sub (Config.math.fexp (f32Flip (f32Mul a0 tmax)))
              (Config.math.fexp (f32Flip (f32Mul a1 tmax)))) →
            exec .spawn s = .next
              (if f32IsFinite tmax = true ∧ f32IsFinite scale = true ∧ f32Lt f32Zero scale = true then
                w.drew.drewRates.setSlot j
                  { active := true, dev := BitVec.ofNat 8 d, led := BitVec.ofNat 8 l, baseR := BitVec.ofNat 8 r
                    baseG := BitVec.ofNat 8 g, baseB := BitVec.ofNat 8 b, a1 := a1, a0 := a0, t := 0x00000000#32
                    tmax := tmax, scale := scale }
              else w.drew.drewRates)))

/-- Normalisation: with any exponential and logarithm that have the properties of 00_scope.md R12, and rates with a
finite quotient, the envelope at tmax times scale is within 2^-22 of 1.0 wherever SPAWN would claim a slot
(42_twinkle.md R244 (a); the finite quotient is a premise of this statement). -/
def Obligations.EnvelopePeakIsNormalised : Prop :=
  ∀ (m : MathPair) (a0 a1 tmax scale : F32), LawfulMath m → f32Lt f32Zero a0 = true → f32Lt a0 a1 = true →
    f32IsFinite a1 = true → f32IsFinite (f32Div a1 a0) = true → tmax = peakTime m a0 a1 →
    scale = peakScale m a0 a1 tmax → f32IsFinite tmax = true → f32IsFinite scale = true →
    f32Lt f32Zero scale = true →
    f32Le 0x3F7FFFFC#32 (f32Mul (envelope m a0 a1 tmax) scale) = true ∧
      f32Le (f32Mul (envelope m a0 a1 tmax) scale) 0x3F800002#32 = true

/-- Only ENG_START writes the active configuration and the timer's period (10_state.md R49, R55). -/
def Obligations.OnlyStartWritesTheActiveConfiguration : Prop :=
  ∀ (i : Instr) (s t : State), exec i s = .next t → (∀ d a b, i ≠ .engStart d a b) →
    t.engine.actT = s.engine.actT ∧ t.engine.actK = s.engine.actK ∧ t.engine.actS = s.engine.actS ∧
    t.engine.tickPeriodOut = s.engine.tickPeriodOut

/-- Of the instructions, only an ENG_START that ends OK makes the engine run, and only ENG_STOP stops it (42_twinkle.md
R220). -/
def Obligations.OnlyStartAndStopChangeRunning : Prop :=
  ∀ (i : Instr) (s t : State), exec i s = .next t → t.engine.running ≠ s.engine.running →
    (t.engine.running = true ∧ t.window.err = .ok ∧ ∃ d a b, i = .engStart d a b) ∨
    (t.engine.running = false ∧ t.window.err = .ok ∧ ∃ d a b, i = .engStop d a b)

/-! ### The fault queries -/

/-- Q_THERM reads OVT_REG of every device and leaves the bit OVT_BIT of device d's answer in RESULT; it ends OK
whatever the bit is (43_queries.md R260, R261). -/
def Obligations.ThermalQueryReportsTheBit : Prop :=
  ∀ (s : State) (d : Byte), BusCompletes s → Shaped s → paramsValid s.par = true → d.toNat < s.par.n →
    exec (.qTherm d 0x00#8 0x00#8) s =
      .next (((s.hasRead s.par.ovtReg).setResult
        (if (answerAt s (2 * s.par.n + (2 * d.toNat + 1))).getLsbD s.par.ovtBit then 1#32 else 0#32)).endCommand .ok)

/-- Q_ERR reads ERRP_REG; with the bit clear RESULT is 0 and no flag is read, with it set the four error-flag registers
are read, ascending, and RESULT is device d's bytes, EFLAG3 uppermost; it ends OK (43_queries.md R262, R263). -/
def Obligations.ErrorQueryReportsTheFlags : Prop :=
  ∀ (s : State) (d : Byte), BusCompletes s → Shaped s → paramsValid s.par = true → d.toNat < s.par.n →
    ∀ s0 s1 s2 s3 s4, s0 = s.hasRead s.par.errpReg → s1 = s0.hasRead 0x42#8 → s2 = s1.hasRead 0x43#8 →
      s3 = s2.hasRead 0x44#8 → s4 = s3.hasRead 0x45#8 →
      ((rxAt s0 d.toNat).getLsbD s.par.errpBit = false →
        exec (.qErr d 0x00#8 0x00#8) s = .next ((s0.setResult 0x00000000#32).endCommand .ok)) ∧
      ((rxAt s0 d.toNat).getLsbD s.par.errpBit = true →
        exec (.qErr d 0x00#8 0x00#8) s = .next ((s4.setResult
          (rxAt s4 d.toNat ++ rxAt s3 d.toNat ++ rxAt s2 d.toNat ++ rxAt s1 d.toNat)).endCommand .ok))

/-- RESULT changes only by a SET_GAIN, Q_THERM or Q_ERR that ends with ERR = 0 (10_state.md R36). -/
def Obligations.OnlyThreeCommandsWriteResult : Prop :=
  ∀ (i : Instr) (s t : State), exec i s = .next t → t.window.result ≠ s.window.result →
    t.window.err = .ok ∧ ((∃ d l c f, i = .setGain d l c f) ∨ (∃ d a b, i = .qTherm d a b) ∨ ∃ d a b, i = .qErr d a b)

/-! ### The wire units at a chip -/

/-- WIRE_NOP leaves every chip register and drops the latch of its position; WIRE_RD latches the address; WIRE_WR stores
the byte, or at an address above 0x45 leaves a free value in every register of its chip; at a position with no chip nothing happens.
Nothing of the block and of the other chips changes (20_memory.md R99; that a unit runs at a position of its own, when
a latch ends, and a write above 0x45 are the model's choices, log 11, log 14 and log 15). -/
def Obligations.WireUnitsActOnOneChip : Prop :=
  ∀ (s : State) (p : Nat), s.env.unitPos = p →
    (s.par.n ≤ p → (∀ r v, exec (.wireWr r v) s = .next s) ∧ (∀ r v, exec (.wireRd r v) s = .next s) ∧
      exec .wireNop s = .next s) ∧
    (p < s.par.n →
      exec .wireNop s = .next { s with env := { s.env with latch := s.env.latch.set p none } } ∧
      (∀ r v, exec (.wireRd r v) s = .next { s with env := { s.env with latch := s.env.latch.set p (some r) } }) ∧
      (∀ r v, ∃ m, exec (.wireWr r v) s =
          .next { s with env := { s.env with chips := m, latch := s.env.latch.set p none } } ∧
        (∀ q a, q ≠ p → a < 128 → m.read (chipKey q a) = s.env.chips.read (chipKey q a)) ∧
        (0x45#7 < r → ∀ a, a ≤ 0x45 → m.read (chipKey p a) = Config.openReg s.env.chips.writes (chipKey p a)) ∧
        (r ≤ 0x45#7 → m.read (chipKey p r.toNat) = v ∧
          ∀ q a, a < 128 → (q, a) ≠ (p, r.toNat) →
            (q = p → ¬(r = 0x40#7 ∧ 0x08 ≤ a ∧ a ≤ 0x17) ∧ ¬(r = 0x41#7 ∧ 0x18 ≤ a ∧ a ≤ 0x27)) →
            m.read (chipKey q a) = s.env.chips.read (chipKey q a))))

/-- A device tells a unit's kind from its instruction byte alone: 0xFF is a no-op, bit 0 = 0 a write, any other value with
bit 0 = 1 a read; and a frame is 2·n bytes (30_encoding.md R124; that a no-op's data byte tells nothing is
log 13). -/
def Obligations.InstructionByteTellsTheUnit : Prop :=
  ∀ b d : Byte,
    (b = 0xFF#8 → decodeUnit (b ++ d) = .wireNop) ∧
    (b.getLsbD 0 = false → decodeUnit (b ++ d) = .wireWr (b.extractLsb' 1 7) d) ∧
    (b ≠ 0xFF#8 → b.getLsbD 0 = true → decodeUnit (b ++ d) = .wireRd (b.extractLsb' 1 7) d) ∧
    ∀ (n : Nat) (unit : Nat → Byte × Byte), (frame n unit).length = 1 + 2 * n + 1

/-! ### Whole-machine rules -/

/-- A hung operation is the one that was run; it leaves STATUS.ERR, BUSY and RESULT as they were (60_exceptions.md
R313; how a hang is modelled is log 8). -/
def Obligations.HungOperationKeepsItsCommand : Prop :=
  ∀ (i : Instr) (s t : State), exec i s = .next t → s.seq = .idle → t.seq ≠ .idle →
    t.seq = .exec i ∧ t.window = s.window ∧ t.env.hangIn = none ∧ ∃ k, s.env.hangIn = some k

/-- 10_state.md R56: no step changes a parameter, and so neither ID, MAXI nor a calibration coefficient. -/
def Obligations.StepKeepsTheParameters : Prop :=
  ∀ s t : State, step s = .next t → t.par = s.par

/-- The invariant (`Inv`: the buffers have N entries, the pool invariants of 10_state.md R54, sel is 0 between operations,
the chips' registers are in canonical form) is kept by every step: an operation that ends, one that hangs, and every
outside event. -/
def Obligations.StepKeepsTheInvariant : Prop :=
  ∀ s t : State, Inv s → step s = .next t → Inv t

/-- The invariant holds after reset, for every valid choice of parameters. -/
def Obligations.ResetMeetsTheInvariant : Prop :=
  Inv State.reset ∧ ∀ p, paramsValid p = true → Inv (State.resetWith p)
end

