-- ==== Sys2Proof/Laws/State.lean ====
section
/-! SUPPORT. For each named update of the state, what each part of the state is after it. -/

namespace Sys2Proof.Machine

variable (s : State)

/-! record -/
@[simp] theorem State.record_par (e : BusEvent) : (s.record e).par = s.par := rfl
@[simp] theorem State.record_window (e : BusEvent) : (s.record e).window = s.window := rfl
@[simp] theorem State.record_transport (e : BusEvent) : (s.record e).transport = s.transport := rfl
@[simp] theorem State.record_seq (e : BusEvent) : (s.record e).seq = s.seq := rfl
@[simp] theorem State.record_engine (e : BusEvent) : (s.record e).engine = s.engine := rfl
@[simp] theorem State.record_env (e : BusEvent) : (s.record e).env = { s.env with trace := s.env.trace ++ [e] } := rfl

/-! setHang -/
@[simp] theorem State.setHang_par (h : Option Nat) : (s.setHang h).par = s.par := rfl
@[simp] theorem State.setHang_window (h : Option Nat) : (s.setHang h).window = s.window := rfl
@[simp] theorem State.setHang_transport (h : Option Nat) : (s.setHang h).transport = s.transport := rfl
@[simp] theorem State.setHang_seq (h : Option Nat) : (s.setHang h).seq = s.seq := rfl
@[simp] theorem State.setHang_engine (h : Option Nat) : (s.setHang h).engine = s.engine := rfl
@[simp] theorem State.setHang_env (h : Option Nat) : (s.setHang h).env = { s.env with hangIn := h } := rfl

/-! answered -/
@[simp] theorem State.answered_par : (s.answered).par = s.par := rfl
@[simp] theorem State.answered_window : (s.answered).window = s.window := rfl
@[simp] theorem State.answered_transport : (s.answered).transport = s.transport := rfl
@[simp] theorem State.answered_seq : (s.answered).seq = s.seq := rfl
@[simp] theorem State.answered_engine : (s.answered).engine = s.engine := rfl
@[simp] theorem State.answered_env : (s.answered).env = { s.env with busIn := s.env.busIn.tail, xfers := s.env.xfers + 1, beat := s.env.beat + 1 } := rfl

/-! drew -/
@[simp] theorem State.drew_par : (s.drew).par = s.par := rfl
@[simp] theorem State.drew_window : (s.drew).window = s.window := rfl
@[simp] theorem State.drew_transport : (s.drew).transport = s.transport := rfl
@[simp] theorem State.drew_seq : (s.drew).seq = s.seq := rfl
@[simp] theorem State.drew_engine : (s.drew).engine = s.engine := rfl
@[simp] theorem State.drew_env : (s.drew).env = { s.env with drawIn := s.env.drawIn.tail, draws := s.env.draws + 1 } := rfl

/-! drewRates -/
@[simp] theorem State.drewRates_par : (s.drewRates).par = s.par := rfl
@[simp] theorem State.drewRates_window : (s.drewRates).window = s.window := rfl
@[simp] theorem State.drewRates_transport : (s.drewRates).transport = s.transport := rfl
@[simp] theorem State.drewRates_seq : (s.drewRates).seq = s.seq := rfl
@[simp] theorem State.drewRates_engine : (s.drewRates).engine = s.engine := rfl
@[simp] theorem State.drewRates_env : (s.drewRates).env = { s.env with ratesIn := s.env.ratesIn.tail, rateDraws := s.env.rateDraws + 1 } := rfl

/-! setChips -/
@[simp] theorem State.setChips_par (m : ChipRegs) (l : List (Option Reg7)) : (s.setChips m l).par = s.par := rfl
@[simp] theorem State.setChips_window (m : ChipRegs) (l : List (Option Reg7)) : (s.setChips m l).window = s.window := rfl
@[simp] theorem State.setChips_transport (m : ChipRegs) (l : List (Option Reg7)) : (s.setChips m l).transport = s.transport := rfl
@[simp] theorem State.setChips_seq (m : ChipRegs) (l : List (Option Reg7)) : (s.setChips m l).seq = s.seq := rfl
@[simp] theorem State.setChips_engine (m : ChipRegs) (l : List (Option Reg7)) : (s.setChips m l).engine = s.engine := rfl
@[simp] theorem State.setChips_env (m : ChipRegs) (l : List (Option Reg7)) : (s.setChips m l).env = { s.env with chips := m, latch := l } := rfl

/-! setReadData -/
@[simp] theorem State.setReadData_par (w : Word) : (s.setReadData w).par = s.par := rfl
@[simp] theorem State.setReadData_window (w : Word) : (s.setReadData w).window = s.window := rfl
@[simp] theorem State.setReadData_transport (w : Word) : (s.setReadData w).transport = s.transport := rfl
@[simp] theorem State.setReadData_seq (w : Word) : (s.setReadData w).seq = s.seq := rfl
@[simp] theorem State.setReadData_engine (w : Word) : (s.setReadData w).engine = s.engine := rfl
@[simp] theorem State.setReadData_env (w : Word) : (s.setReadData w).env = { s.env with readData := w } := rfl

/-! setEvents -/
@[simp] theorem State.setEvents_par (l : List Event) : (s.setEvents l).par = s.par := rfl
@[simp] theorem State.setEvents_window (l : List Event) : (s.setEvents l).window = s.window := rfl
@[simp] theorem State.setEvents_transport (l : List Event) : (s.setEvents l).transport = s.transport := rfl
@[simp] theorem State.setEvents_seq (l : List Event) : (s.setEvents l).seq = s.seq := rfl
@[simp] theorem State.setEvents_engine (l : List Event) : (s.setEvents l).engine = s.engine := rfl
@[simp] theorem State.setEvents_env (l : List Event) : (s.setEvents l).env = { s.env with events := l } := rfl

/-! setBeat -/
@[simp] theorem State.setBeat_par (b : Nat) : (s.setBeat b).par = s.par := rfl
@[simp] theorem State.setBeat_window (b : Nat) : (s.setBeat b).window = s.window := rfl
@[simp] theorem State.setBeat_transport (b : Nat) : (s.setBeat b).transport = s.transport := rfl
@[simp] theorem State.setBeat_seq (b : Nat) : (s.setBeat b).seq = s.seq := rfl
@[simp] theorem State.setBeat_engine (b : Nat) : (s.setBeat b).engine = s.engine := rfl
@[simp] theorem State.setBeat_env (b : Nat) : (s.setBeat b).env = { s.env with beat := b } := rfl

/-! setSel -/
@[simp] theorem State.setSel_par (b : Bool) : (s.setSel b).par = s.par := rfl
@[simp] theorem State.setSel_window (b : Bool) : (s.setSel b).window = s.window := rfl
@[simp] theorem State.setSel_transport (b : Bool) : (s.setSel b).transport = { s.transport with sel := b } := rfl
@[simp] theorem State.setSel_seq (b : Bool) : (s.setSel b).seq = s.seq := rfl
@[simp] theorem State.setSel_engine (b : Bool) : (s.setSel b).engine = s.engine := rfl
@[simp] theorem State.setSel_env (b : Bool) : (s.setSel b).env = s.env := rfl

/-! stage -/
@[simp] theorem State.stage_par (i d : List Byte) : (s.stage i d).par = s.par := rfl
@[simp] theorem State.stage_window (i d : List Byte) : (s.stage i d).window = s.window := rfl
@[simp] theorem State.stage_transport (i d : List Byte) : (s.stage i d).transport = { s.transport with instr := i, data := d } := rfl
@[simp] theorem State.stage_seq (i d : List Byte) : (s.stage i d).seq = s.seq := rfl
@[simp] theorem State.stage_engine (i d : List Byte) : (s.stage i d).engine = s.engine := rfl
@[simp] theorem State.stage_env (i d : List Byte) : (s.stage i d).env = s.env := rfl

/-! setRx -/
@[simp] theorem State.setRx_par (i : Nat) (b : Byte) : (s.setRx i b).par = s.par := rfl
@[simp] theorem State.setRx_window (i : Nat) (b : Byte) : (s.setRx i b).window = s.window := rfl
@[simp] theorem State.setRx_transport (i : Nat) (b : Byte) : (s.setRx i b).transport = { s.transport with rx := s.transport.rx.set i b } := rfl
@[simp] theorem State.setRx_seq (i : Nat) (b : Byte) : (s.setRx i b).seq = s.seq := rfl
@[simp] theorem State.setRx_engine (i : Nat) (b : Byte) : (s.setRx i b).engine = s.engine := rfl
@[simp] theorem State.setRx_env (i : Nat) (b : Byte) : (s.setRx i b).env = s.env := rfl

/-! setSlot -/
@[simp] theorem State.setSlot_par (j : Nat) (x : Slot) : (s.setSlot j x).par = s.par := rfl
@[simp] theorem State.setSlot_window (j : Nat) (x : Slot) : (s.setSlot j x).window = s.window := rfl
@[simp] theorem State.setSlot_transport (j : Nat) (x : Slot) : (s.setSlot j x).transport = s.transport := rfl
@[simp] theorem State.setSlot_seq (j : Nat) (x : Slot) : (s.setSlot j x).seq = s.seq := rfl
@[simp] theorem State.setSlot_engine (j : Nat) (x : Slot) : (s.setSlot j x).engine = { s.engine with slots := s.engine.slots.set j x } := rfl
@[simp] theorem State.setSlot_env (j : Nat) (x : Slot) : (s.setSlot j x).env = s.env := rfl

/-! setTickPending -/
@[simp] theorem State.setTickPending_par (b : Bool) : (s.setTickPending b).par = s.par := rfl
@[simp] theorem State.setTickPending_window (b : Bool) : (s.setTickPending b).window = s.window := rfl
@[simp] theorem State.setTickPending_transport (b : Bool) : (s.setTickPending b).transport = s.transport := rfl
@[simp] theorem State.setTickPending_seq (b : Bool) : (s.setTickPending b).seq = s.seq := rfl
@[simp] theorem State.setTickPending_engine (b : Bool) : (s.setTickPending b).engine = { s.engine with tickPending := b } := rfl
@[simp] theorem State.setTickPending_env (b : Bool) : (s.setTickPending b).env = s.env := rfl

/-! stopEngine -/
@[simp] theorem State.stopEngine_par : (s.stopEngine).par = s.par := rfl
@[simp] theorem State.stopEngine_window : (s.stopEngine).window = s.window := rfl
@[simp] theorem State.stopEngine_transport : (s.stopEngine).transport = s.transport := rfl
@[simp] theorem State.stopEngine_seq : (s.stopEngine).seq = s.seq := rfl
@[simp] theorem State.stopEngine_engine : (s.stopEngine).engine = { s.engine with running := false, tickPending := false, tickEnableOut := false } := rfl
@[simp] theorem State.stopEngine_env : (s.stopEngine).env = s.env := rfl

/-! setResult -/
@[simp] theorem State.setResult_par (w : Word) : (s.setResult w).par = s.par := rfl
@[simp] theorem State.setResult_window (w : Word) : (s.setResult w).window = { s.window with result := w } := rfl
@[simp] theorem State.setResult_transport (w : Word) : (s.setResult w).transport = s.transport := rfl
@[simp] theorem State.setResult_seq (w : Word) : (s.setResult w).seq = s.seq := rfl
@[simp] theorem State.setResult_engine (w : Word) : (s.setResult w).engine = s.engine := rfl
@[simp] theorem State.setResult_env (w : Word) : (s.setResult w).env = s.env := rfl

/-! endCommand -/
@[simp] theorem State.endCommand_par (e : ErrorCode) : (s.endCommand e).par = s.par := rfl
@[simp] theorem State.endCommand_window (e : ErrorCode) : (s.endCommand e).window = { s.window with err := e, cmdValid := false } := rfl
@[simp] theorem State.endCommand_transport (e : ErrorCode) : (s.endCommand e).transport = s.transport := rfl
@[simp] theorem State.endCommand_seq (e : ErrorCode) : (s.endCommand e).seq = s.seq := rfl
@[simp] theorem State.endCommand_engine (e : ErrorCode) : (s.endCommand e).engine = s.engine := rfl
@[simp] theorem State.endCommand_env (e : ErrorCode) : (s.endCommand e).env = s.env := rfl

/-! setTickOvr -/
@[simp] theorem State.setTickOvr_par : (s.setTickOvr).par = s.par := rfl
@[simp] theorem State.setTickOvr_window : (s.setTickOvr).window = { s.window with tickOvr := true } := rfl
@[simp] theorem State.setTickOvr_transport : (s.setTickOvr).transport = s.transport := rfl
@[simp] theorem State.setTickOvr_seq : (s.setTickOvr).seq = s.seq := rfl
@[simp] theorem State.setTickOvr_engine : (s.setTickOvr).engine = s.engine := rfl
@[simp] theorem State.setTickOvr_env : (s.setTickOvr).env = s.env := rfl

/-! setCmdOvr -/
@[simp] theorem State.setCmdOvr_par : (s.setCmdOvr).par = s.par := rfl
@[simp] theorem State.setCmdOvr_window : (s.setCmdOvr).window = { s.window with cmdOvr := true } := rfl
@[simp] theorem State.setCmdOvr_transport : (s.setCmdOvr).transport = s.transport := rfl
@[simp] theorem State.setCmdOvr_seq : (s.setCmdOvr).seq = s.seq := rfl
@[simp] theorem State.setCmdOvr_engine : (s.setCmdOvr).engine = s.engine := rfl
@[simp] theorem State.setCmdOvr_env : (s.setCmdOvr).env = s.env := rfl

/-! setAccErr -/
@[simp] theorem State.setAccErr_par : (s.setAccErr).par = s.par := rfl
@[simp] theorem State.setAccErr_window : (s.setAccErr).window = { s.window with accErr := true } := rfl
@[simp] theorem State.setAccErr_transport : (s.setAccErr).transport = s.transport := rfl
@[simp] theorem State.setAccErr_seq : (s.setAccErr).seq = s.seq := rfl
@[simp] theorem State.setAccErr_engine : (s.setAccErr).engine = s.engine := rfl
@[simp] theorem State.setAccErr_env : (s.setAccErr).env = s.env := rfl

/-! clearSticky -/
@[simp] theorem State.clearSticky_par (w : Word) : (s.clearSticky w).par = s.par := rfl
@[simp] theorem State.clearSticky_window (w : Word) :
    (s.clearSticky w).window =
      { s.window with
        tickOvr := s.window.tickOvr && !w.getLsbD 3
        cmdOvr := s.window.cmdOvr && !w.getLsbD 4
        accErr := s.window.accErr && !w.getLsbD 5 } := rfl
@[simp] theorem State.clearSticky_transport (w : Word) : (s.clearSticky w).transport = s.transport := rfl
@[simp] theorem State.clearSticky_seq (w : Word) : (s.clearSticky w).seq = s.seq := rfl
@[simp] theorem State.clearSticky_engine (w : Word) : (s.clearSticky w).engine = s.engine := rfl
@[simp] theorem State.clearSticky_env (w : Word) : (s.clearSticky w).env = s.env := rfl

/-! stuckIn -/
@[simp] theorem State.stuckIn_par (op : Instr) : (s.stuckIn op).par = s.par := rfl
@[simp] theorem State.stuckIn_window (op : Instr) : (s.stuckIn op).window = s.window := rfl
@[simp] theorem State.stuckIn_transport (op : Instr) : (s.stuckIn op).transport = s.transport := rfl
@[simp] theorem State.stuckIn_seq (op : Instr) : (s.stuckIn op).seq = .exec op := rfl
@[simp] theorem State.stuckIn_engine (op : Instr) : (s.stuckIn op).engine = s.engine := rfl
@[simp] theorem State.stuckIn_env (op : Instr) : (s.stuckIn op).env = s.env := rfl

end Sys2Proof.Machine
end

