-- ==== Sys2Proof/Laws/Memory.lean ====
section
/-! SUPPORT. The chips' registers: a read after a store, what a store leaves alone, and that every
operation keeps the canonical form. -/

namespace Sys2Proof.Machine

theorem Memory.read_write_same (m : Memory) (a : Nat) (v : Byte) : (Memory.write m a v).read a = some v := by
  induction m with
  | nil => simp [Memory.write, Memory.read]
  | cons c m ih =>
    obtain ⟨k, w⟩ := c
    simp only [Memory.write]
    split
    · simp [Memory.read]
    · split
      · simp [Memory.read]
      · rename_i h1 h2
        simp [Memory.read, Ne.symm h2, ih]

theorem Memory.read_write_other (m : Memory) (a b : Nat) (v : Byte) (h : b ≠ a) :
    (Memory.write m a v).read b = m.read b := by
  induction m with
  | nil => simp [Memory.write, Memory.read, Ne.symm h]
  | cons c m ih =>
    obtain ⟨k, w⟩ := c
    simp only [Memory.write]
    split
    · simp [Memory.read, Ne.symm h]
    · split
      · rename_i h1 h2
        subst h2
        simp [Memory.read, Ne.symm h]
      · simp only [Memory.read, ih]

theorem Memory.read_writeAll (l : List Nat) (f : Nat → Byte) (m : Memory) (b : Nat) :
    (Memory.writeAll m l f).read b = if b ∈ l then some (f b) else m.read b := by
  induction l generalizing m with
  | nil => rfl
  | cons k l ih =>
    rw [Memory.writeAll, List.foldl_cons, ← Memory.writeAll, ih]
    by_cases hb : b = k
    · subst hb; simp [Memory.read_write_same]
    · simp [hb, Memory.read_write_other _ _ _ _ hb]

theorem Memory.mem_write {m : Memory} {a : Nat} {v : Byte} {c : Host.Cell} (h : c ∈ Memory.write m a v) :
    c = (a, v) ∨ c ∈ m := by
  induction m with
  | nil => simpa [Memory.write] using h
  | cons d m ih =>
    simp only [Memory.write] at h
    split at h
    · simpa using h
    · split at h
      · rcases List.mem_cons.mp h with h | h
        · exact .inl h
        · exact .inr (List.mem_cons_of_mem _ h)
      · rcases List.mem_cons.mp h with h | h
        · exact .inr (h ▸ List.mem_cons_self)
        · exact (ih h).imp id (List.mem_cons_of_mem _)

theorem Memory.wf_write {m : Memory} (a : Nat) (v : Byte) (h : Memory.wf m = true) :
    Memory.wf (Memory.write m a v) = true := by
  simp only [Memory.wf, decide_eq_true_eq] at h ⊢
  induction m with
  | nil => simp [Memory.write]
  | cons c m ih =>
    obtain ⟨k, w⟩ := c
    have hc := List.pairwise_cons.mp h
    simp only [Memory.write]
    split
    · rename_i hlt
      refine List.pairwise_cons.mpr ⟨fun d hd => ?_, h⟩
      rcases List.mem_cons.mp hd with rfl | hd
      · exact hlt
      · exact Nat.lt_trans hlt (hc.1 d hd)
    · split
      · rename_i heq
        subst heq
        exact List.pairwise_cons.mpr ⟨fun d hd => hc.1 d hd, hc.2⟩
      · rename_i hlt hne
        refine List.pairwise_cons.mpr ⟨fun d hd => ?_, ih hc.2⟩
        rcases Memory.mem_write hd with rfl | hd
        · show k < a
          omega
        · exact hc.1 d hd

theorem Memory.wf_writeAll (l : List Nat) (f : Nat → Byte) {m : Memory} (h : Memory.wf m = true) :
    Memory.wf (Memory.writeAll m l f) = true := by
  induction l generalizing m with
  | nil => exact h
  | cons k l ih => exact ih (Memory.wf_write k (f k) h)

theorem chipStore_wf {c : ChipRegs} (p : Nat) (r : Reg7) (v : Byte) (h : Memory.wf c.bytes = true) :
    Memory.wf (chipStore c p r v).bytes = true := by
  have := Memory.wf_writeAll (openedBy p r) (Config.openReg c.writes) h
  simp only [chipStore]
  split
  · exact Memory.wf_write _ _ this
  · exact this

theorem ChipRegs.cut_wf (c : ChipRegs) : Memory.wf c.cut.bytes = true := by
  show decide (List.Pairwise _ ([] : Memory)) = true
  simp

/-- The chips right after reset are in canonical form. -/
theorem State.resetWith_chips_wf (p : Params) : Memory.wf (State.resetWith p).env.chips.bytes = true := by
  show decide (List.Pairwise _ ([] : Memory)) = true
  simp

/-- A key is the key of one register of one position. -/
theorem chipKey_inj {p q a b : Nat} (ha : a < 128) (hb : b < 128) (h : chipKey p a = chipKey q b) : p = q ∧ a = b := by
  unfold chipKey at h
  omega

theorem mem_chipKeys {p q a b n : Nat} (ha : a < 128) (hn : b + n ≤ 128) :
    chipKey q a ∈ chipKeys p b n ↔ q = p ∧ b ≤ a ∧ a < b + n := by
  simp only [chipKeys, List.mem_map, List.mem_range]
  constructor
  · rintro ⟨i, hi, e⟩
    obtain ⟨rfl, rfl⟩ := chipKey_inj (by omega) ha e
    exact ⟨rfl, by omega, by omega⟩
  · rintro ⟨rfl, h1, h2⟩
    exact ⟨a - b, by omega, by rw [show b + (a - b) = a by omega]⟩

/-- The registers on which a write unit's effect is left open are of its own chip: those a broadcast register reaches, or,
above 0x45, all. -/
theorem mem_openedBy {p q a : Nat} {r : Reg7} (ha : a < 128) :
    chipKey q a ∈ openedBy p r ↔ q = p ∧ ((r = 0x40#7 ∧ 0x08 ≤ a ∧ a ≤ 0x17) ∨ (r = 0x41#7 ∧ 0x18 ≤ a ∧ a ≤ 0x27) ∨
      (0x45#7 < r ∧ a ≤ 0x45)) := by
  unfold openedBy
  split
  · rename_i h
    subst h
    rw [mem_chipKeys ha (by omega)]
    simp
    omega
  · split
    · rename_i h
      subst h
      rw [mem_chipKeys ha (by omega)]
      simp
      omega
    · split
      · rename_i h1 h2 h3
        simp [h1, h2, BitVec.not_lt.mpr h3]
      · rename_i h1 h2 h3
        rw [mem_chipKeys ha (by omega)]
        simp [h1, h2, BitVec.not_le.mp h3]
        omega

/-- What a chip register holds after a write unit: the byte, where it is the one stored to; a free value, where the unit's
effect is left open; else what it held. -/
theorem chipStore_read (c : ChipRegs) (p : Nat) (r : Reg7) (v : Byte) (k : Nat) :
    (chipStore c p r v).read k =
      if r ≤ 0x45#7 ∧ k = chipKey p r.toNat then v
      else if k ∈ openedBy p r then Config.openReg c.writes k
      else c.read k := by
  simp only [ChipRegs.read, chipStore]
  by_cases hr : r ≤ 0x45#7
  · by_cases hk : k = chipKey p r.toNat
    · subst hk; simp [hr, Memory.read_write_same]
    · simp only [hr, hk, if_true, and_false, if_false, Memory.read_write_other _ _ _ _ hk, Memory.read_writeAll]
      split <;> rfl
  · simp only [hr, if_false, false_and, Memory.read_writeAll]
    split <;> rfl

/-- After a cut transaction every register holds a new free value. -/
@[simp] theorem ChipRegs.cut_read (c : ChipRegs) (k : Nat) : c.cut.read k = Config.unknownReg (c.cuts + 1) k := rfl

end Sys2Proof.Machine
end

