-- ==== Sys2Proof/Laws/Run.lean ====
section
/-! SUPPORT. Pieces of operations: how a fact is carried through `andThen` and `forEach` whether or not a bus primitive
hangs, and what they come to when none does. -/

namespace Sys2Proof.Machine

/-- The state a piece of an operation leaves, ended or hung. -/
def Res.state {α : Type} : Res α → State
  | .done _ s => s
  | .hung s => s

@[simp] theorem Res.state_done {α : Type} (a : α) (s : State) : (Res.done a s).state = s := rfl
@[simp] theorem Res.state_hung {α : Type} (s : State) : (Res.hung s : Res α).state = s := rfl
@[simp] theorem Res.andThen_done {α β : Type} (a : α) (s : State) (k : α → State → Res β) :
    (Res.done a s).andThen k = k a s := rfl
@[simp] theorem Res.andThen_hung {α β : Type} (s : State) (k : α → State → Res β) :
    (Res.hung s : Res α).andThen k = .hung s := rfl

/-- What holds after the first piece, and is kept by the second from there, holds after both. -/
theorem Res.andThen_keeps {α β : Type} {P : State → Prop} {r : Res α} {k : α → State → Res β} (hr : P r.state)
    (hk : ∀ a t, r = .done a t → P t → P (k a t).state) : P (r.andThen k).state := by
  cases r with
  | done a t => exact hk a t rfl hr
  | hung t => exact hr

/-- What holds at the start and is kept by every round holds after the loop. -/
theorem forEach_keeps {α : Type} {P : State → Prop} {f : α → State → Res Unit} (l : List α) (s : State) (hs : P s)
    (hf : ∀ x ∈ l, ∀ t, P t → P (f x t).state) : P (forEach l f s).state := by
  induction l generalizing s with
  | nil => exact hs
  | cons x l ih =>
    refine Res.andThen_keeps (hf x List.mem_cons_self s hs) fun _ t _ ht => ?_
    exact ih t ht fun y hy => hf y (List.mem_cons_of_mem _ hy)

/-- A loop whose every round ends, from states with `P`, is the fold of what its rounds leave. -/
theorem forEach_done {α : Type} {P : State → Prop} {f : α → State → Res Unit} {g : State → α → State} (l : List α)
    (s : State) (hs : P s) (hf : ∀ x ∈ l, ∀ t, P t → f x t = .done () (g t x) ∧ P (g t x)) :
    forEach l f s = .done () (l.foldl g s) ∧ P (l.foldl g s) := by
  induction l generalizing s with
  | nil => exact ⟨rfl, hs⟩
  | cons x l ih =>
    obtain ⟨h1, h2⟩ := hf x List.mem_cons_self s hs
    have := ih (g s x) h2 fun y hy => hf y (List.mem_cons_of_mem _ hy)
    simpa only [forEach, h1, Res.andThen_done, List.foldl_cons] using this

/-- Completing a host command keeps what its end and its hang keep. -/
theorem completeCommand_keeps {P : State → Prop} {op : Instr} {r : Res ErrorCode} (hr : P r.state)
    (hd : ∀ e t, r = .done e t → P t → P (t.endCommand e)) (hh : ∀ t, r = .hung t → P t → P (t.stuckIn op)) :
    P (completeCommand op r) := by
  cases r with
  | done e t => exact hd e t rfl hr
  | hung t => exact hh t rfl hr

theorem completeInternal_keeps {P : State → Prop} {op : Instr} {r : Res Unit} (hr : P r.state)
    (hh : ∀ t, r = .hung t → P t → P (t.stuckIn op)) : P (completeInternal op r) := by
  cases r with
  | done e t => exact hr
  | hung t => exact hh t rfl hr

@[simp] theorem thenOk_state (r : Res Unit) : (thenOk r).state = r.state := by cases r <;> rfl

/-! ### The bus primitives -/

/-- What a bus primitive can do: it completes, or it is the one that hangs. -/
theorem busCall_cases (e : BusEvent) (s : State) :
    (∃ h, busCall e s = .done () ((s.record e).setHang h)) ∨
      (s.env.hangIn = some 0 ∧ busCall e s = .hung ((s.record e).setHang none)) := by
  unfold busCall
  split
  · rename_i h; exact .inl ⟨none, by rw [← h]; rfl⟩
  · rename_i h; exact .inr ⟨h, rfl⟩
  · exact .inl ⟨_, rfl⟩

theorem busCall_free {e : BusEvent} {s : State} (h : BusCompletes s) : busCall e s = .done () (s.record e) := by
  simp only [BusCompletes] at h
  simp [busCall, h]

theorem busCall_keeps {P : State → Prop} {e : BusEvent} {s : State} (h : ∀ h, P ((s.record e).setHang h)) :
    P (busCall e s).state := by
  rcases busCall_cases e s with ⟨_, he⟩ | ⟨_, he⟩ <;> rw [he] <;> exact h _

@[simp] theorem busAnswer_record (s : State) (e : BusEvent) : busAnswer (s.record e) = busAnswer s := rfl

theorem xfer_free {b : Byte} {s : State} (h : BusCompletes s) :
    xfer b s = .done (busAnswer s) (s.record (.xfer b)).answered := by
  simp [xfer, busCall_free h]

theorem xfer_keeps {P : State → Prop} {b : Byte} {s : State} (h : ∀ h, P ((s.record (.xfer b)).setHang h))
    (ha : ∀ t, P t → P t.answered) : P (xfer b s).state :=
  Res.andThen_keeps (busCall_keeps h) fun _ t _ ht => ha t ht

/-! ### What the bus can touch at all -/

/-- `t` is `s` but for the transport and for what the environment records of the bus and the chips. -/
structure BusOnly (s t : State) : Prop where
  par : t.par = s.par
  window : t.window = s.window
  engine : t.engine = s.engine
  seq : t.seq = s.seq
  events : t.env.events = s.env.events
  drawIn : t.env.drawIn = s.env.drawIn
  draws : t.env.draws = s.env.draws
  ratesIn : t.env.ratesIn = s.env.ratesIn
  rateDraws : t.env.rateDraws = s.env.rateDraws
  readData : t.env.readData = s.env.readData
  refChain : t.env.refChain = s.env.refChain
  unitPos : t.env.unitPos = s.env.unitPos

theorem BusOnly.refl (s : State) : BusOnly s s := ⟨rfl, rfl, rfl, rfl, rfl, rfl, rfl, rfl, rfl, rfl, rfl, rfl⟩

theorem BusOnly.trans {s t u : State} (a : BusOnly s t) (b : BusOnly t u) : BusOnly s u :=
  ⟨b.par.trans a.par, b.window.trans a.window, b.engine.trans a.engine, b.seq.trans a.seq, b.events.trans a.events,
    b.drawIn.trans a.drawIn, b.draws.trans a.draws, b.ratesIn.trans a.ratesIn, b.rateDraws.trans a.rateDraws,
    b.readData.trans a.readData, b.refChain.trans a.refChain, b.unitPos.trans a.unitPos⟩

/-- A chip that takes a unit changes what the chips hold and have latched, and nothing else. -/
theorem chipTakes_eq (p : Nat) (u : Unit16) (s : State) : ∃ m l, chipTakes p u s = s.setChips m l := by
  unfold chipTakes
  split <;> (try exact ⟨s.env.chips, s.env.latch, rfl⟩)
  · unfold chipIdle; split <;> exact ⟨_, _, rfl⟩
  · unfold chipWrite; split <;> exact ⟨_, _, rfl⟩
  · unfold chipLatch; split <;> exact ⟨_, _, rfl⟩

/-- At SelDeassert the chips change, and nothing else. -/
theorem chipsTake_eq (s : State) : ∃ m l, chipsTake s = s.setChips m l := by
  unfold chipsTake
  generalize List.range s.par.n = l
  suffices ∀ t : State, (∃ m l, t = s.setChips m l) →
      ∃ m k, l.foldl (fun t i => chipTakes i (stagedUnit s i) t) t = s.setChips m k from
    this s ⟨s.env.chips, s.env.latch, rfl⟩
  induction l with
  | nil => exact fun t h => h
  | cons i l ih =>
    rintro t ⟨m, k, rfl⟩
    obtain ⟨m', k', h⟩ := chipTakes_eq i (stagedUnit s i) (s.setChips m k)
    exact ih _ ⟨m', k', h⟩

theorem selAssert_busOnly (s : State) : BusOnly s (selAssert s).state :=
  Res.andThen_keeps (P := BusOnly s) (busCall_keeps fun _ => ⟨rfl, rfl, rfl, rfl, rfl, rfl, rfl, rfl, rfl, rfl, rfl, rfl⟩)
    fun _ _ _ ht => ht.trans ⟨rfl, rfl, rfl, rfl, rfl, rfl, rfl, rfl, rfl, rfl, rfl, rfl⟩

theorem selDeassert_busOnly (s : State) : BusOnly s (selDeassert s).state := by
  refine Res.andThen_keeps (P := BusOnly s)
    (busCall_keeps fun _ => ⟨rfl, rfl, rfl, rfl, rfl, rfl, rfl, rfl, rfl, rfl, rfl, rfl⟩) fun _ t _ ht => ?_
  obtain ⟨m, l, h⟩ := chipsTake_eq (t.setSel false)
  simp only [Res.state_done, h]
  exact ht.trans ⟨rfl, rfl, rfl, rfl, rfl, rfl, rfl, rfl, rfl, rfl, rfl, rfl⟩

theorem xfer_busOnly (b : Byte) (s : State) : BusOnly s (xfer b s).state :=
  xfer_keeps (P := BusOnly s) (fun _ => ⟨rfl, rfl, rfl, rfl, rfl, rfl, rfl, rfl, rfl, rfl, rfl, rfl⟩)
    fun _ ht => ht.trans ⟨rfl, rfl, rfl, rfl, rfl, rfl, rfl, rfl, rfl, rfl, rfl, rfl⟩

theorem sendUnit_busOnly (i : Nat) (s : State) : BusOnly s (sendUnit i s).state :=
  Res.andThen_keeps (xfer_busOnly _ s) fun _ t _ ht =>
    Res.andThen_keeps (ht.trans (xfer_busOnly _ t)) fun _ _ _ hu => hu

theorem sendUnitCapture_busOnly (i : Nat) (s : State) : BusOnly s (sendUnitCapture i s).state :=
  Res.andThen_keeps (xfer_busOnly _ s) fun _ t _ ht =>
    Res.andThen_keeps (ht.trans (xfer_busOnly _ t)) fun _ _ _ hu =>
      hu.trans ⟨rfl, rfl, rfl, rfl, rfl, rfl, rfl, rfl, rfl, rfl, rfl, rfl⟩

theorem bracket_busOnly {unit : Nat → State → Res Unit} (h : ∀ i t, BusOnly t (unit i t).state) (s : State) :
    BusOnly s (bracket unit s).state :=
  Res.andThen_keeps (selAssert_busOnly s) fun _ t _ ht =>
    Res.andThen_keeps (forEach_keeps _ t ht fun i _ u hu => hu.trans (h i u)) fun _ u _ hu =>
      hu.trans (selDeassert_busOnly u)

/-- WriteTxn touches the transport and the bus side of the environment only, hung or not. -/
theorem writeTxn_busOnly (d : Nat) (reg v : Byte) (s : State) : BusOnly s (writeTxn d reg v s).state :=
  BusOnly.trans (t := stageWrite d reg v s) ⟨rfl, rfl, rfl, rfl, rfl, rfl, rfl, rfl, rfl, rfl, rfl, rfl⟩
    (bracket_busOnly sendUnit_busOnly _)

/-- ReadTxn touches the transport and the bus side of the environment only, hung or not. -/
theorem readTxn_busOnly (reg : Byte) (s : State) : BusOnly s (readTxn reg s).state :=
  Res.andThen_keeps
    (BusOnly.trans (t := stageRead reg s) ⟨rfl, rfl, rfl, rfl, rfl, rfl, rfl, rfl, rfl, rfl, rfl, rfl⟩
      (bracket_busOnly sendUnit_busOnly _))
    fun _ t _ ht =>
      ht.trans (BusOnly.trans (t := stageIdle t) ⟨rfl, rfl, rfl, rfl, rfl, rfl, rfl, rfl, rfl, rfl, rfl, rfl⟩
        (bracket_busOnly sendUnitCapture_busOnly _))

theorem pushRGB_busOnly (d slot : Nat) (r g b : Byte) (s : State) : BusOnly s (pushRGB d slot r g b s).state :=
  Res.andThen_keeps (writeTxn_busOnly _ _ _ s) fun _ t _ ht =>
    Res.andThen_keeps (ht.trans (writeTxn_busOnly _ _ _ t)) fun _ u _ hu => hu.trans (writeTxn_busOnly _ _ _ u)

theorem clearDevice_busOnly (d : Nat) (s : State) : BusOnly s (clearDevice d s).state :=
  forEach_keeps _ s (BusOnly.refl s) fun _ _ _ ht => ht.trans (writeTxn_busOnly _ _ _ _)

end Sys2Proof.Machine
end

