-- ==== Sys2Proof/Laws/Wire.lean ====
section
/-! SUPPORT. The units of the three frames decode to what the block means by them, and what the chips are like after
each frame (30_encoding.md R121-R124, 20_memory.md R99). -/

namespace Sys2Proof.Machine

/-- Bit i of a unit. -/
theorem unit_getLsbD (a d : Byte) (i : Nat) :
    (a ++ d : Unit16).getLsbD i = if i < 8 then d.getLsbD i else a.getLsbD (i - 8) :=
  BitVec.getLsbD_append

theorem unitInstr_append (a d : Byte) : unitInstr (a ++ d) = a := by
  apply BitVec.eq_of_getLsbD_eq
  intro i hi
  simp only [unitInstr, BitVec.getLsbD_extractLsb', unit_getLsbD, hi, decide_true, Bool.true_and]
  rw [if_neg (by omega), Nat.add_sub_cancel_left]

theorem unitReg_append (a d : Byte) : unitReg (a ++ d) = a.extractLsb' 1 7 := by
  apply BitVec.eq_of_getLsbD_eq
  intro i hi
  simp only [unitReg, BitVec.getLsbD_extractLsb', unit_getLsbD]
  rw [if_neg (by omega), show 9 + i - 8 = 1 + i by omega]

theorem unitRw_append (a d : Byte) : unitRw (a ++ d) = a.getLsbD 0 := by
  rw [unitRw, unit_getLsbD, if_neg (by omega)]

theorem unitData_append (a d : Byte) : unitData (a ++ d) = d := by
  apply BitVec.eq_of_getLsbD_eq
  intro i hi
  simp only [unitData, BitVec.getLsbD_extractLsb', unit_getLsbD, hi, decide_true, Bool.true_and]
  rw [if_pos (by omega), Nat.zero_add]

/-- A unit with the instruction byte 0xFF decodes to the no-op (30_encoding.md R124). -/
theorem noop_unit (d : Byte) : decodeUnit (noopByte ++ d) = .wireNop := by
  rw [decodeUnit, unitInstr_append, if_pos rfl]

theorem instrByte_facts : ∀ r : Byte, r ≤ regMax → ∀ w : Bool,
    instrByte r w ≠ noopByte ∧ (instrByte r w).getLsbD 0 = w ∧ (instrByte r w).extractLsb' 1 7 = r.setWidth 7 ∧
      (r.setWidth 7 : Reg7) ≤ 0x45#7 := by decide +kernel

/-- The unit of a write decodes to the write. -/
theorem write_unit {r : Byte} (v : Byte) (h : r ≤ regMax) :
    decodeUnit (instrByte r false ++ v) = .wireWr (r.setWidth 7) v := by
  obtain ⟨h1, h2, h3, _⟩ := instrByte_facts r h false
  simp only [decodeUnit, unitInstr_append, h1, unitRw_append, h2, unitReg_append, h3, unitData_append, if_false,
    Bool.false_eq_true]

/-- The unit of a read decodes to the read. -/
theorem read_unit {r : Byte} (v : Byte) (h : r ≤ regMax) :
    decodeUnit (instrByte r true ++ v) = .wireRd (r.setWidth 7) v := by
  obtain ⟨h1, h2, h3, _⟩ := instrByte_facts r h true
  simp only [decodeUnit, unitInstr_append, h1, unitRw_append, h2, unitReg_append, h3, unitData_append, if_false, if_true]

theorem set_drop_zero {α : Type} {l : List α} {k : Nat} (x : α) (h : k < l.length) :
    (l.drop k).set 0 x = x :: l.drop (k + 1) := by
  rw [List.drop_eq_getElem_cons h]
  rfl

/-- After each position has taken its unit, the chips have changed one by one, and every chip's latch is what its unit
says. -/
theorem chipsTake_each {s : State} (hl : s.env.latch.length = s.par.n) (g : Nat → ChipRegs → ChipRegs)
    (c : Nat → Option Reg7)
    (h : ∀ i, i < s.par.n → ∀ t : State, t.par = s.par →
      chipTakes i (stagedUnit s i) t = t.setChips (g i t.env.chips) (t.env.latch.set i (c i))) :
    chipsTake s = s.setChips ((List.range s.par.n).foldl (fun m i => g i m) s.env.chips)
      ((List.range s.par.n).map c) := by
  suffices ∀ k, k ≤ s.par.n →
      (List.range k).foldl (fun t i => chipTakes i (stagedUnit s i) t) s =
        s.setChips ((List.range k).foldl (fun m i => g i m) s.env.chips)
          ((List.range k).map c ++ s.env.latch.drop k) by
    have := this s.par.n (Nat.le_refl _)
    rw [← hl, List.drop_length, List.append_nil] at this
    rw [hl] at this
    exact this
  intro k
  induction k with
  | zero => intro _; rfl
  | succ k ih =>
    intro hk
    have hk' : k < s.env.latch.length := by omega
    simp only [List.range_succ, List.foldl_append, List.foldl_cons, List.foldl_nil, ih (by omega), List.map_append,
      List.map_cons, List.map_nil, List.append_assoc]
    rw [h k (by omega) _ (State.setChips_par s _ _)]
    simp only [State.setChips_env]
    rw [List.set_append_right _ _ (by simp)]
    simp [State.setChips, set_drop_zero (c k) hk']

theorem foldl_range_at {n d : Nat} (g : ChipRegs → ChipRegs) (m : ChipRegs) (h : d < n) :
    (List.range n).foldl (fun m i => if i = d then g m else m) m = g m := by
  suffices ∀ k, (List.range k).foldl (fun m i => if i = d then g m else m) m = if d < k then g m else m by
    rw [this, if_pos h]
  intro k
  induction k with
  | zero => rfl
  | succ k ih =>
    simp only [List.range_succ, List.foldl_append, ih, List.foldl_cons, List.foldl_nil]
    by_cases e : k = d
    · subst e; simp
    · by_cases l : d < k
      · simp [e, l, Nat.lt_succ_of_lt l]
      · have : ¬ d < k + 1 := by omega
        simp [e, l, this]

theorem foldl_range_id (n : Nat) (m : ChipRegs) : (List.range n).foldl (fun m _ => m) m = m := by
  induction n with
  | zero => rfl
  | succ n ih => simp only [List.range_succ, List.foldl_append, ih, List.foldl_cons, List.foldl_nil]

end Sys2Proof.Machine
end

