-- ==== Sys2Proof/Laws/Transport.lean ====
section
/-! SUPPORT. What the two transactions, and the operations built of them, leave when every bus primitive completes:
one lemma for each, to be cited instead of unfolding it (40_transport.md R151, R152). -/

namespace Sys2Proof.Machine

/-- Bytes sent and answered. -/
def State.sent (s : State) (calls : List BusEvent) (k : Nat) : State :=
  { s with env :=
      { s.env with
        trace := s.env.trace ++ calls
        busIn := s.env.busIn.drop k
        xfers := s.env.xfers + k
        beat := s.env.beat + k } }

theorem tail_tail {α : Type} (l : List α) : l.tail.tail = l.drop 2 := by
  rcases l with _ | ⟨a, _ | ⟨b, l⟩⟩ <;> rfl

/-- The two calls of the unit staged for position i. -/
def stagedCalls (s : State) (i : Nat) : List BusEvent :=
  [.xfer (s.transport.instr.getD i noopByte), .xfer (s.transport.data.getD i noopByte)]

theorem sendUnit_free {i : Nat} {s : State} (h : BusCompletes s) :
    sendUnit i s = .done () (s.sent (stagedCalls s i) 2) := by
  have h1 : BusCompletes (s.record (.xfer (s.transport.instr.getD i noopByte))).answered := h
  simp only [sendUnit, xfer_free h, Res.andThen_done, xfer_free h1]
  simp [State.sent, stagedCalls, State.record, State.answered, tail_tail]

theorem sent_sent (s : State) (a b : List BusEvent) (j k : Nat) :
    (s.sent a j).sent b k = s.sent (a ++ b) (j + k) := by
  simp [State.sent, Nat.add_assoc]

theorem sendUnits_free (l : List Nat) {s : State} (h : BusCompletes s) :
    forEach l sendUnit s = .done () (s.sent (l.flatMap (stagedCalls s)) (2 * l.length)) := by
  induction l generalizing s with
  | nil => simp [forEach, State.sent]
  | cons i l ih =>
    have h1 : BusCompletes (s.sent (stagedCalls s i) 2) := h
    simp only [forEach, sendUnit_free h, Res.andThen_done, ih h1, sent_sent, List.flatMap_cons, List.length_cons]
    have : stagedCalls (s.sent (stagedCalls s i) 2) = stagedCalls s := rfl
    rw [this, show 2 * (l.length + 1) = 2 + 2 * l.length by omega]

/-- The calls of a bracket whose units are the staged ones. -/
def bracketCalls (s : State) : List BusEvent :=
  BusEvent.selAssert :: (List.range s.par.n).flatMap (stagedCalls s) ++ [BusEvent.selDeassert]

theorem bracket_send_free {s : State} (h : BusCompletes s) :
    bracket sendUnit s = .done () (chipsTake (((s.setBeat 0).sent (bracketCalls s) (2 * s.par.n)).setSel false)) := by
  have c : stagedCalls (((s.record .selAssert).setSel true).setBeat 0) = stagedCalls s := rfl
  rw [bracket, selAssert, busCall_free h, Res.andThen_done, Res.andThen_done, sendUnits_free _ (by exact h),
    Res.andThen_done, selDeassert, busCall_free (by exact h), Res.andThen_done]
  simp only [c, List.length_range]
  congr 2
  simp [State.sent, State.record, State.setSel, State.setBeat, bracketCalls]

/-- The k-th byte received from here, while no chip takes a unit. -/
def receivedAt (s : State) (k : Nat) : Byte := (chipReply s (s.env.beat + k)).getD (answerAt s k)

/-- The captured bytes: the second answer of each pair, from where the answers stand (40_transport.md R152). -/
theorem sendUnitCapture_free {i : Nat} {s : State} (h : BusCompletes s) :
    sendUnitCapture i s = .done () ((s.sent (stagedCalls s i) 2).setRx i (receivedAt s 1)) := by
  have h1 : BusCompletes (s.record (.xfer (s.transport.instr.getD i noopByte))).answered := h
  have a : busAnswer (s.record (.xfer (s.transport.instr.getD i noopByte))).answered = receivedAt s 1 := by
    have c : ∀ e b, chipReply (s.record e).answered b = chipReply s b := fun _ _ => rfl
    unfold busAnswer receivedAt
    rw [c]
    congr 1
    unfold envAnswer answerAt
    rcases hb : s.env.busIn with _ | ⟨b, _ | ⟨c, l⟩⟩ <;> simp [State.record, State.answered, hb]
  simp only [sendUnitCapture, xfer_free h, Res.andThen_done, xfer_free h1, a]
  simp [State.sent, stagedCalls, State.record, State.answered, State.setRx, tail_tail]

theorem answerAt_sent (s : State) (calls : List BusEvent) (j k : Nat) :
    answerAt (s.sent calls j) k = answerAt s (j + k) := by
  simp [answerAt, State.sent, Nat.add_assoc]

theorem receivedAt_sent (s : State) (calls : List BusEvent) (j k : Nat) :
    receivedAt (s.sent calls j) k = receivedAt s (j + k) := by
  have c : ∀ b, chipReply (s.sent calls j) b = chipReply s b := fun _ => rfl
  rw [receivedAt, answerAt_sent, c, receivedAt]
  simp [State.sent, Nat.add_assoc]

/-- The receive buffer replaced. -/
def State.withRx (s : State) (l : List Byte) : State := { s with transport := { s.transport with rx := l } }

theorem forEach_append {α : Type} (f : α → State → Res Unit) (l m : List α) (s : State) :
    forEach (l ++ m) f s = (forEach l f s).andThen fun _ t => forEach m f t := by
  induction l generalizing s with
  | nil => rfl
  | cons x l ih =>
    simp only [List.cons_append, forEach]
    cases f x s with
    | done a u => simpa using ih u
    | hung u => rfl

/-- The bytes of the first k positions are captured, the rest of rx is as before. -/
theorem captureUnits_free {s : State} (h : BusCompletes s) (k : Nat) (hr : k ≤ s.transport.rx.length) :
    forEach (List.range k) sendUnitCapture s =
      .done () ((s.sent ((List.range k).flatMap (stagedCalls s)) (2 * k)).withRx
        ((List.range k).map (fun i => receivedAt s (2 * i + 1)) ++ s.transport.rx.drop k)) := by
  induction k with
  | zero => simp [forEach, State.sent, State.withRx]
  | succ k ih =>
    have hk : k < s.transport.rx.length := by omega
    have e : ∀ C R, receivedAt ((s.sent C (2 * k)).withRx R) 1 = receivedAt s (2 * k + 1) := fun C R =>
      receivedAt_sent s C (2 * k) 1
    have c : ∀ C j R, stagedCalls ((s.sent C j).withRx R) = stagedCalls s := fun _ _ _ => rfl
    rw [List.range_succ, forEach_append, ih (by omega), Res.andThen_done, forEach, sendUnitCapture_free (by exact h),
      Res.andThen_done, e, c, forEach]
    simp only [State.withRx, State.setRx, State.sent, List.append_assoc]
    rw [List.set_append_right _ _ (by simp)]
    simp [set_drop_zero _ hk, Nat.add_assoc, Nat.mul_add]

theorem bracket_capture_free {s : State} (h : BusCompletes s) (hr : s.transport.rx.length = s.par.n) :
    bracket sendUnitCapture s =
      .done () (chipsTake ((((s.setBeat 0).sent (bracketCalls s) (2 * s.par.n)).withRx
        ((List.range s.par.n).map fun i => (chipReply s (2 * i + 1)).getD (answerAt s (2 * i + 1)))).setSel false)) := by
  have d : s.transport.rx.drop s.par.n = [] := by rw [← hr, List.drop_length]
  have e : ∀ j, receivedAt (((s.record .selAssert).setSel true).setBeat 0) j = (chipReply s j).getD (answerAt s j) :=
    fun j => by
      show (chipReply s (0 + j)).getD (answerAt s j) = _
      rw [Nat.zero_add]
  have c : stagedCalls (((s.record .selAssert).setSel true).setBeat 0) = stagedCalls s := rfl
  rw [bracket, selAssert, busCall_free h, Res.andThen_done, Res.andThen_done, captureUnits_free (by exact h) _ (by exact hr.ge),
    Res.andThen_done, selDeassert, busCall_free (by exact h), Res.andThen_done]
  simp only [e, c]
  congr 2
  simp [State.sent, State.record, State.setSel, State.setBeat, State.withRx, bracketCalls, d]

/-! ### Staged frames -/

theorem getD_replicate_set (n d i : Nat) (x : Byte) (h : i < n) :
    ((List.replicate n noopByte).set d x).getD i noopByte = if i = d then x else 0xFF#8 := by
  rw [List.getD_eq_getElem?_getD, List.getElem?_set]
  by_cases e : d = i
  · subst e; simp [h]
  · simp [e, Ne.symm e, h, noopByte]

theorem getD_replicate (n i : Nat) (x : Byte) (h : i < n) : (List.replicate n x).getD i noopByte = x := by
  simp [List.getD_eq_getElem?_getD, h]

theorem flatMap_range_congr {α : Type} {n : Nat} {f g : Nat → List α} (h : ∀ i, i < n → f i = g i) :
    (List.range n).flatMap f = (List.range n).flatMap g := by
  rw [List.flatMap_def, List.flatMap_def, List.map_congr_left fun i hi => h i (List.mem_range.mp hi)]

theorem instrByte_write (r : Byte) : instrByte r false = r <<< 1 := by simp [instrByte]

theorem instrByte_read (r : Byte) : instrByte r true = (r <<< 1) ||| 1#8 := by simp [instrByte]

theorem bracketCalls_write (d : Nat) (r v : Byte) (s : State) :
    bracketCalls (stageWrite d r v s) = writeFrame s.par.n d r v := by
  unfold bracketCalls writeFrame frame
  congr 2
  refine flatMap_range_congr fun i hi => ?_
  have hi' : i < s.par.n := hi
  simp only [stagedCalls, stageWrite, State.stage, getD_replicate_set _ _ _ _ hi', instrByte_write]
  split <;> rfl

theorem bracketCalls_read (r : Byte) (s : State) : bracketCalls (stageRead r s) = readFrame s.par.n r := by
  unfold bracketCalls readFrame frame
  congr 2
  refine flatMap_range_congr fun i hi => ?_
  have hi' : i < s.par.n := hi
  simp only [stagedCalls, stageRead, State.stage, getD_replicate _ _ _ hi', instrByte_read]
  rfl

theorem bracketCalls_idle (s : State) : bracketCalls (stageIdle s) = idleFrame s.par.n := by
  unfold bracketCalls idleFrame frame
  congr 2
  refine flatMap_range_congr fun i hi => ?_
  have hi' : i < s.par.n := hi
  simp only [stagedCalls, stageIdle, State.stage, getD_replicate _ _ _ hi']
  rfl

/-! ### The chips at the end of each frame -/

/-- The chips after a write frame for (d, r, v). -/
theorem chipsTake_write {d : Nat} {r v : Byte} {s : State} (hl : s.env.latch.length = s.par.n) (hd : d < s.par.n)
    (hr : r ≤ regMax) (hi : s.transport.instr = (List.replicate s.par.n noopByte).set d (instrByte r false))
    (hv : s.transport.data = (List.replicate s.par.n noopByte).set d v) :
    chipsTake s = s.setChips (chipStore s.env.chips d (r.setWidth 7) v) (List.replicate s.par.n none) := by
  rw [chipsTake_each hl (fun i m => if i = d then chipStore m d (r.setWidth 7) v else m) fun _ => none,
    foldl_range_at (fun m => chipStore m d (r.setWidth 7) v) _ hd, List.map_const', List.length_range]
  intro i hn t ht
  simp only [stagedUnit, hi, hv, getD_replicate_set _ _ _ _ hn]
  by_cases e : i = d
  · simp only [e, if_true, chipTakes, write_unit v hr, chipWrite, ht, hd]
  · simp only [e, if_false, chipTakes, show decodeUnit (0xFF#8 ++ 0xFF#8) = _ from noop_unit _, chipIdle, ht, hn, if_true]

/-- The chips after a read's first burst. -/
theorem chipsTake_read {r : Byte} {s : State} (hl : s.env.latch.length = s.par.n) (hr : r ≤ regMax)
    (hi : s.transport.instr = List.replicate s.par.n (instrByte r true))
    (hv : s.transport.data = List.replicate s.par.n dummyByte) :
    chipsTake s = s.setChips s.env.chips (List.replicate s.par.n (some (r.setWidth 7))) := by
  rw [chipsTake_each hl (fun _ m => m) fun _ => some (r.setWidth 7), foldl_range_id, List.map_const',
    List.length_range]
  intro i hn t ht
  simp only [stagedUnit, hi, hv, getD_replicate _ _ _ hn, chipTakes, read_unit dummyByte hr, chipLatch, ht, hn, if_true]

/-- The chips after a read's second burst. -/
theorem chipsTake_idle {s : State} (hl : s.env.latch.length = s.par.n)
    (hi : s.transport.instr = List.replicate s.par.n noopByte)
    (hv : s.transport.data = List.replicate s.par.n noopByte) :
    chipsTake s = s.setChips s.env.chips (List.replicate s.par.n none) := by
  rw [chipsTake_each hl (fun _ m => m) fun _ => none, foldl_range_id, List.map_const', List.length_range]
  intro i hn t ht
  simp only [stagedUnit, hi, hv, getD_replicate _ _ _ hn, chipTakes, noop_unit, chipIdle, ht, hn, if_true]

/-! ### The transactions -/

/-- WriteTxn when every bus primitive completes (40_transport.md R151). -/
theorem writeTxn_free {d : Nat} {r v : Byte} {s : State} (h : BusCompletes s) (hl : s.env.latch.length = s.par.n)
    (hd : d < s.par.n) (hr : r ≤ regMax) : writeTxn d r v s = .done () (s.wrote d r v) := by
  rw [writeTxn, bracket_send_free (by exact h), bracketCalls_write,
    chipsTake_write (s := (((stageWrite d r v s).setBeat 0).sent _ _).setSel false) hl hd hr rfl rfl]
  simp only [State.setChips, State.setSel, State.setBeat, State.sent, stageWrite, State.stage, State.wrote,
    instrByte_write, noopByte, Nat.zero_add]

/-- What a read's first burst leaves. -/
def State.readBurst (s : State) (r : Byte) : State :=
  { s with
    transport :=
      { s.transport with
        instr := List.replicate s.par.n (instrByte r true)
        data := List.replicate s.par.n dummyByte
        sel := false }
    env :=
      { s.env with
        trace := s.env.trace ++ readFrame s.par.n r
        busIn := s.env.busIn.drop (2 * s.par.n)
        xfers := s.env.xfers + 2 * s.par.n
        latch := List.replicate s.par.n (some (r.setWidth 7))
        beat := 2 * s.par.n } }

theorem readBurst_free {r : Byte} {s : State} (h : BusCompletes s) (hl : s.env.latch.length = s.par.n)
    (hr : r ≤ regMax) : bracket sendUnit (stageRead r s) = .done () (s.readBurst r) := by
  rw [bracket_send_free (by exact h), bracketCalls_read, chipsTake_read
    (s := (((stageRead r s).setBeat 0).sent _ _).setSel false) hl hr rfl rfl]
  simp only [State.setChips, State.setSel, State.setBeat, State.sent, stageRead, State.stage, State.readBurst,
    Nat.zero_add]

/-- What a read's second burst leaves. -/
def State.captureBurst (s : State) : State :=
  { s with
    transport :=
      { instr := List.replicate s.par.n noopByte
        data := List.replicate s.par.n noopByte
        rx := (List.range s.par.n).map fun i => (chipReply s (2 * i + 1)).getD (answerAt s (2 * i + 1))
        sel := false }
    env :=
      { s.env with
        trace := s.env.trace ++ idleFrame s.par.n
        busIn := s.env.busIn.drop (2 * s.par.n)
        xfers := s.env.xfers + 2 * s.par.n
        latch := List.replicate s.par.n none
        beat := 2 * s.par.n } }

theorem captureBurst_free {s : State} (h : BusCompletes s) (hx : s.transport.rx.length = s.par.n)
    (hl : s.env.latch.length = s.par.n) : bracket sendUnitCapture (stageIdle s) = .done () s.captureBurst := by
  rw [bracket_capture_free (by exact h) (by exact hx), bracketCalls_idle,
    chipsTake_idle (s := ((((stageIdle s).setBeat 0).sent _ _).withRx _).setSel false) hl rfl rfl]
  have e : ∀ j, answerAt (stageIdle s) j = answerAt s j := fun _ => rfl
  have c : ∀ j, chipReply (stageIdle s) j = chipReply s j := fun _ => rfl
  simp only [e, c]
  simp only [State.setChips, State.setSel, State.setBeat, State.sent, State.withRx, stageIdle, State.stage,
    State.captureBurst, Nat.zero_add]

/-- After a read's first burst each chip has the register latched: the reply in the second byte of its unit is the
register's (20_memory.md R99). -/
theorem chipReply_readBurst {r : Byte} {s : State} {i : Nat} (hr : r ≤ regMax) (hi : i < s.par.n) :
    chipReply (s.readBurst r) (2 * i + 1) = regReply s i r.toNat := by
  have hr' : (r.setWidth 7 : Reg7).toNat = r.toNat := by
    have : r.toNat ≤ 69 := hr
    rw [BitVec.toNat_setWidth, Nat.mod_eq_of_lt (by omega)]
  rw [chipReply, if_pos (by omega), show (2 * i + 1) / 2 = i by omega]
  simp only [State.readBurst, List.getD_eq_getElem?_getD, List.getElem?_replicate, hi, if_true, Option.getD_some,
    Option.bind_some, hr']
  rfl

/-- ReadTxn when every bus primitive completes (40_transport.md R152). -/
theorem readTxn_free {r : Byte} {s : State} (h : BusCompletes s) (hx : s.transport.rx.length = s.par.n)
    (hl : s.env.latch.length = s.par.n) (hr : r ≤ regMax) : readTxn r s = .done () (s.hasRead r) := by
  rw [readTxn, readBurst_free h hl hr, Res.andThen_done,
    captureBurst_free (by exact h) (by exact hx) (by simp [State.readBurst])]
  congr 1
  have e : ∀ j, answerAt (s.readBurst r) j = answerAt s (2 * s.par.n + j) := fun j => by
    simp [answerAt, State.readBurst, Nat.add_assoc]
  have c : (List.range s.par.n).map (fun i =>
      (chipReply (s.readBurst r) (2 * i + 1)).getD (answerAt s (2 * s.par.n + (2 * i + 1)))) =
      (List.range s.par.n).map (readAnswer s r) :=
    List.map_congr_left fun i hi => by rw [chipReply_readBurst hr (List.mem_range.mp hi)]; rfl
  have p : (s.readBurst r).par = s.par := rfl
  simp only [State.captureBurst, e, p, c]
  simp only [State.readBurst, State.hasRead, noopByte, List.append_assoc, List.drop_drop, Nat.add_assoc,
    show 4 * s.par.n = 2 * s.par.n + 2 * s.par.n by omega]

end Sys2Proof.Machine
end

