-- ==== Sys2Proof/Laws/Channels.lean ====
section
/-! SUPPORT. The channel map against its table, and what PushRGB and the clearing of a device leave when every bus
primitive completes (41_channel_map.md R181-R185, R195). -/

namespace Sys2Proof.Machine

theorem pwmReg_chanOff : ∀ slot, slot < 5 → ∀ color, color < 4 → color < 3 ∨ (slot = 4 ∧ color = 3) →
    pwmReg (chanOff slot color) = dutyAddr slot color := by decide

theorem irefReg_chanOff : ∀ slot, slot < 5 → ∀ color, color < 4 → color < 3 ∨ (slot = 4 ∧ color = 3) →
    irefReg (chanOff slot color) = gainAddr slot color := by decide

theorem dutyAddr_le : ∀ slot, slot < 5 → ∀ color, color < 4 → dutyAddr slot color ≤ regMax := by decide

theorem gainAddr_le : ∀ slot, slot < 5 → ∀ color, color < 4 → gainAddr slot color ≤ regMax := by decide

theorem pwmReg_le : ∀ k, k < 16 → pwmReg k ≤ regMax := by decide

/-- A write keeps what a later transaction asks for. -/
theorem wrote_ready (s : State) (d : Nat) (r v : Byte) :
    (s.wrote d r v).par = s.par ∧ (s.wrote d r v).env.hangIn = s.env.hangIn ∧
      (s.wrote d r v).env.latch.length = s.par.n := by
  simp [State.wrote]

theorem setPW_free {d slot color : Nat} {v : Byte} {s : State} (h : BusCompletes s)
    (hl : s.env.latch.length = s.par.n) (hd : d < s.par.n) (hs : slot < 5)
    (hc : color < 3 ∨ (slot = 4 ∧ color = 3)) : setPW d slot color v s = .done () (s.wrote d (dutyAddr slot color) v) := by
  rw [setPW, pwmReg_chanOff slot hs color (by omega) hc, writeTxn_free h hl hd (dutyAddr_le slot hs color (by omega))]

/-- PushRGB when every bus primitive completes (41_channel_map.md R185). -/
theorem pushRGB_free {d slot : Nat} {r g b : Byte} {s : State} (h : BusCompletes s)
    (hl : s.env.latch.length = s.par.n) (hd : d < s.par.n) (hs : slot < 5) :
    pushRGB d slot r g b s = .done () (s.pushed d slot r g b) := by
  rw [pushRGB, setPW_free h hl hd hs (.inl (by omega)), Res.andThen_done,
    setPW_free (by exact h) (wrote_ready s d _ r).2.2 hd hs (.inl (by omega)), Res.andThen_done,
    setPW_free (by exact h) (wrote_ready (s.wrote d _ r) d _ g).2.2 hd hs (.inl (by omega))]
  rfl

/-- The sixteen writes of one device when every bus primitive completes (41_channel_map.md R195). -/
theorem clearDevice_free {d : Nat} {s : State} (h : BusCompletes s) (hl : s.env.latch.length = s.par.n)
    (hd : d < s.par.n) :
    clearDevice d s = .done () ((List.range 16).foldl (fun t k => t.wrote d (0x08#8 + BitVec.ofNat 8 k) 0#8) s) :=
  (forEach_done (P := fun t => t.par = s.par ∧ t.env.hangIn = none ∧ t.env.latch.length = s.par.n) _ s ⟨rfl, h, hl⟩
    fun k hk t ⟨hp, hh, ht⟩ => by
      have hk' : k < 16 := List.mem_range.mp hk
      refine ⟨writeTxn_free hh (by rw [ht, hp]) (by rw [hp]; exact hd) (pwmReg_le k hk'), ?_⟩
      obtain ⟨a, b, c⟩ := wrote_ready t d (0x08#8 + BitVec.ofNat 8 k) 0#8
      exact ⟨a.trans hp, b.trans hh, by rw [c, hp]⟩).1

/-- The chips after a write keep their canonical form. -/
theorem wrote_chips_wf (s : State) (d : Nat) (r v : Byte) (h : Memory.wf s.env.chips.bytes = true) :
    Memory.wf (s.wrote d r v).env.chips.bytes = true := chipStore_wf d _ v h

end Sys2Proof.Machine
end

