-- ==== Sys2Proof/Laws/Keeps.lean ====
section
/-! SUPPORT. What every piece of an operation on the bus keeps, whether it ends or hangs: the lengths of the buffers and
of the latches and the canonical form of the chips' registers (10_state.md R51 (a)); and that a transaction that ends has
deasserted the select line. -/

namespace Sys2Proof.Machine

/-- `t` is `s` but for the transport and the bus side of the environment; the three buffers and the latches keep their
lengths (a staging buffer may be staged anew for the whole chain), and the chips' registers keep their canonical form. -/
structure BusKeeps (s t : State) : Prop where
  only : BusOnly s t
  instr : t.transport.instr.length = s.transport.instr.length ∨ t.transport.instr.length = s.par.n
  data : t.transport.data.length = s.transport.data.length ∨ t.transport.data.length = s.par.n
  rx : t.transport.rx.length = s.transport.rx.length
  latch : t.env.latch.length = s.env.latch.length
  chips : Memory.wf s.env.chips.bytes = true → Memory.wf t.env.chips.bytes = true

theorem BusKeeps.refl (s : State) : BusKeeps s s := ⟨BusOnly.refl s, .inl rfl, .inl rfl, rfl, rfl, id⟩

theorem BusKeeps.trans {s t u : State} (a : BusKeeps s t) (b : BusKeeps t u) : BusKeeps s u := by
  refine ⟨a.only.trans b.only, ?_, ?_, b.rx.trans a.rx, b.latch.trans a.latch, fun h => b.chips (a.chips h)⟩
  · have := a.only.par; rcases b.instr with h | h <;> rcases a.instr with h' | h' <;> simp_all
  · have := a.only.par; rcases b.data with h | h <;> rcases a.data with h' | h' <;> simp_all

theorem busKeeps_of {s t : State} (h : BusOnly s t) (h1 : t.transport.instr = s.transport.instr)
    (h2 : t.transport.data = s.transport.data) (h3 : t.transport.rx.length = s.transport.rx.length)
    (h4 : t.env.latch.length = s.env.latch.length) (h5 : t.env.chips = s.env.chips) : BusKeeps s t :=
  ⟨h, .inl (by rw [h1]), .inl (by rw [h2]), h3, h4, by rw [h5]; exact id⟩

theorem busOnly_of {s t : State} (a : t.par = s.par) (b : t.window = s.window) (c : t.engine = s.engine)
    (d : t.seq = s.seq)
    (e : ∃ b x h c m l k, t.env =
      { s.env with busIn := b, xfers := x, hangIn := h, trace := c, chips := m, latch := l, beat := k }) :
    BusOnly s t := by
  obtain ⟨_, _, _, _, _, _, _, e⟩ := e
  exact ⟨a, b, c, d, by rw [e], by rw [e], by rw [e], by rw [e], by rw [e], by rw [e], by rw [e], by rw [e]⟩

theorem busCall_keepsShape (e : BusEvent) (s : State) : BusKeeps s (busCall e s).state :=
  busCall_keeps (P := BusKeeps s) fun _ =>
    busKeeps_of (busOnly_of rfl rfl rfl rfl ⟨_, _, _, _, _, _, _, rfl⟩) rfl rfl rfl rfl rfl

theorem chipTakes_keep (p : Nat) (u : Unit16) (s : State) : ∃ m l,
    chipTakes p u s = s.setChips m l ∧ l.length = s.env.latch.length ∧ (Memory.wf s.env.chips.bytes = true → Memory.wf m.bytes = true) := by
  unfold chipTakes
  split <;> (try exact ⟨s.env.chips, s.env.latch, rfl, rfl, id⟩)
  · unfold chipIdle; split
    · exact ⟨_, _, rfl, by simp, id⟩
    · exact ⟨s.env.chips, s.env.latch, rfl, rfl, id⟩
  · unfold chipWrite; split
    · exact ⟨_, _, rfl, by simp, chipStore_wf _ _ _⟩
    · exact ⟨s.env.chips, s.env.latch, rfl, rfl, id⟩
  · unfold chipLatch; split
    · exact ⟨_, _, rfl, by simp, id⟩
    · exact ⟨s.env.chips, s.env.latch, rfl, rfl, id⟩

theorem chipsTake_keep (s : State) : ∃ m l,
    chipsTake s = s.setChips m l ∧ l.length = s.env.latch.length ∧ (Memory.wf s.env.chips.bytes = true → Memory.wf m.bytes = true) := by
  unfold chipsTake
  generalize List.range s.par.n = l
  suffices ∀ t : State,
      (∃ m l, t = s.setChips m l ∧ l.length = s.env.latch.length ∧
        (Memory.wf s.env.chips.bytes = true → Memory.wf m.bytes = true)) →
      ∃ m k, l.foldl (fun t i => chipTakes i (stagedUnit s i) t) t = s.setChips m k ∧
        k.length = s.env.latch.length ∧ (Memory.wf s.env.chips.bytes = true → Memory.wf m.bytes = true) from
    this s ⟨s.env.chips, s.env.latch, rfl, rfl, id⟩
  induction l with
  | nil => exact fun t h => h
  | cons i l ih =>
    rintro t ⟨m, k, rfl, hl, hw⟩
    obtain ⟨m', k', h, hl', hw'⟩ := chipTakes_keep i (stagedUnit s i) (s.setChips m k)
    exact ih _ ⟨m', k', h, hl'.trans hl, fun h => hw' (hw h)⟩

theorem selAssert_keepsShape (s : State) : BusKeeps s (selAssert s).state :=
  Res.andThen_keeps (P := BusKeeps s) (busCall_keepsShape _ s)
    fun _ _ _ ht => ht.trans (busKeeps_of (busOnly_of rfl rfl rfl rfl ⟨_, _, _, _, _, _, _, rfl⟩) rfl rfl rfl rfl rfl)

theorem selDeassert_keepsShape (s : State) : BusKeeps s (selDeassert s).state := by
  refine Res.andThen_keeps (P := BusKeeps s) (busCall_keepsShape _ s) fun _ t _ ht => ?_
  obtain ⟨m, l, h, hl, hw⟩ := chipsTake_keep (t.setSel false)
  simp only [Res.state_done, h]
  exact ht.trans ⟨busOnly_of rfl rfl rfl rfl ⟨_, _, _, _, _, _, _, rfl⟩, .inl rfl, .inl rfl, rfl, hl, hw⟩

theorem xfer_keepsShape (b : Byte) (s : State) : BusKeeps s (xfer b s).state :=
  Res.andThen_keeps (P := BusKeeps s) (busCall_keepsShape _ s)
    fun _ _ _ ht => ht.trans (busKeeps_of (busOnly_of rfl rfl rfl rfl ⟨_, _, _, _, _, _, _, rfl⟩) rfl rfl rfl rfl rfl)

theorem sendUnit_keepsShape (i : Nat) (s : State) : BusKeeps s (sendUnit i s).state :=
  Res.andThen_keeps (xfer_keepsShape _ s) fun _ t _ ht =>
    Res.andThen_keeps (ht.trans (xfer_keepsShape _ t)) fun _ _ _ hu => hu

theorem sendUnitCapture_keepsShape (i : Nat) (s : State) : BusKeeps s (sendUnitCapture i s).state :=
  Res.andThen_keeps (xfer_keepsShape _ s) fun _ t _ ht =>
    Res.andThen_keeps (ht.trans (xfer_keepsShape _ t)) fun _ _ _ hu =>
      hu.trans (busKeeps_of (busOnly_of rfl rfl rfl rfl ⟨_, _, _, _, _, _, _, rfl⟩) rfl rfl (by simp) rfl rfl)

theorem bracket_keepsShape {unit : Nat → State → Res Unit} (h : ∀ i t, BusKeeps t (unit i t).state) (s : State) :
    BusKeeps s (bracket unit s).state :=
  Res.andThen_keeps (selAssert_keepsShape s) fun _ t _ ht =>
    Res.andThen_keeps (forEach_keeps _ t ht fun i _ u hu => hu.trans (h i u)) fun _ u _ hu =>
      hu.trans (selDeassert_keepsShape u)

theorem stage_keepsShape (s : State) (i d : List Byte) (hi : i.length = s.par.n) (hd : d.length = s.par.n) :
    BusKeeps s (s.stage i d) :=
  ⟨busOnly_of rfl rfl rfl rfl ⟨_, _, _, _, _, _, _, rfl⟩, .inr hi, .inr hd, rfl, rfl, id⟩

theorem writeTxn_keepsShape (d : Nat) (reg v : Byte) (s : State) : BusKeeps s (writeTxn d reg v s).state :=
  BusKeeps.trans (t := stageWrite d reg v s) (stage_keepsShape _ _ _ (by simp) (by simp))
    (bracket_keepsShape sendUnit_keepsShape _)

theorem readTxn_keepsShape (reg : Byte) (s : State) : BusKeeps s (readTxn reg s).state :=
  Res.andThen_keeps
    (BusKeeps.trans (t := stageRead reg s) (stage_keepsShape _ _ _ (by simp) (by simp))
      (bracket_keepsShape sendUnit_keepsShape _))
    fun _ t _ ht =>
      ht.trans (BusKeeps.trans (t := stageIdle t) (stage_keepsShape _ _ _ (by simp) (by simp))
        (bracket_keepsShape sendUnitCapture_keepsShape _))

/-- A transaction that has ended has deasserted the select line (10_state.md R55). -/
theorem bracket_sel {unit : Nat → State → Res Unit} {s t : State} (h : bracket unit s = .done () t) :
    t.transport.sel = false := by
  unfold bracket at h
  cases h1 : selAssert s with
  | hung u => simp [h1] at h
  | done a u =>
    rw [h1, Res.andThen_done] at h
    cases h2 : forEach (List.range s.par.n) unit u with
    | hung v => rw [h2] at h; simp at h
    | done b v =>
      rw [h2, Res.andThen_done] at h
      unfold selDeassert at h
      cases h3 : busCall .selDeassert v with
      | hung w => rw [h3] at h; simp at h
      | done c w =>
        rw [h3, Res.andThen_done] at h
        simp only [Res.done.injEq, true_and] at h
        obtain ⟨m, l, h', -⟩ := chipsTake_keep (w.setSel false)
        rw [← h, h']; rfl

theorem writeTxn_sel {d : Nat} {r v : Byte} {s t : State} (h : writeTxn d r v s = .done () t) :
    t.transport.sel = false := bracket_sel h

theorem readTxn_sel {r : Byte} {s t : State} (h : readTxn r s = .done () t) : t.transport.sel = false := by
  unfold readTxn at h
  cases h1 : bracket sendUnit (stageRead r s) with
  | hung u => simp [h1] at h
  | done a u => rw [h1] at h; exact bracket_sel h

end Sys2Proof.Machine
end

