-- ==== Sys2Proof/Laws/PerInstr.lean ====
section
/-! SUPPORT. The fields of an encoded command, and for every instruction: its words match its row of
spec/opcode_table.json, once the fields its opcode does not use are zero. -/

namespace Sys2Proof

/-- Bit i of a command word. -/
theorem cmdWordOf_getLsbD (op dev a b : Byte) (i : Nat) :
    (cmdWordOf op dev a b).getLsbD i =
      if i < 8 then b.getLsbD i
      else if i < 16 then a.getLsbD (i - 8)
      else if i < 24 then dev.getLsbD (i - 16)
      else op.getLsbD (i - 24) := by
  have h1 : (cmdWordOf op dev a b).getLsbD i =
      if i < 8 then b.getLsbD i else (op ++ dev ++ a).getLsbD (i - 8) := BitVec.getLsbD_append
  have h2 : (op ++ dev ++ a).getLsbD (i - 8) =
      if i - 8 < 8 then a.getLsbD (i - 8) else (op ++ dev).getLsbD (i - 8 - 8) := BitVec.getLsbD_append
  have h3 : (op ++ dev).getLsbD (i - 8 - 8) =
      if i - 8 - 8 < 8 then dev.getLsbD (i - 8 - 8) else op.getLsbD (i - 8 - 8 - 8) := BitVec.getLsbD_append
  rw [h1, h2, h3]
  have e1 : i - 8 - 8 = i - 16 := by omega
  by_cases c1 : i < 8
  · simp [c1]
  · by_cases c2 : i < 16
    · simp [c1, c2, show i - 8 < 8 by omega]
    · by_cases c3 : i < 24
      · simp [c1, c2, c3, show ¬ i - 8 < 8 by omega, e1, show i - 16 < 8 by omega]
      · simp [c1, c2, c3, show ¬ i - 8 < 8 by omega, e1, show ¬ i - 16 < 8 by omega,
          show i - 16 - 8 = i - 24 by omega]

theorem opField_cmdWordOf (op dev a b : Byte) : opField (cmdWordOf op dev a b) = op := by
  apply BitVec.eq_of_getLsbD_eq
  intro i hi
  simp only [opField, BitVec.getLsbD_extractLsb', cmdWordOf_getLsbD, hi, decide_true, Bool.true_and]
  rw [if_neg (by omega), if_neg (by omega), if_neg (by omega), show 24 + i - 24 = i by omega]

theorem devField_cmdWordOf (op dev a b : Byte) : devField (cmdWordOf op dev a b) = dev := by
  apply BitVec.eq_of_getLsbD_eq
  intro i hi
  simp only [devField, BitVec.getLsbD_extractLsb', cmdWordOf_getLsbD, hi, decide_true, Bool.true_and]
  rw [if_neg (by omega), if_neg (by omega), if_pos (by omega), show 16 + i - 16 = i by omega]

theorem aField_cmdWordOf (op dev a b : Byte) : aField (cmdWordOf op dev a b) = a := by
  apply BitVec.eq_of_getLsbD_eq
  intro i hi
  simp only [aField, BitVec.getLsbD_extractLsb', cmdWordOf_getLsbD, hi, decide_true, Bool.true_and]
  rw [if_neg (by omega), if_pos (by omega), show 8 + i - 8 = i by omega]

theorem bField_cmdWordOf (op dev a b : Byte) : bField (cmdWordOf op dev a b) = b := by
  apply BitVec.eq_of_getLsbD_eq
  intro i hi
  simp only [bField, BitVec.getLsbD_extractLsb', cmdWordOf_getLsbD, hi, decide_true, Bool.true_and]
  rw [if_pos (by omega), show 0 + i = i by omega]

theorem unitOf_rw (r : Reg7) (w : Bool) (d : Byte) : unitRw (unitOf r w d) = w := by
  have h : (unitOf r w d).getLsbD 8 = if 8 < 8 then d.getLsbD 8 else (r ++ BitVec.ofBool w).getLsbD (8 - 8) :=
    BitVec.getLsbD_append
  have g : (r ++ BitVec.ofBool w).getLsbD (8 - 8) =
      if 8 - 8 < 1 then (BitVec.ofBool w).getLsbD (8 - 8) else r.getLsbD (8 - 8 - 1) := BitVec.getLsbD_append
  rw [unitRw, h, if_neg (by omega), g, if_pos (by omega)]
  cases w <;> rfl

namespace Laws.TableRow

/-- The fixed bits of the row of spec/opcode_table.json that an instruction stands for, field by field. The range of
RESERVED_OP is not one match and mask, and the internal operations have no pattern. -/
def fixedBits : Instr → Words → Bool
  | .nop .., .command c _ => opField c == 0x00#8 && devField c == 0#8 && aField c == 0#8 && bField c == 0#8
  | .write .., .command c _ => opField c == 0x01#8 && bField c == 0#8
  | .read .., .command c _ => opField c == 0x02#8 && devField c == 0#8 && bField c == 0#8
  | .setPw .., .command c _ => opField c == 0x03#8
  | .setGain .., .command c _ => opField c == 0x04#8
  | .clearCh .., .command c _ => opField c == 0x05#8 && aField c == 0#8 && bField c == 0#8
  | .clearAll .., .command c _ => opField c == 0x06#8 && devField c == 0#8 && aField c == 0#8 && bField c == 0#8
  | .engStart .., .command c _ => opField c == 0x07#8 && devField c == 0#8 && aField c == 0#8 && bField c == 0#8
  | .engStop .., .command c _ => opField c == 0x08#8 && devField c == 0#8 && aField c == 0#8 && bField c == 0#8
  | .qTherm .., .command c _ => opField c == 0x09#8 && aField c == 0#8 && bField c == 0#8
  | .qErr .., .command c _ => opField c == 0x0A#8 && aField c == 0#8 && bField c == 0#8
  | .reservedOp .., .command c _ => decide (0x0B#8 ≤ opField c)
  | .wireNop, .wireUnit u => u == 0xFFFF#16
  | .wireWr .., .wireUnit u => !unitRw u
  | .wireRd .., .wireUnit u => unitRw u
  | _, _ => false

/-- An instruction that words of its own stand for, and whose unused fields are zero, has words that match its row. -/
def Statement (i : Instr) : Prop :=
  i.wf = true → i.reservedClear = true → ∀ ws, encode i = some ws → fixedBits i ws = true

theorem nop (dev a b : Byte) : Statement (.nop dev a b) := fun _ h ws e => by
  cases e
  simpa [fixedBits, opField_cmdWordOf, devField_cmdWordOf, aField_cmdWordOf, bField_cmdWordOf, Instr.reservedClear] using h

theorem write (dev reg b val : Byte) : Statement (.write dev reg b val) := fun _ h ws e => by
  cases e
  simpa [fixedBits, opField_cmdWordOf, bField_cmdWordOf, Instr.reservedClear] using h

theorem read (dev reg b : Byte) : Statement (.read dev reg b) := fun _ h ws e => by
  cases e
  simpa [fixedBits, opField_cmdWordOf, devField_cmdWordOf, bField_cmdWordOf, Instr.reservedClear] using h

theorem setPw (dev slot color duty : Byte) : Statement (.setPw dev slot color duty) := fun _ _ ws e => by
  cases e
  simp [fixedBits, opField_cmdWordOf]

theorem setGain (dev slot color : Byte) (f : F32) : Statement (.setGain dev slot color f) := fun _ _ ws e => by
  cases e
  simp [fixedBits, opField_cmdWordOf]

theorem clearCh (dev a b : Byte) : Statement (.clearCh dev a b) := fun _ h ws e => by
  cases e
  simpa [fixedBits, opField_cmdWordOf, aField_cmdWordOf, bField_cmdWordOf, Instr.reservedClear] using h

theorem clearAll (dev a b : Byte) : Statement (.clearAll dev a b) := fun _ h ws e => by
  cases e
  simpa [fixedBits, opField_cmdWordOf, devField_cmdWordOf, aField_cmdWordOf, bField_cmdWordOf, Instr.reservedClear] using h

theorem engStart (dev a b : Byte) : Statement (.engStart dev a b) := fun _ h ws e => by
  cases e
  simpa [fixedBits, opField_cmdWordOf, devField_cmdWordOf, aField_cmdWordOf, bField_cmdWordOf, Instr.reservedClear] using h

theorem engStop (dev a b : Byte) : Statement (.engStop dev a b) := fun _ h ws e => by
  cases e
  simpa [fixedBits, opField_cmdWordOf, devField_cmdWordOf, aField_cmdWordOf, bField_cmdWordOf, Instr.reservedClear] using h

theorem qTherm (dev a b : Byte) : Statement (.qTherm dev a b) := fun _ h ws e => by
  cases e
  simpa [fixedBits, opField_cmdWordOf, aField_cmdWordOf, bField_cmdWordOf, Instr.reservedClear] using h

theorem qErr (dev a b : Byte) : Statement (.qErr dev a b) := fun _ h ws e => by
  cases e
  simpa [fixedBits, opField_cmdWordOf, aField_cmdWordOf, bField_cmdWordOf, Instr.reservedClear] using h

theorem reservedOp (op dev a b : Byte) : Statement (.reservedOp op dev a b) := fun w _ ws e => by
  cases e
  simpa [fixedBits, opField_cmdWordOf, Instr.wf, reservedCode] using w

theorem tickUpdate : Statement .tickUpdate := fun w _ _ _ => by cases w

theorem spawn : Statement .spawn := fun w _ _ _ => by cases w

theorem wireNop : Statement .wireNop := fun _ _ ws e => by
  cases e
  rfl

theorem wireWr (reg : Reg7) (val : Byte) : Statement (.wireWr reg val) := fun _ _ ws e => by
  cases e
  simp [fixedBits, unitOf_rw]

theorem wireRd (reg : Reg7) (dummy : Byte) : Statement (.wireRd reg dummy) := fun _ _ ws e => by
  cases e
  simp [fixedBits, unitOf_rw]

end Laws.TableRow

end Sys2Proof
end

