-- ==== Sys2Proof/Laws/Pool.lean ====
section
/-! SUPPORT. The pool: a slot after a store, what SPAWN can touch, and what one round of TICK_UPDATE's and ENG_STOP's
loops leaves when every bus primitive completes (42_twinkle.md R233, R240, R242). -/

namespace Sys2Proof.Machine

theorem slotAt_setSlot (s : State) (i j : Nat) (x : Slot) :
    slotAt (s.setSlot i x) j = if i = j ∧ i < s.engine.slots.length then x else slotAt s j := by
  simp only [slotAt, State.setSlot, List.getD_eq_getElem?_getD, List.getElem?_set]
  by_cases h : i = j
  · subst h
    by_cases h2 : i < s.engine.slots.length <;> simp [h2]
  · simp [h]

theorem drawn_lt {k : Nat} (h : 0 < k) (s : State) : drawn k s < k := Nat.mod_lt _ h

/-- `t` is `s` but for the answers of the entropy source that have been used up. -/
def DrewOnly (s t : State) : Prop := ∃ a b c d,
  t = { s with env := { s.env with drawIn := a, draws := b, ratesIn := c, rateDraws := d } }

theorem DrewOnly.refl (s : State) : DrewOnly s s := ⟨_, _, _, _, rfl⟩

theorem DrewOnly.drew {s t : State} (h : DrewOnly s t) : DrewOnly s t.drew := by
  obtain ⟨_, _, _, _, rfl⟩ := h
  exact ⟨_, _, _, _, rfl⟩

theorem DrewOnly.drewRates {s t : State} (h : DrewOnly s t) : DrewOnly s t.drewRates := by
  obtain ⟨_, _, _, _, rfl⟩ := h
  exact ⟨_, _, _, _, rfl⟩

/-- What the last part of SPAWN can do. -/
theorem spawnClaim_cases (m : MathPair) (j d l : Nat) {s t : State} (h : DrewOnly s t) : ∃ u, DrewOnly s u ∧
    (spawnClaim m j d l t = u ∨ ∃ x, spawnable x = true ∧ spawnClaim m j d l t = u.setSlot j x) := by
  have h6 := h.drew.drew.drew.drewRates
  unfold spawnClaim
  simp only []
  generalize spawnedSlot m d l (drawn 255 t) (drawn 255 t.drew) (drawn 255 t.drew.drew)
    (drawnRates t.drew.drew.drew) = x
  generalize t.drew.drew.drew.drewRates = u at h6
  split
  · rename_i hx
    exact ⟨u, h6, .inr ⟨x, hx, rfl⟩⟩
  · exact ⟨u, h6, .inl rfl⟩

theorem DrewOnly.freeSlot {s t : State} (h : DrewOnly s t) : freeSlot t = freeSlot s := by
  obtain ⟨_, _, _, _, rfl⟩ := h
  rfl

/-- What SPAWN can do: it uses up draws, and it may then put one new slot where an inactive one was. -/
theorem spawnOnce_cases (m : MathPair) (s : State) : ∃ t, DrewOnly s t ∧
    (spawnOnce m s = t ∨ ∃ j x, freeSlot s = some j ∧ spawnable x = true ∧ spawnOnce m s = t.setSlot j x) := by
  have h3 : DrewOnly s s.drew.drew.drew := (DrewOnly.refl s).drew.drew.drew
  unfold spawnOnce
  simp only []
  generalize drawn s.par.n s.drew = d
  generalize drawn ledSlots s.drew.drew = l
  generalize s.drew.drew.drew = u at h3
  split
  · unfold spawnPlace
    split
    · exact ⟨u, h3, .inl rfl⟩
    · split
      · exact ⟨u, h3, .inl rfl⟩
      · rename_i j hj
        rw [h3.freeSlot] at hj
        obtain ⟨v, hv, e | ⟨x, hx, e⟩⟩ := spawnClaim_cases m j d l h3
        · exact ⟨v, hv, .inl e⟩
        · exact ⟨v, hv, .inr ⟨j, x, hj, hx, e⟩⟩
  · exact ⟨s.drew, (DrewOnly.refl s).drew, .inl rfl⟩

/-- SPAWN touches the pool and the answers of the entropy source only. -/
theorem spawnOnce_frame (m : MathPair) (s : State) :
    (spawnOnce m s).par = s.par ∧ (spawnOnce m s).window = s.window ∧ (spawnOnce m s).transport = s.transport ∧
      (spawnOnce m s).seq = s.seq ∧
      (spawnOnce m s).engine = { s.engine with slots := (spawnOnce m s).engine.slots } := by
  obtain ⟨t, ⟨_, _, _, _, rfl⟩, e | ⟨j, x, -, -, e⟩⟩ := spawnOnce_cases m s <;> rw [e] <;>
    exact ⟨rfl, rfl, rfl, rfl, rfl⟩

/-- A push keeps what a later transaction asks for. -/
theorem pushed_ready (s : State) (d l : Nat) (r g b : Byte) :
    (s.pushed d l r g b).par = s.par ∧ (s.pushed d l r g b).env.hangIn = s.env.hangIn ∧
      (s.pushed d l r g b).env.latch.length = s.par.n := by
  simp [State.pushed, State.wrote]

/-- One round of ENG_STOP's loop when every bus primitive completes (42_twinkle.md R233). -/
theorem stopSlot_free {j : Nat} {s : State} (h : BusCompletes s) (hl : s.env.latch.length = s.par.n)
    (hg : (slotAt s j).active = true → (slotAt s j).dev.toNat < s.par.n ∧ (slotAt s j).led.toNat < 5) :
    stopSlot j s = .done () (s.stoppedSlot j) := by
  unfold stopSlot State.stoppedSlot
  split
  · rename_i ha
    rw [pushRGB_free h hl (hg ha).1 (hg ha).2]
    rfl
  · rfl

/-- One round of TICK_UPDATE's loop when every bus primitive completes (42_twinkle.md R240). -/
theorem tickSlot_free (m : MathPair) {j : Nat} {s : State} (h : BusCompletes s) (hl : s.env.latch.length = s.par.n)
    (hg : (slotAt s j).active = true → (slotAt s j).dev.toNat < s.par.n ∧ (slotAt s j).led.toNat < 5) :
    tickSlot m j s = .done () (s.tickedSlot m j) := by
  unfold tickSlot State.tickedSlot
  split
  · rename_i ha
    obtain ⟨h1, h2⟩ := hg ha
    unfold tickActiveSlot State.ticked slotAdvanced
    simp only []
    rw [pushRGB_free h hl h1 h2, Res.andThen_done]
    obtain ⟨p1, p2, p3⟩ := pushed_ready s (slotAt s j).dev.toNat (slotAt s j).led.toNat
      (slotColor (slotAt s j).baseR
        (slotFactor m { slotAt s j with t := f32Add (slotAt s j).t s.engine.actT }))
      (slotColor (slotAt s j).baseG
        (slotFactor m { slotAt s j with t := f32Add (slotAt s j).t s.engine.actT }))
      (slotColor (slotAt s j).baseB
        (slotFactor m { slotAt s j with t := f32Add (slotAt s j).t s.engine.actT }))
    rw [pushRGB_free (by rw [BusCompletes, p2]; exact h) (by rw [p3, p1]) (by rw [p1]; exact h1) h2]
    simp only [slotDark, Res.andThen_done, Bool.and_eq_true, decide_eq_true_eq, and_assoc]
    split <;> rfl
  · rfl

end Sys2Proof.Machine
end

