-- ==== Sys2Proof/Tests/Slice0.lean ====
section
/-! SUPPORT. Tests: words written out from the spec, the refusals of the well-formedness checks, single steps from the
vectors of 95_test_vectors.md (each comment names its vector), and for every statement with hypotheses a state and
operands that meet them. -/

namespace Sys2Proof.Tests

open Sys2Proof.Machine

/-! ### Helpers -/

/-- The reset state of a chain of `n` devices, the other parameters those of P2 and P4. -/
def chain (n : Nat) : State := State.resetWith { sampleParams with n := n }

/-- The state with an event to come. -/
def coming (e : Event) (s : State) : State := s.setEvents [e]

/-- The state an outcome leaves. -/
def outcomeState (s : State) : Host.Outcome State Fault Refusal → State
  | .next t => t
  | .fault _ => s
  | .refused _ => s

/-- What an instruction leaves. -/
def ran (i : Instr) (s : State) : State := outcomeState s (exec i s)

/-- What a step leaves. -/
def stepped (s : State) : State := outcomeState s (step s)

/-- The state with answers of the chain to come. -/
def answering (l : List Byte) (s : State) : State := { s with env := { s.env with busIn := l } }

/-- The state under the premise that its chain answers as the reference chain. -/
def onReferenceChain (s : State) : State := { s with env := { s.env with refChain := true } }

/-- The reference chain of P1 before its READ: the register 0x08 of the two chips holds 0x80 and 0x40. -/
def storedP1 : State := (onReferenceChain (chain 2)).setChips
  { bytes := [(0x08, 0x80), (128 + 0x08, 0x40)], cuts := 0, writes := 2 } [none, none]

/-- The state with answers of the entropy source to come. -/
def drawing (l : List Nat) (r : List (F32 × F32)) (s : State) : State :=
  { s with env := { s.env with drawIn := l, ratesIn := r } }

/-- One bracket of the trace notation of 00_scope.md R14. -/
def br (l : List Byte) : List BusEvent := .selAssert :: l.map .xfer ++ [.selDeassert]

/-- The fexp and fln of W2 and V-TW1, at the arguments those vectors need: the correctly rounded values. -/
def tableMath : MathPair where
  fexp := fun v =>
    if v = 0xBF317218#32 then 0x3F000000#32 else if v = 0xBFB17218#32 then 0x3E800000#32
    else if v = 0xBE800000#32 then 0x3F475F7D#32 else if v = 0xBF000000#32 then 0x3F1B4598#32 else 0x00000000#32
  fln := fun _ => 0x3F317218#32

/-- The slot of V-TW1. -/
def slotTW1 : Slot where
  active := true
  dev := 0
  led := 0
  baseR := 200
  baseG := 100
  baseB := 50
  a1 := 0x40000000#32
  a0 := 0x3F800000#32
  t := 0x00000000#32
  tmax := 0x3F317218#32
  scale := 0x40800000#32

/-- A running engine with act_T 0.25, K, S and a pool. -/
def running (k : BitVec 16) (act : Byte) (pool : List Slot) (s : State) : State :=
  { s with engine :=
      { running := true, tickPending := false, actT := 0x3E800000#32, actK := k, actS := act, slots := pool
        tickPeriodOut := 0x3E800000#32, tickEnableOut := true } }

/-- Slot 0 active on (0, 0) and slot 2 on (1, 4), as in V-ENG11. -/
def poolENG11 : List Slot := [slotTW1, inactiveSlot, { slotTW1 with dev := 1, led := 4 }, inactiveSlot]

/-- V-ENG11's start state. -/
def twoActive : State := running 1000 4 poolENG11 (chain 2)

/-- A tick is pending. -/
def ticking (s : State) : State := s.setTickPending true

/-- A command is pending. -/
def commanded (cmd arg : Word) (s : State) : State :=
  { s with window := { s.window with cmdWord := cmd, cmdArg := arg, cmdValid := true } }

/-- ENG_START's configuration of V-ENG1. -/
def configured (s : State) : State :=
  { s with window := { s.window with cfgTick := 0x3E800000#32, cfgSpawnK := 1000, cfgSlots := 4 } }

/-- CFG_REXT = 3600 and N = 1, as in V-CAL20 and the vectors after it. -/
def gainState : State := { chain 1 with window := { (chain 1).window with cfgRext := 3600 } }

/-- Every instruction answers a next state. -/
theorem exec_ran (i : Instr) (s : State) : exec i s = .next (ran i s) := by cases i <;> rfl

/-- Every step answers a next state. -/
theorem step_stepped (s : State) : step s = .next (stepped s) := by
  unfold stepped step
  cases nextTurn s with
  | run i t => simp only [exec_ran, outcomeState]
  | stay t => rfl

theorem test_step_from_reset : ∃ t, step (State.reset.withFetchWord 32 0x00000000) = .next t := ⟨_, rfl⟩

/-! ### Decoding: words written out from 30_encoding.md R111, R113, R120-R122 -/

theorem test_decode_nop : decodeTableWord 32 0x00000000 = some (.nop 0 0 0) := by decide
theorem test_decode_write : decodeTableWord 64 0x00000080_01010800 = some (.write 1 0x08 0 0x80) := by decide
theorem test_decode_read : decodeTableWord 32 0x02004200 = some (.read 0 0x42 0) := by decide
theorem test_decode_setPw : decodeTableWord 64 0xFFFFFF05_03010403 = some (.setPw 1 4 3 5) := by decide
theorem test_decode_setGain : decodeTableWord 64 0x3F800000_04000202 = some (.setGain 0 2 2 0x3F800000) := by decide
theorem test_decode_clearCh : decodeTableWord 32 0x05FF0001 = some (.clearCh 0xFF 0 1) := by decide
theorem test_decode_clearAll : decodeTableWord 32 0x06000000 = some (.clearAll 0 0 0) := by decide
theorem test_decode_engStart : decodeTableWord 32 0x07000100 = some (.engStart 0 1 0) := by decide
theorem test_decode_engStop : decodeTableWord 32 0x08000000 = some (.engStop 0 0 0) := by decide
theorem test_decode_qTherm : decodeTableWord 32 0x09010000 = some (.qTherm 1 0 0) := by decide
theorem test_decode_qErr : decodeTableWord 32 0x0A010000 = some (.qErr 1 0 0) := by decide
theorem test_decode_reservedOp_first : decodeTableWord 32 0x0B000001 = some (.reservedOp 0x0B 0 0 1) := by decide
theorem test_decode_reservedOp_last : decodeTableWord 32 0xFF123456 = some (.reservedOp 0xFF 0x12 0x34 0x56) := by
  decide
theorem test_decode_wireNop : decodeTableWord 16 0xFFFF = some .wireNop ∧ decodeTableWord 16 0xFF80 = some .wireNop := by
  decide
theorem test_decode_wireWr : decodeTableWord 16 0x8AFF = some (.wireWr 0x45 0xFF) := by decide
theorem test_decode_wireRd : decodeTableWord 16 0x85FF = some (.wireRd 0x42 0xFF) := by decide
theorem test_decode_rejects_length : decodeBits 24 0 = .error (.noSuchLength 24) := by decide
theorem test_decode_rejects_bits_above : decodeBits 16 0x10000 = .error (.bitsAboveLength 16) := by decide

/-! ### The checks refuse what they should -/

theorem test_wf_refuses_defined_opcode : (Instr.reservedOp 0x0A 0 0 0).wf = false := by decide
theorem test_wf_refuses_sentinel_read : (Instr.wireRd 0x7F 0xFF).wf = false ∧ (Instr.wireRd 0x7F 0x00).wf = false := by
  decide
theorem test_wf_refuses_tickUpdate : Instr.tickUpdate.wf = false ∧ Instr.tickUpdate.encoded = false := by decide
theorem test_wf_refuses_spawn : Instr.spawn.wf = false ∧ encode Instr.spawn = none := by decide
theorem test_reservedClear_refuses : (Instr.nop 0 0 1).reservedClear = false ∧
    (Instr.write 0 0 1 0).reservedClear = false ∧ (Instr.read 1 0 0).reservedClear = false ∧
    (Instr.clearCh 0 1 0).reservedClear = false ∧ (Instr.engStop 0 1 0).reservedClear = false := by decide
theorem test_inRange_refuses : (Instr.write 2 0x08 0 1).inRange 2 = false ∧
    (Instr.write 0 0x46 0 1).inRange 2 = false ∧ (Instr.read 0 0x80 0).inRange 2 = false ∧
    (Instr.setPw 0 3 3 1).inRange 2 = false ∧ (Instr.setPw 0 5 0 1).inRange 2 = false ∧
    (Instr.setGain 0 0 4 1).inRange 2 = false ∧ (Instr.qErr 2 0 0).inRange 2 = false ∧
    (Instr.wireWr 0x46 0).inRange 2 = false := by decide

/-! ### One instruction -/

/-- V-ENC2. -/
theorem test_nop_reserved_field : statusWord (ran (.nop 0 0 1) (chain 2)) = 0x00000200#32 := by decide +kernel

/-- V-WR1. -/
theorem test_write_frame :
    (ran (.write 1 0x08 0 0x80) (chain 3)).env.trace = br [0xFF, 0xFF, 0x10, 0x80, 0xFF, 0xFF] ∧
    (ran (.write 1 0x08 0 0x80) (chain 3)).transport.instr = [0xFF, 0x10, 0xFF] ∧
    (ran (.write 1 0x08 0 0x80) (chain 3)).transport.data = [0xFF, 0x80, 0xFF] := by decide +kernel

/-- V-WR2 and V-WR6. -/
theorem test_write_edges : (ran (.write 0 0x45 0 0xFF) (chain 1)).env.trace = br [0x8A, 0xFF] ∧
    statusWord (ran (.write 0 0x46 0 1) (chain 2)) = 0x00000300#32 := by decide +kernel

/-- V-RD3. -/
theorem test_read_captures :
    (ran (.read 0 0x08 0) (answering [0, 0, 0, 0, 0, 0, 0xAA, 1, 0xBB, 2, 0xCC, 3] (chain 3))).env.trace =
        br [0x11, 0xFF, 0x11, 0xFF, 0x11, 0xFF] ++ br [0xFF, 0xFF, 0xFF, 0xFF, 0xFF, 0xFF] ∧
    (ran (.read 0 0x08 0) (answering [0, 0, 0, 0, 0, 0, 0xAA, 1, 0xBB, 2, 0xCC, 3] (chain 3))).transport.rx =
        [1, 2, 3] := by decide +kernel

/-- P1's READ, on the reference chain, whatever else could be answered; and V-RD4. -/
theorem test_read_reference_chain_and_sentinel_address :
    (ran (.read 0 0x08 0) (answering (List.replicate 8 0x55) storedP1)).transport.rx = [0x80, 0x40] ∧
    statusWord (ran (.read 0 0x7F 0) (chain 2)) = 0x00000300#32 ∧
    (ran (.read 0 0x7F 0) (chain 2)).env.trace = [] := by decide +kernel

/-- V-CH3. -/
theorem test_setPw_channel7 : (ran (.setPw 0 2 2 5) (chain 2)).env.trace = br [0x1E, 0x05, 0xFF, 0xFF] := by
  decide +kernel

/-- V-CH7 and V-CH8. -/
theorem test_setPw_infrared : (ran (.setPw 0 4 3 0x10) (chain 2)).env.trace = br [0x10, 0x10, 0xFF, 0xFF] ∧
    statusWord (ran (.setPw 0 3 3 1) (chain 2)) = 0x00000300#32 := by decide +kernel

/-- V-CAL20, the source's scenario W1. -/
theorem test_setGain_scenario : (ran (.setGain 0 0 0 0x3F800000) gainState).env.trace = br [0x4E, 0x80] ∧
    (ran (.setGain 0 0 0 0x3F800000) gainState).window.result = 0x00000080#32 := by decide +kernel

/-- V-CAL23 and V-CAL27. -/
theorem test_setGain_iref7_and_nan : (ran (.setGain 0 2 2 0x3F800000) gainState).env.trace = br [0x3E, 0x0B] ∧
    statusWord (ran (.setGain 0 0 0 0x7FC00000) gainState) = 0x00000400#32 := by decide +kernel

/-- V-CLR1. -/
theorem test_clearCh_frames : (ran (.clearCh 0 0 0) (chain 1)).env.trace =
    br [0x10, 0] ++ br [0x12, 0] ++ br [0x14, 0] ++ br [0x16, 0] ++ br [0x18, 0] ++ br [0x1A, 0] ++ br [0x1C, 0] ++
    br [0x1E, 0] ++ br [0x20, 0] ++ br [0x22, 0] ++ br [0x24, 0] ++ br [0x26, 0] ++ br [0x28, 0] ++ br [0x2A, 0] ++
    br [0x2C, 0] ++ br [0x2E, 0] := by decide +kernel

/-- V-CLR3: 32 frames of 6 calls; the first and the last. -/
theorem test_clearAll_frames : (ran (.clearAll 0 0 0) (chain 2)).env.trace.length = 192 ∧
    (ran (.clearAll 0 0 0) (chain 2)).env.trace.take 6 = br [0x10, 0, 0xFF, 0xFF] ∧
    (ran (.clearAll 0 0 0) (chain 2)).env.trace.drop 186 = br [0xFF, 0xFF, 0x2E, 0] := by decide +kernel

/-- V-ENG1. -/
theorem test_engStart_runs : statusWord (ran (.engStart 0 0 0) (configured (chain 2))) = 0x00000002#32 ∧
    (ran (.engStart 0 0 0) (configured (chain 2))).engine.tickPeriodOut = 0x3E800000#32 ∧
    (ran (.engStart 0 0 0) (configured (chain 2))).engine.actK = 1000 := by decide +kernel

/-- V-ENG13 and V-RST4. -/
theorem test_engStart_restart_and_reset_config :
    (ran (.engStart 0 0 0) (configured twoActive)).env.trace = [] ∧
    (slotAt (ran (.engStart 0 0 0) (configured twoActive)) 0).active = false ∧
    statusWord (ran (.engStart 0 0 0) (chain 2)) = 0x00000600#32 := by decide +kernel

/-- V-ENG11. -/
theorem test_engStop_blacks : (ran (.engStop 0 0 0) twoActive).env.trace =
      br [0x2E, 0, 0xFF, 0xFF] ++ br [0x2C, 0, 0xFF, 0xFF] ++ br [0x2A, 0, 0xFF, 0xFF] ++
      br [0xFF, 0xFF, 0x16, 0] ++ br [0xFF, 0xFF, 0x14, 0] ++ br [0xFF, 0xFF, 0x12, 0] ∧
    (ran (.engStop 0 0 0) twoActive).engine.running = false ∧
    (ran (.engStop 0 0 0) twoActive).engine.slots = List.replicate 4 inactiveSlot := by decide +kernel

/-- V-Q1. -/
theorem test_qTherm_bit :
    (ran (.qTherm 1 0 0) (answering [0, 0, 0, 0, 0xFF, 0, 0xFF, 0x80] (chain 2))).window.result = 1#32 ∧
    (ran (.qTherm 1 0 0) (answering [0, 0, 0, 0, 0xFF, 0, 0xFF, 0x80] (chain 2))).env.trace =
      br [0x03, 0xFF, 0x03, 0xFF] ++ br [0xFF, 0xFF, 0xFF, 0xFF] := by decide +kernel

/-- V-Q5's answers. -/
def answersQ5 : List Byte :=
  [0, 0, 0, 0, 0x00, 0x00, 0x00, 0x40] ++ [0, 0, 0, 0, 0x00, 0xAA, 0x00, 0x01] ++
  [0, 0, 0, 0, 0x00, 0x00, 0x00, 0x00] ++ [0, 0, 0, 0, 0x00, 0x00, 0x00, 0x08] ++
  [0, 0, 0, 0, 0x00, 0x00, 0x00, 0x00]

/-- V-Q5. -/
theorem test_qErr_flags : (ran (.qErr 1 0 0) (answering answersQ5 (chain 2))).window.result = 0x00080001#32 ∧
    (ran (.qErr 1 0 0) (answering answersQ5 (chain 2))).env.trace.length = 60 := by decide +kernel

/-- V-Q4. -/
theorem test_qErr_no_error : (ran (.qErr 0 0 0) (answering [0, 0, 0, 0] (chain 1))).env.trace =
    br [0x03, 0xFF] ++ br [0xFF, 0xFF] := by decide +kernel

/-- V-ENC6. -/
theorem test_reservedOp_wins : statusWord (ran (.reservedOp 0x0B 0 0 1) (chain 2)) = 0x00000100#32 := by
  decide +kernel

/-- V-TW1, tick 1, with the reference fexp. -/
theorem test_tick_color :
    (completeInternal .tickUpdate
      (tickBody tableMath (drawing [999] [] (running 500 4 [slotTW1, inactiveSlot, inactiveSlot, inactiveSlot]
        (chain 1))))).env.trace = br [0x2E, 0x89] ++ br [0x2C, 0x44] ++ br [0x2A, 0x22] := by decide +kernel

/-- V-TW3, tick 3, whose factor rounds the base (1, 1, 1) to black: the envelope of `tableMath` is 0 there. -/
theorem test_tick_extinguishes :
    (completeInternal .tickUpdate
      (tickBody tableMath (drawing [999] [] (running 500 4
        [{ slotTW1 with baseR := 1, baseG := 1, baseB := 1, t := 0x3F000000#32 }, inactiveSlot, inactiveSlot,
          inactiveSlot] (chain 1))))).engine.slots = List.replicate 4 inactiveSlot := by decide +kernel

/-- V-SP2, with the reference fexp and fln. -/
theorem test_spawn_claims :
    slotAt (spawnOnce tableMath (drawing [0, 0, 0, 200, 100, 50] [(0x3F800000#32, 0x40000000#32)]
      (running 500 4 (List.replicate 4 inactiveSlot) (chain 1)))) 0 = slotTW1 := by decide +kernel

/-- V-SP3: a duplicate aborts after three draws. -/
theorem test_spawn_duplicate : ran .spawn (drawing [5, 0, 0, 7] []
    (running 500 4 [slotTW1, inactiveSlot, inactiveSlot, inactiveSlot] (chain 1))) =
    { (drawing [7] [] (running 500 4 [slotTW1, inactiveSlot, inactiveSlot, inactiveSlot] (chain 1))) with
      env := { (drawing [7] [] (chain 1)).env with draws := 3 } } := by decide +kernel

/-- The reference chain of 20_memory.md R99: a chip stores, latches, and does nothing. -/
theorem test_wireWr_stores : chipReg (ran (.wireWr 0x45 0xFF) (chain 1)) 0 0x45 = 0xFF#8 := by decide +kernel
theorem test_wireRd_latches : (ran (.wireRd 0x42 0xFF) (chain 1)).env.latch = [some 0x42#7] := by decide +kernel
theorem test_wireNop_nothing : ran .wireNop (chain 1) = chain 1 := by decide +kernel

/-! ### One step: the window, the tick input, reset -/

/-- V-HOST1 and V-HOST8. -/
theorem test_host_reads :
    (stepped (coming (.hostRead 0x020#12 .four) (chain 2))).env.readData = 0x03E80402#32 ∧
    statusWord (stepped (coming (.hostRead 0x008#12 .two) (chain 2))) = 0x00000020#32 := by decide +kernel

/-- V-HOST9 and V-HOST13. -/
theorem test_host_writes :
    (stepped (coming (.hostWrite 0x002#12 .four 0) (chain 2))).window.cmdValid = false ∧
    (stepped (coming (.hostWrite 0x018#12 .four 0x105) (chain 2))).window.cfgSlots = 5#8 := by decide +kernel

/-- V-HOST15's second write: dropped, with CMD_OVR. -/
theorem test_host_second_command :
    statusWord (stepped (coming (.hostWrite 0x000#12 .four 0x06000000) (commanded 0 0 (chain 2)))) =
      0x00000011#32 := by decide +kernel

/-- V-TICK1, V-TICK2 and V-TICK3. -/
theorem test_ticks : stepped (coming .tick (chain 2)) = chain 2 ∧
    statusWord (stepped (coming .tick twoActive)) = 0x00000006#32 ∧
    statusWord (stepped (coming .tick (ticking twoActive))) = 0x0000000E#32 := by decide +kernel

/-- V-RST1. -/
theorem test_reset_event : statusWord (stepped (coming .reset (ticking twoActive))) = 0x00000000#32 ∧
    (stepped (coming .reset (ticking twoActive))).engine = Engine.reset 4 := by decide +kernel

/-! ### Witnesses: for each statement with hypotheses, states and operands that meet them -/

theorem chain_shaped (n : Nat) : Shaped (chain n) :=
  ⟨List.length_replicate, List.length_replicate, List.length_replicate, List.length_replicate, List.length_replicate⟩

theorem slotTW1_good : SlotGood sampleParams slotTW1 :=
  ⟨by decide, by decide, by decide, by decide +kernel, by decide +kernel, by decide, by decide, by decide +kernel⟩

theorem inactiveSlot_good (p : Params) : SlotGood p inactiveSlot :=
  ⟨fun _ => rfl, nofun, nofun, nofun, nofun, nofun, nofun, nofun⟩

/-- The slots of V-ENG11, and the inactive value beyond. -/
theorem twoActive_slots (j : Nat) : slotAt twoActive j = if j = 0 then slotTW1
    else if j = 2 then { slotTW1 with dev := 1, led := 4 } else inactiveSlot := by
  rcases j with _ | _ | _ | _ | j <;> simp [slotAt, twoActive, running, poolENG11]

/-- V-ENG11's start state, running with two active slots, meets the invariant. -/
theorem twoActive_inv : Inv twoActive where
  params := by decide +kernel
  shaped := ⟨rfl, rfl, rfl, rfl, rfl⟩
  pool := by
    refine ⟨fun i j h => ?_, fun j h => ?_, nofun, fun j => ?_⟩
    · rw [twoActive_slots, twoActive_slots]
      by_cases i0 : i = 0 <;> by_cases i2 : i = 2 <;> by_cases j0 : j = 0 <;> by_cases j2 : j = 2 <;>
        first
          | omega
          | simp [i0, i2, j0, j2, inactiveSlot, slotTW1]
    · have h' : 4 ≤ j := h
      rw [twoActive_slots, if_neg (by omega), if_neg (by omega)]
    · rw [twoActive_slots]
      split
      · exact slotTW1_good
      · split
        · exact ⟨by decide, by decide, by decide, by decide +kernel, by decide +kernel, by decide, by decide,
            by decide +kernel⟩
        · exact inactiveSlot_good _
  spawnK := by decide
  slotsInUse := by decide
  tickRunning := nofun
  selIdle := fun _ => rfl
  chips := by decide

/-- A WRITE hung at its third primitive. -/
def hungState : State := ran (.write 1 0x08 0 0x80) ((chain 2).setHang (some 2))

/-- A WRITE hung at its first primitive, SelAssert. -/
def hungAtSelect : State := ran (.write 1 0x08 0 0x80) ((chain 2).setHang (some 0))

theorem hungState_seq : hungState.seq = .exec (.write 1 0x08 0 0x80) := by decide +kernel

theorem witness_DecodeGivesTheEncodedInstruction : (Instr.wireRd 0x7E 0xFE).wf = true ∧
    (Instr.wireWr 0x7F 0xFF).wf = true ∧ (Instr.reservedOp 0x0B 0 0 0).wf = true ∧
    (Instr.reservedOp 0xFF 1 2 3).wf = true ∧ (Instr.setGain 0xFF 0xFF 0xFF 0xFFFFFFFF).wf = true := by decide

theorem witness_NoBuiltInstructionByteIsTheSentinel : (0x00#8 : Byte) ≤ 0x45#8 ∧ (0x45#8 : Byte) ≤ 0x45#8 := by decide

/-- The three clauses, on an empty queue and on a turn in it. -/
theorem witness_SequencerRunsTickThenCommand :
    ((ticking twoActive).env.events = [] ∧ (ticking twoActive).seq = .idle ∧ (ticking twoActive).engine.running = true ∧
      (ticking twoActive).engine.tickPending = true) ∧
    ((coming .turn (commanded 0 0 twoActive)).env.events = [.turn] ∧ (commanded 0 0 twoActive).seq = .idle ∧
      twoActive.engine.tickPending = false ∧ (commanded 0 0 twoActive).window.cmdValid = true) ∧
    ((chain 2).env.events = [] ∧ (chain 2).seq = .idle ∧ (chain 2).engine.running = false ∧
      (chain 2).window.cmdValid = false) := by decide +kernel

theorem witness_UnitEventRunsTheDecodedUnit :
    (coming (.wireUnit 1 0x1080#16) (chain 2)).env.events = .wireUnit 1 0x1080#16 :: [] := rfl

theorem witness_PlacedInstructionRunsNext : decodeTableWord 32 0xFFFFFFFF = some (.reservedOp 0xFF 0xFF 0xFF 0xFF) ∧
    decodeTableWord 64 0x3F800000_04000000 = some (.setGain 0 0 0 0x3F800000) ∧
    decodeTableWord 16 0x1080 = some (.wireWr 0x08 0x80) := by decide

/-- The three clauses: an empty queue, each event that is neither a reset nor a unit, a reset. -/
theorem witness_StuckOperationEndsOnlyByReset : hungState.seq = .exec (.write 1 0x08 0 0x80) ∧
    hungState.env.events = [] ∧ (coming (.hang 0) hungState).env.events = .hang 0 :: [] ∧
    (Event.hang 0 ≠ .reset ∧ ∀ p u, Event.hang 0 ≠ .wireUnit p u) ∧
    (commanded 0 0 hungState).window.cmdValid = true ∧ (coming .reset hungState).env.events = .reset :: [] :=
  ⟨hungState_seq, by decide +kernel, rfl, ⟨nofun, nofun⟩, rfl, rfl⟩

/-- The offsets of every clause, at the ends of its range where it has one. -/
theorem witness_HostReadReturnsTheRegister :
    (∀ off, (coming (.hostRead off .four) (chain 2)).env.events = .hostRead off .four :: []) ∧
    (([0x000#12, 0x004#12, 0x008#12, 0x00C#12, 0x010#12, 0x014#12, 0x018#12, 0x01C#12, 0x020#12, 0x024#12,
      0x040#12, 0x044#12, 0x048#12, 0x04C#12, 0x050#12, 0x054#12, 0x058#12, 0x05C#12] : List (BitVec 12)).all
      fun off => off.toNat % 4 == 0) = true ∧
    ((0x100#12).toNat = 0x100 + 4 * 0 ∧ (0x104#12).toNat = 0x100 + 4 * ((chain 2).par.n - 1)) ∧
    ((0x028#12).toNat = 0x028 ∧ (0x03C#12).toNat < 0x040 ∧ (0x060#12).toNat = 0x060 ∧ (0x0FC#12).toNat < 0x100 ∧
      0x100 + 4 * (chain 2).par.n = (0x108#12).toNat ∧ (0xFFC#12).toNat % 4 = 0) :=
  ⟨fun _ => rfl, by decide, by decide, by decide⟩

theorem witness_IllegalAccessOnlySetsAccErr :
    (AccessSize.two ≠ .four) ∧ (0x003#12).toNat % 4 ≠ 0 ∧
    (coming (.hostRead 0x008#12 .two) (chain 2)).env.events = .hostRead 0x008#12 .two :: [] ∧
    (coming (.hostWrite 0x003#12 .four 0) (chain 2)).env.events = .hostWrite 0x003#12 .four 0 :: [] :=
  ⟨nofun, by decide, rfl, rfl⟩

theorem witness_CommandWriteIssuesOrIsDropped : ∀ w,
    ((coming (.hostWrite 0x000#12 .four w) (commanded 0 0 (chain 2))).env.events = .hostWrite 0x000#12 .four w :: [] ∧
      (commanded 0 0 (chain 2)).window.cmdValid = true) ∧
    ((coming (.hostWrite 0x000#12 .four w) (chain 2)).env.events = .hostWrite 0x000#12 .four w :: [] ∧
      (chain 2).window.cmdValid = false) := fun _ => ⟨⟨rfl, rfl⟩, ⟨rfl, rfl⟩⟩

theorem witness_RegisterWritesOnlyStore :
    (∀ off w, (coming (.hostWrite off .four w) (chain 2)).env.events = .hostWrite off .four w :: []) ∧
    (([0x004#12, 0x010#12, 0x014#12, 0x018#12, 0x01C#12, 0x00C#12, 0x020#12, 0xFFC#12] : List (BitVec 12)).all
      fun off => off.toNat % 4 == 0) = true ∧ 0x020 ≤ (0x020#12).toNat ∧ 0x020 ≤ (0xFFC#12).toNat :=
  ⟨fun _ _ => rfl, by decide, by decide, by decide⟩

theorem witness_StatusWriteClearsStickyBits : ∀ w,
    (coming (.hostWrite 0x008#12 .four w) (chain 2)).env.events = .hostWrite 0x008#12 .four w :: [] := fun _ => rfl

theorem witness_TickWhileStoppedHasNoEffect :
    (coming .tick (chain 2)).env.events = .tick :: [] ∧ (coming .tick (chain 2)).engine.running = false := ⟨rfl, rfl⟩

theorem witness_TickWhileRunningIsPendingOrMerged :
    ((coming .tick twoActive).env.events = .tick :: [] ∧ (coming .tick twoActive).engine.running = true ∧
      (coming .tick twoActive).engine.tickPending = false) ∧
    ((coming .tick (ticking twoActive)).engine.running = true ∧
      (coming .tick (ticking twoActive)).engine.tickPending = true) := ⟨⟨rfl, rfl, rfl⟩, ⟨rfl, rfl⟩⟩

theorem witness_ResetGivesEveryItemItsValue : (coming .reset twoActive).env.events = .reset :: [] := rfl

/-- No transaction in flight, in an idle block and in a WRITE hung before its transaction began; and one in flight. -/
theorem witness_ResetLeavesTheChain :
    ((coming .reset twoActive).env.events = .reset :: [] ∧ (coming .reset twoActive).transport.sel = false) ∧
    ((coming .reset hungAtSelect).env.events = .reset :: [] ∧ (coming .reset hungAtSelect).transport.sel = false ∧
      (coming .reset hungAtSelect).seq ≠ .idle) ∧
    ((coming .reset hungState).env.events = .reset :: [] ∧ (coming .reset hungState).transport.sel = true) :=
  ⟨⟨rfl, rfl⟩, ⟨rfl, by decide +kernel, by decide +kernel⟩, ⟨rfl, by decide +kernel⟩⟩

theorem witness_ReservedOpcodeFails : 0x0B#8 ≤ opField 0x0B000000#32 ∧ 0x0B#8 ≤ opField 0xFF000001#32 := by decide

/-- The instruction has command words. -/
def isCommand (i : Instr) : Bool :=
  match encode i with
  | some (.command _ _) => true
  | some (.wireUnit _) => false
  | none => false

/-- Each command that has the check, at the first value it refuses. -/
theorem witness_FailingOperandChecksOnlyEndTheCommand :
    (∀ i ∈ [Instr.nop 1 0 0, .write 0 0 1 0, .read 0 0 1, .clearCh 0 1 0, .clearAll 0 0 1, .engStart 0 1 0,
      .engStop 1 0 0, .qTherm 0 0 1, .qErr 0 1 0], isCommand i = true ∧ i.reservedClear = false) ∧
    (∀ i ∈ [Instr.write 2 0x45 0 0, .write 1 0x46 0 0, .read 0 0x46 0, .setPw 2 0 0 0, .setPw 1 5 0 0, .setPw 1 3 3 0,
      .setPw 1 4 4 0, .setGain 2 0 0 0, .setGain 1 4 4 0, .clearCh 2 0 0, .qTherm 2 0 0, .qErr 2 0 0],
      isCommand i = true ∧ i.reservedClear = true ∧ i.inRange (chain 2).par.n = false) := by decide

/-- The premises of WriteSendsOneFrame and WriteStoresAtOneChipRegister, at the ends of the operands' ranges. -/
theorem witness_WriteSendsOneFrame : BusCompletes (chain 2) ∧ Shaped (chain 2) ∧ (0#8).toNat < (chain 2).par.n ∧
    (1#8).toNat < (chain 2).par.n ∧ 0x00#8 ≤ 0x45#8 ∧ (0x45#8 : Byte) ≤ 0x45#8 :=
  ⟨rfl, chain_shaped 2, by decide, by decide, by decide, by decide⟩

theorem witness_WriteStoresAtOneChipRegister : BusCompletes (chain 2) ∧ Shaped (chain 2) ∧
    (1#8).toNat < (chain 2).par.n ∧ (0x40#8 : Byte) ≤ 0x45#8 ∧ (0x18 < 128 ∧ (1, 0x18) ≠ (1, 0x40) ∧
      ((1 : Nat) = 1 → ¬((0x40#8 : Byte) = 0x40#8 ∧ 0x08 ≤ 0x18 ∧ 0x18 ≤ 0x17) ∧
        ¬((0x40#8 : Byte) = 0x41#8 ∧ 0x18 ≤ 0x18 ∧ 0x18 ≤ 0x27))) :=
  ⟨rfl, chain_shaped 2, by decide, by decide, by decide⟩

/-- The two clauses, at the first and the last primitive of a frame and at the first beyond it. -/
theorem witness_WriteHangsAtAnyPrimitive : (∀ k, ((chain 2).setHang (some k)).env.hangIn = some k) ∧
    (∀ k, Shaped ((chain 2).setHang (some k))) ∧ (1#8).toNat < (chain 2).par.n ∧ (0x45#8 : Byte) ≤ 0x45#8 ∧
    0 < 2 * (chain 2).par.n + 2 ∧ 5 < 2 * (chain 2).par.n + 2 ∧ 2 * (chain 2).par.n + 2 ≤ 6 :=
  ⟨fun _ => rfl, fun _ => ⟨rfl, rfl, rfl, rfl, rfl⟩, by decide, by decide, by decide, by decide, by decide⟩

theorem witness_ReadCapturesTheSecondBytes : BusCompletes (chain 2) ∧ Shaped (chain 2) ∧ (0x45#8 : Byte) ≤ 0x45#8 :=
  ⟨rfl, chain_shaped 2, by decide⟩

/-- The bytes P1 receives, for a WRITE of 0x40 to (1, 0x08) on a chain whose other device has not been written to. -/
def writtenThenAnswering : State := answering ([0, 0, 0, 0] ++ [0, 0, 0, 0] ++ [0x00, 0x80, 0x00, 0x40]) (chain 2)

theorem witness_ReadAfterWriteReturnsTheByte : BusCompletes writtenThenAnswering ∧ Shaped writtenThenAnswering ∧
    (1#8).toNat < writtenThenAnswering.par.n ∧ (0x08#8 : Byte) ≤ 0x08#8 ∧ (0x08#8 : Byte) ≤ 0x27#8 ∧
    answerAt (ran (.write 1 0x08 0 0x40) writtenThenAnswering) (2 * (chain 2).par.n + (2 * 1 + 1)) = 0x40#8 ∧
    chipReg (ran (.write 1 0x08 0 0x40) writtenThenAnswering) 1 0x08 = 0x40#8 :=
  ⟨rfl, ⟨rfl, rfl, rfl, rfl, rfl⟩, by decide, by decide, by decide, by decide +kernel, by decide +kernel⟩

/-- The same premises with the reference chain answering, at the last register it covers. -/
theorem witness_ReadAfterWriteReturnsTheByte_reference : BusCompletes storedP1 ∧ Shaped storedP1 ∧
    (1#8).toNat < storedP1.par.n ∧ (0x08#8 : Byte) ≤ 0x27#8 ∧ storedP1.env.refChain = true :=
  ⟨rfl, ⟨rfl, rfl, rfl, rfl, rfl⟩, by decide, by decide, rfl⟩

/-- At both ends of the range, also on a chain to which nothing has been written. -/
theorem witness_ReadsOnTheReferenceChainAgree :
    (BusCompletes storedP1 ∧ Shaped storedP1 ∧ storedP1.env.refChain = true) ∧
    (BusCompletes (onReferenceChain (chain 2)) ∧ Shaped (onReferenceChain (chain 2)) ∧
      (onReferenceChain (chain 2)).env.refChain = true) ∧ (0x08#8 : Byte) ≤ 0x27#8 :=
  ⟨⟨rfl, ⟨rfl, rfl, rfl, rfl, rfl⟩, rfl⟩, ⟨rfl, ⟨rfl, rfl, rfl, rfl, rfl⟩, rfl⟩, by decide⟩

theorem witness_OnlyReadTransactionsWriteRx :
    exec (.write 1 0x08 0 0x80) (chain 2) = .next (ran (.write 1 0x08 0 0x80) (chain 2)) ∧
    (∀ d r b, Instr.write 1 0x08 0 0x80 ≠ .read d r b) ∧ (∀ d a b, Instr.write 1 0x08 0 0x80 ≠ .qTherm d a b) ∧
    ∀ d a b, Instr.write 1 0x08 0 0x80 ≠ .qErr d a b := ⟨exec_ran _ _, nofun, nofun, nofun⟩

theorem witness_BusAnswersReachOnlyReadCommands : (∀ d r b, Instr.tickUpdate ≠ .read d r b) ∧
    (∀ d a b, Instr.tickUpdate ≠ .qTherm d a b) ∧ ∀ d a b, Instr.tickUpdate ≠ .qErr d a b := ⟨nofun, nofun, nofun⟩

theorem witness_EachChannelHasOneLegalPair : legalPair 4 3 = true ∧ chanOff 4 3 = 0 ∧ legalPair 0 0 = true ∧
    chanOff 0 0 = 15 := by decide

theorem witness_SetPwWritesTheDutyRegister : BusCompletes (chain 2) ∧ Shaped (chain 2) ∧
    (1#8).toNat < (chain 2).par.n ∧ legalPair 4 3 = true ∧ legalPair 0 2 = true :=
  ⟨rfl, chain_shaped 2, by decide, by decide, by decide⟩

/-- The three clauses: V-CAL27, V-CAL29 and V-CAL20. -/
theorem witness_SetGainWritesTheCode : BusCompletes gainState ∧ Shaped gainState ∧ (0#8).toNat < gainState.par.n ∧
    legalPair 0 0 = true ∧ legalPair 4 3 = true ∧ f32IsNaN 0x7FC00000#32 = true ∧
    (f32IsNaN 0x3F000000#32 = false ∧ calibrate gainState.par 3 0x3F000000#32 gainState.window.cfgRext = none) ∧
    (f32IsNaN 0x3F800000#32 = false ∧
      calibrate gainState.par 0 0x3F800000#32 gainState.window.cfgRext = some 0x80#8) :=
  ⟨rfl, ⟨rfl, rfl, rfl, rfl, rfl⟩, by decide, by decide, by decide, by decide, by decide +kernel, by decide +kernel⟩

/-- MAXI = 1.0; an intensity in the range, at both ends (-0.0 and MAXI), below it (-inf) and above it (+inf). -/
theorem witness_ClampLandsInRange : f32Lt f32Zero 0x3F800000#32 = true ∧ f32IsNaN 0x80000000#32 = false ∧
    (f32Le f32Zero 0x80000000#32 = true ∧ f32Le 0x80000000#32 0x3F800000#32 = true) ∧
    (f32Le f32Zero 0x3F800000#32 = true ∧ f32Le 0x3F800000#32 0x3F800000#32 = true) ∧
    f32Lt 0xFF800000#32 f32Zero = true ∧ f32Lt 0x3F800000#32 0x7F800000#32 = true := by decide

theorem witness_NonFiniteRootIsPermanent : f32IsFinite 0x7F800000#32 = false ∧ f32IsFinite 0x7FC00000#32 = false := by
  decide

theorem witness_ClearChannelZeroesOneDevice : BusCompletes (chain 2) ∧ Shaped (chain 2) ∧
    (1#8).toNat < (chain 2).par.n := ⟨rfl, chain_shaped 2, by decide⟩

theorem witness_ClearAllZeroesTheChain : BusCompletes (chain 2) ∧ Shaped (chain 2) := ⟨rfl, chain_shaped 2⟩

/-- Both clauses: V-ENG1 (K and S at their greatest values) and V-ENG2. -/
theorem witness_StartRunsTheEngineOrRefuses :
    (f32IsFinite (configured (chain 2)).window.cfgTick = true ∧
      f32Lt f32Zero (configured (chain 2)).window.cfgTick = true ∧
      (configured (chain 2)).window.cfgSpawnK.toNat ≤ 1000 ∧
      (configured (chain 2)).window.cfgSlots.toNat ≤ (configured (chain 2)).par.poolCap) ∧
    ¬f32Lt f32Zero (chain 2).window.cfgTick = true := by decide

theorem witness_StopClearsThePoolAndStops : Inv twoActive ∧ BusCompletes twoActive := ⟨twoActive_inv, rfl⟩

/-- Also with the premise of the last clause. -/
theorem witness_StopLeavesActiveLedsBlack : (Inv twoActive ∧ BusCompletes twoActive ∧
    (slotAt twoActive 2).active = true ∧ 2 < 3) ∧
    Inv (onReferenceChain twoActive) ∧ BusCompletes (onReferenceChain twoActive) ∧
    (slotAt (onReferenceChain twoActive) 2).active = true ∧ (onReferenceChain twoActive).env.refChain = true :=
  ⟨⟨twoActive_inv, rfl, rfl, by decide⟩,
    ⟨twoActive_inv.params, ⟨rfl, rfl, rfl, rfl, rfl⟩,
      ⟨twoActive_inv.pool.distinct, twoActive_inv.pool.bounded, twoActive_inv.pool.stopped, twoActive_inv.pool.slots⟩,
      twoActive_inv.spawnK, twoActive_inv.slotsInUse, twoActive_inv.tickRunning, twoActive_inv.selIdle,
      twoActive_inv.chips⟩, rfl, rfl, rfl⟩

theorem witness_TickAdvancesEverySlotThenSpawns : Inv twoActive ∧ BusCompletes twoActive := ⟨twoActive_inv, rfl⟩

/-- The state V-SP2 starts from. -/
def beforeSpawn : State :=
  drawing [0, 0, 0, 200, 100, 50] [(0x3F800000#32, 0x40000000#32)] (running 500 4 (List.replicate 4 inactiveSlot) (chain 1))

theorem witness_TickClaimsAtMostOneSlot : (slotAt beforeSpawn 0).active = false ∧
    (slotAt (completeInternal .tickUpdate (tickBody tableMath beforeSpawn)) 0).active = true := by decide +kernel

/-- A draw that passes, and the LED (0, 0) of slot 0. -/
def spawnTaken : State := drawing [999, 0, 0] [] twoActive

/-- A draw that passes, an LED without a twinkle, and every slot active, as in V-SP5. -/
def spawnFull : State := drawing [0, 0, 2] [] (running 500 4 [slotTW1, slotTW1, slotTW1, slotTW1] (chain 1))

/-- A draw that passes, an LED without a twinkle, and slot 1 the first that is inactive. -/
def spawnFree : State := drawing [0, 1, 2, 10, 20, 30] [(0x3F800000#32, 0x40000000#32)] twoActive

/-- The four clauses: the first draw equal to act_K (V-SP1), a taken LED, a full pool, a free slot. -/
theorem witness_SpawnClaimsTheFirstFreeSlot :
    (Shaped beforeSpawn ∧ Shaped spawnTaken ∧ Shaped spawnFull ∧ Shaped spawnFree) ∧
    (beforeSpawn.engine.actS.toNat ≤ 4 ∧ spawnTaken.engine.actS.toNat ≤ 4 ∧ spawnFull.engine.actS.toNat ≤ 4 ∧
      spawnFree.engine.actS.toNat ≤ 4) ∧
    ¬drawn 1000 (drawing [500] [] beforeSpawn) < beforeSpawn.engine.actK.toNat ∧
    (drawn 1000 spawnTaken < spawnTaken.engine.actK.toNat ∧ 0 < spawnTaken.engine.actS.toNat ∧
      (slotAt spawnTaken 0).active = true ∧
      (slotAt spawnTaken 0).dev.toNat = drawn spawnTaken.par.n spawnTaken.drew ∧
      (slotAt spawnTaken 0).led.toNat = drawn 5 spawnTaken.drew.drew) ∧
    (drawn 1000 spawnFull < spawnFull.engine.actK.toNat ∧
      ∀ j, j < spawnFull.engine.actS.toNat → (slotAt spawnFull j).active = true) ∧
    (drawn 1000 spawnFree < spawnFree.engine.actK.toNat ∧
      (∀ j, j < spawnFree.engine.actS.toNat → ¬((slotAt spawnFree j).active = true ∧
        (slotAt spawnFree j).dev.toNat = drawn spawnFree.par.n spawnFree.drew ∧
        (slotAt spawnFree j).led.toNat = drawn 5 spawnFree.drew.drew)) ∧
      1 < spawnFree.engine.actS.toNat ∧ (slotAt spawnFree 1).active = false ∧
      ∀ i, i < 1 → (slotAt spawnFree i).active = true) :=
  ⟨⟨⟨rfl, rfl, rfl, rfl, rfl⟩, ⟨rfl, rfl, rfl, rfl, rfl⟩, ⟨rfl, rfl, rfl, rfl, rfl⟩, ⟨rfl, rfl, rfl, rfl, rfl⟩⟩,
    by decide +kernel, by decide +kernel, by decide +kernel, by decide +kernel, by decide +kernel⟩

theorem witness_OnlyStartWritesTheActiveConfiguration :
    exec (.engStop 0 0 0) twoActive = .next (ran (.engStop 0 0 0) twoActive) ∧
    ∀ d a b, Instr.engStop 0 0 0 ≠ .engStart d a b := ⟨exec_ran _ _, nofun⟩

/-- Both ways: a start and a stop. -/
theorem witness_OnlyStartAndStopChangeRunning :
    (exec (.engStart 0 0 0) (configured (chain 2)) = .next (ran (.engStart 0 0 0) (configured (chain 2))) ∧
      (ran (.engStart 0 0 0) (configured (chain 2))).engine.running ≠ (configured (chain 2)).engine.running) ∧
    (exec (.engStop 0 0 0) twoActive = .next (ran (.engStop 0 0 0) twoActive) ∧
      (ran (.engStop 0 0 0) twoActive).engine.running ≠ twoActive.engine.running) :=
  ⟨⟨exec_ran _ _, by decide +kernel⟩, ⟨exec_ran _ _, by decide +kernel⟩⟩

theorem witness_ThermalQueryReportsTheBit : BusCompletes (chain 2) ∧ Shaped (chain 2) ∧
    paramsValid (chain 2).par = true ∧ (1#8).toNat < (chain 2).par.n :=
  ⟨rfl, chain_shaped 2, by decide +kernel, by decide⟩

/-- Both clauses: V-Q4 and V-Q5. -/
theorem witness_ErrorQueryReportsTheFlags : BusCompletes (answering answersQ5 (chain 2)) ∧
    Shaped (answering answersQ5 (chain 2)) ∧ paramsValid (chain 2).par = true ∧ (1#8).toNat < (chain 2).par.n ∧
    (rxAt ((answering answersQ5 (chain 2)).hasRead (chain 2).par.errpReg) 1).getLsbD (chain 2).par.errpBit = true ∧
    (rxAt ((answering (List.replicate 8 0) (chain 2)).hasRead (chain 2).par.errpReg) 1).getLsbD
      (chain 2).par.errpBit = false := by
  refine ⟨rfl, ⟨rfl, rfl, rfl, rfl, rfl⟩, ?_, ?_, ?_, ?_⟩ <;> decide +kernel

/-- Each of the three commands. -/
theorem witness_OnlyThreeCommandsWriteResult :
    (exec (.setGain 0 0 0 0x3F800000) gainState = .next (ran (.setGain 0 0 0 0x3F800000) gainState) ∧
      (ran (.setGain 0 0 0 0x3F800000) gainState).window.result ≠ gainState.window.result) ∧
    (ran (.qTherm 1 0 0) (answering [0, 0, 0, 0, 0xFF, 0, 0xFF, 0x80] (chain 2))).window.result ≠
      (chain 2).window.result ∧
    (ran (.qErr 1 0 0) (answering answersQ5 (chain 2))).window.result ≠ (chain 2).window.result :=
  ⟨⟨exec_ran _ _, by decide +kernel⟩, by decide +kernel, by decide +kernel⟩

/-- A position beyond the chain and the last of the chain; the last defined register and the first beyond it; another
position and another register. -/
theorem witness_WireUnitsActOnOneChip :
    ({ chain 2 with env := { (chain 2).env with unitPos := 2 } } : State).env.unitPos = 2 ∧ (chain 2).par.n ≤ 2 ∧
    ({ chain 2 with env := { (chain 2).env with unitPos := 1 } } : State).env.unitPos = 1 ∧ 1 < (chain 2).par.n ∧
    (0x45#7 : Reg7) ≤ 0x45#7 ∧ 0x45#7 < (0x46#7 : Reg7) ∧ (0 : Nat) ≠ 1 ∧ (1, 0x44) ≠ (1, 0x45) ∧ 127 < 128 :=
  ⟨rfl, by decide, rfl, by decide, by decide, by decide, by decide, by decide, by decide⟩

/-- The three kinds, at their first and last instruction bytes. -/
theorem witness_InstructionByteTellsTheUnit : ((0x00#8 : Byte).getLsbD 0 = false ∧ (0xFE#8 : Byte).getLsbD 0 = false) ∧
    ((0x01#8 : Byte) ≠ 0xFF#8 ∧ (0x01#8 : Byte).getLsbD 0 = true) ∧
    ((0xFD#8 : Byte) ≠ 0xFF#8 ∧ (0xFD#8 : Byte).getLsbD 0 = true) := by decide

theorem witness_HungOperationKeepsItsCommand :
    exec (.write 1 0x08 0 0x80) ((chain 2).setHang (some 2)) = .next hungState ∧
    ((chain 2).setHang (some 2)).seq = .idle ∧ hungState.seq ≠ .idle :=
  ⟨exec_ran _ _, rfl, by rw [hungState_seq]; nofun⟩

theorem witness_StepKeepsTheParameters : step (commanded 0x05000000 0 (chain 2)) =
    .next (stepped (commanded 0x05000000 0 (chain 2))) := step_stepped _

/-- A tick update of V-ENG11's state with a tick pending, and its stop. -/
theorem witness_StepKeepsTheInvariant : Inv twoActive ∧ step (coming .tick twoActive) =
    .next (stepped (coming .tick twoActive)) ∧ Inv (commanded 0x08000000 0 twoActive) ∧
    step (commanded 0x08000000 0 twoActive) = .next (stepped (commanded 0x08000000 0 twoActive)) :=
  ⟨twoActive_inv, step_stepped _,
    ⟨twoActive_inv.params, ⟨rfl, rfl, rfl, rfl, rfl⟩,
      ⟨twoActive_inv.pool.distinct, twoActive_inv.pool.bounded, twoActive_inv.pool.stopped, twoActive_inv.pool.slots⟩,
      twoActive_inv.spawnK, twoActive_inv.slotsInUse, twoActive_inv.tickRunning, twoActive_inv.selIdle,
      twoActive_inv.chips⟩, step_stepped _⟩

theorem witness_ResetMeetsTheInvariant : paramsValid sampleParams = true := sampleParams_valid

/-- A lawful pair of three steps: 1/4 below -1, 1/2 from there to below 0, 1 from 0 on; and W2's ln 2 above 1. -/
def stepMath : MathPair where
  fexp := fun v =>
    if f32Lt v 0xBF800000#32 then 0x3E800000#32 else if f32Lt v f32Zero then 0x3F000000#32 else f32One
  fln := fun v => if f32Lt f32One v then 0x3F317218#32 else f32Zero

theorem stepMath_lawful : LawfulMath stepMath where
  fexp_mono := fun u v hu huv hv => by
    have key : ∀ a : F32, f32Lt v a = true → f32Lt u a = true := fun a h => by
      simp only [f32Lt, f32Le, Bool.and_eq_true, decide_eq_true_eq] at *
      exact ⟨⟨huv.1.1, h.1.2⟩, by omega⟩
    simp only [stepMath]
    by_cases h1 : f32Lt v 0xBF800000#32 = true
    · rw [if_pos h1, if_pos (key _ h1)]
      decide
    · rw [if_neg h1]
      by_cases h2 : f32Lt v f32Zero = true
      · rw [if_pos h2, if_pos (key _ h2)]
        split <;> decide
      · rw [if_neg h2]
        split
        · decide
        · split <;> decide
  fexp_nonneg := fun v _ => by
    simp only [stepMath]
    split
    · decide
    · split <;> decide
  fexp_pos_zero := by decide
  fexp_neg_zero := by decide
  fln_one := by decide
  fln_pos := fun v _ h => by
    simp only [stepMath, if_pos h]
    decide

/-- The rates of W2 with that pair: tmax = ln 2, scale = 4. -/
theorem witness_EnvelopePeakIsNormalised : LawfulMath stepMath ∧ f32Lt f32Zero 0x3F800000#32 = true ∧
    f32Lt 0x3F800000#32 0x40000000#32 = true ∧ f32IsFinite 0x40000000#32 = true ∧
    f32IsFinite (f32Div 0x40000000#32 0x3F800000#32) = true ∧
    peakTime stepMath 0x3F800000#32 0x40000000#32 = 0x3F317218#32 ∧
    peakScale stepMath 0x3F800000#32 0x40000000#32 0x3F317218#32 = 0x40800000#32 ∧
    f32IsFinite 0x3F317218#32 = true ∧ f32IsFinite 0x40800000#32 = true ∧ f32Lt f32Zero 0x40800000#32 = true :=
  ⟨stepMath_lawful, by decide +kernel, by decide +kernel, by decide +kernel, by decide +kernel, by decide +kernel,
    by decide +kernel, by decide +kernel, by decide +kernel, by decide +kernel⟩

end Sys2Proof.Tests
end

/-! Noninterference of the bytes received on the bus (O29). Two states are compared that differ only in the answers the
chain still has to give; a piece of an operation ignores the answers when from two such states it does the same and
leaves two such states again. The one primitive that looks at an answer is `xfer`; outside the read commands its byte is
always discarded (`xfer_discarded_ignoresAnswers`), and everything else is put together from pieces that never look. -/

namespace Sys2Proof.Machine

/-- The state with other answers still to come, and with or without the premise that the chain is the reference chain
(00_scope.md R14, 20_memory.md R99). -/
def State.withAnswers (s : State) (bytes : List Byte) (ref : Bool) : State :=
  { s with env := { s.env with busIn := bytes, refChain := ref } }

/-- `t` is `s` but for the answers still to come and the premise, which in `t` is `ref`. -/
def SameButAnswers (ref : Bool) (s t : State) : Prop := ∃ bytes, t = s.withAnswers bytes ref

theorem SameButAnswers.intro (ref : Bool) (s : State) (bytes : List Byte) :
    SameButAnswers ref s (s.withAnswers bytes ref) := ⟨bytes, rfl⟩

theorem SameButAnswers.eq {ref : Bool} {s t : State} (h : SameButAnswers ref s t) :
    t = { s with env := { s.env with busIn := t.env.busIn, refChain := ref } } := by
  obtain ⟨bytes, rfl⟩ := h
  rfl

/-- Two choices made by the same test, each between states that are the same but for the answers. -/
theorem ite_withAnswers {c : Prop} [Decidable c] {s t s' t' : State} {bytes : List Byte} {ref : Bool}
    (hs : s' = s.withAnswers bytes ref) (ht : t' = t.withAnswers bytes ref) :
    (if c then s' else t') = (if c then s else t).withAnswers bytes ref := by
  rw [hs, ht]
  split <;> rfl

/-- Two results that both ended with the same value, or both hung, in states that are the same but for the answers. -/
inductive Res.SameOutcome {α : Type} (ref : Bool) : Res α → Res α → Prop
  | done (a : α) {s t : State} (h : SameButAnswers ref s t) : SameOutcome ref (.done a s) (.done a t)
  | hung {s t : State} (h : SameButAnswers ref s t) : SameOutcome ref (.hung s) (.hung t)

theorem Res.SameOutcome.andThen {α β : Type} {ref : Bool} {r r' : Res α} {k k' : α → State → Res β}
    (h : r.SameOutcome ref r')
    (hk : ∀ a s t, SameButAnswers ref s t → (k a s).SameOutcome ref (k' a t)) :
    (r.andThen k).SameOutcome ref (r'.andThen k') := by
  cases h with
  | done a h' => exact hk a _ _ h'
  | hung h' => exact .hung h'

theorem Res.SameOutcome.completeCommand {ref : Bool} {r r' : Res ErrorCode} (op : Instr)
    (h : r.SameOutcome ref r') :
    SameButAnswers ref (completeCommand op r) (completeCommand op r') := by
  cases h with
  | done e h' => obtain ⟨bytes, rfl⟩ := h'; exact ⟨bytes, rfl⟩
  | hung h' => obtain ⟨bytes, rfl⟩ := h'; exact ⟨bytes, rfl⟩

theorem Res.SameOutcome.completeInternal {ref : Bool} {r r' : Res Unit} (op : Instr)
    (h : r.SameOutcome ref r') :
    SameButAnswers ref (completeInternal op r) (completeInternal op r') := by
  cases h with
  | done _ h' => exact h'
  | hung h' => obtain ⟨bytes, rfl⟩ := h'; exact ⟨bytes, rfl⟩

/-- A piece of an operation does the same whatever the chain answers. -/
def IgnoresAnswers {α : Type} (f : State → Res α) : Prop :=
  ∀ ⦃ref s t⦄, SameButAnswers ref s t → (f s).SameOutcome ref (f t)

/-! ### How pieces that ignore the answers are put together -/

theorem IgnoresAnswers.ends {α : Type} (a : α) : IgnoresAnswers (Res.done a) := fun _ _ _ h => .done a h

/-- An update of the state that has nothing to do with the answers. -/
theorem IgnoresAnswers.done {α : Type} (a : α) {g : State → State}
    (hg : ∀ s bytes ref, g (s.withAnswers bytes ref) = (g s).withAnswers bytes ref) :
    IgnoresAnswers fun s => .done a (g s) := by
  rintro ref s _ ⟨bytes, rfl⟩
  exact .done a ⟨bytes, hg s bytes ref⟩

theorem IgnoresAnswers.andThen {α β : Type} {f : State → Res α} {k : α → State → Res β} (hf : IgnoresAnswers f)
    (hk : ∀ a, IgnoresAnswers (k a)) : IgnoresAnswers fun s => (f s).andThen k :=
  fun _ _ _ h => (hf h).andThen fun a _ _ h' => hk a h'

theorem IgnoresAnswers.ite {α : Type} {c : State → Bool} {f g : State → Res α}
    (hc : ∀ s bytes ref, c (s.withAnswers bytes ref) = c s) (hf : IgnoresAnswers f) (hg : IgnoresAnswers g) :
    IgnoresAnswers fun s => if c s then f s else g s := by
  rintro ref s _ ⟨bytes, rfl⟩
  simp only [hc]
  split
  · exact hf (.intro ref s bytes)
  · exact hg (.intro ref s bytes)

/-- A piece that takes an operand from a part of the state that is no answer. -/
theorem IgnoresAnswers.operand {α β : Type} {v : State → β} {f : β → State → Res α}
    (hv : ∀ s bytes ref, v (s.withAnswers bytes ref) = v s) (hf : ∀ x, IgnoresAnswers (f x)) :
    IgnoresAnswers fun s => f (v s) s := by
  rintro ref s _ ⟨bytes, rfl⟩
  simp only [hv]
  exact hf (v s) (.intro ref s bytes)

theorem IgnoresAnswers.forEach {α : Type} {f : α → State → Res Unit} (hf : ∀ x, IgnoresAnswers (f x)) (l : List α) :
    IgnoresAnswers (Machine.forEach l f) := by
  induction l with
  | nil => exact .ends ()
  | cons x l ih => exact (hf x).andThen fun _ => ih

/-- A loop over as many rounds as a part of the state says that is no answer. -/
theorem IgnoresAnswers.forRange {n : State → Nat} {f : Nat → State → Res Unit}
    (hn : ∀ s bytes ref, n (s.withAnswers bytes ref) = n s) (hf : ∀ x, IgnoresAnswers (f x)) :
    IgnoresAnswers fun s => Machine.forEach (List.range (n s)) f s :=
  .operand (f := fun k => Machine.forEach (List.range k) f) hn fun k => .forEach hf (List.range k)

theorem IgnoresAnswers.thenOk {f : State → Res Unit} (hf : IgnoresAnswers f) :
    IgnoresAnswers fun s => Machine.thenOk (f s) :=
  hf.andThen fun _ => .ends ErrorCode.ok

/-! ### The chips and the bus primitives -/

theorem chipIdle_withAnswers (p : Nat) (s : State) (bytes : List Byte) (ref : Bool) :
    chipIdle p (s.withAnswers bytes ref) = (chipIdle p s).withAnswers bytes ref :=
  ite_withAnswers rfl rfl

theorem chipWrite_withAnswers (p : Nat) (r : Reg7) (v : Byte) (s : State) (bytes : List Byte) (ref : Bool) :
    chipWrite p r v (s.withAnswers bytes ref) = (chipWrite p r v s).withAnswers bytes ref :=
  ite_withAnswers rfl rfl

theorem chipLatch_withAnswers (p : Nat) (r : Reg7) (s : State) (bytes : List Byte) (ref : Bool) :
    chipLatch p r (s.withAnswers bytes ref) = (chipLatch p r s).withAnswers bytes ref :=
  ite_withAnswers rfl rfl

theorem chipTakes_withAnswers (p : Nat) (u : Unit16) (s : State) (bytes : List Byte) (ref : Bool) :
    chipTakes p u (s.withAnswers bytes ref) = (chipTakes p u s).withAnswers bytes ref := by
  unfold chipTakes
  cases decodeUnit u with
  | wireNop => exact chipIdle_withAnswers p s bytes ref
  | wireWr r v => exact chipWrite_withAnswers p r v s bytes ref
  | wireRd r _ => exact chipLatch_withAnswers p r s bytes ref
  | _ => rfl

theorem chipsTake_withAnswers (s : State) (bytes : List Byte) (ref : Bool) :
    chipsTake (s.withAnswers bytes ref) = (chipsTake s).withAnswers bytes ref :=
  List.foldl_hom (fun t : State => t.withAnswers bytes ref) fun t i =>
    chipTakes_withAnswers i (stagedUnit s i) t bytes ref

theorem busCall_ignoresAnswers (e : BusEvent) : IgnoresAnswers (busCall e) := by
  rintro ref s _ ⟨bytes, rfl⟩
  have hs : (s.withAnswers bytes ref).env.hangIn = s.env.hangIn := rfl
  unfold busCall
  rw [hs]
  split
  · exact .done () ⟨bytes, rfl⟩
  · exact .hung ⟨bytes, rfl⟩
  · exact .done () ⟨bytes, rfl⟩

theorem selAssert_ignoresAnswers : IgnoresAnswers selAssert :=
  (busCall_ignoresAnswers .selAssert).andThen fun _ => .done () fun _ _ _ => rfl

theorem selDeassert_ignoresAnswers : IgnoresAnswers selDeassert :=
  (busCall_ignoresAnswers .selDeassert).andThen fun _ =>
    .done () fun s bytes ref => chipsTake_withAnswers (s.setSel false) bytes ref

/-- An Xfer whose received byte is discarded: it only uses one answer up (40_transport.md R151). -/
theorem xfer_discarded_ignoresAnswers {α : Type} (b : Byte) {k : State → Res α} (hk : IgnoresAnswers k) :
    IgnoresAnswers fun s => (xfer b s).andThen fun _ => k := by
  intro ref s t h
  have assoc : ∀ u, (xfer b u).andThen (fun _ => k) = (busCall (.xfer b) u).andThen fun _ v => k v.answered := fun u => by
    unfold xfer
    cases busCall (.xfer b) u <;> rfl
  simp only [assoc]
  refine (busCall_ignoresAnswers (.xfer b) h).andThen fun _ u v h' => ?_
  obtain ⟨bytes, rfl⟩ := h'
  exact hk ⟨bytes.tail, rfl⟩

/-! ### The write transaction and what is made of it -/

theorem sendUnit_ignoresAnswers (i : Nat) : IgnoresAnswers (sendUnit i) :=
  .operand (v := fun s => s.transport.instr.getD i noopByte) (fun _ _ _ => rfl) fun x =>
    xfer_discarded_ignoresAnswers x <|
      .operand (v := fun s => s.transport.data.getD i noopByte) (fun _ _ _ => rfl) fun y =>
        xfer_discarded_ignoresAnswers y <| .ends ()

theorem bracket_sendUnit_ignoresAnswers : IgnoresAnswers (bracket sendUnit) :=
  .operand (v := fun s => s.par.n) (f := fun n s => (selAssert s).andThen fun _ t =>
      (forEach (List.range n) sendUnit t).andThen fun _ u => selDeassert u) (fun _ _ _ => rfl) fun n =>
    selAssert_ignoresAnswers.andThen fun _ =>
      (IgnoresAnswers.forEach sendUnit_ignoresAnswers (List.range n)).andThen fun _ => selDeassert_ignoresAnswers

/-- WriteTxn discards everything it receives (40_transport.md R151). -/
theorem writeTxn_ignoresAnswers (d : Nat) (r v : Byte) : IgnoresAnswers (writeTxn d r v) := by
  rintro ref s _ ⟨bytes, rfl⟩
  exact bracket_sendUnit_ignoresAnswers ⟨bytes, rfl⟩

theorem pushRGB_ignoresAnswers (d slot : Nat) (r g b : Byte) : IgnoresAnswers (pushRGB d slot r g b) :=
  (writeTxn_ignoresAnswers d _ r).andThen fun _ =>
    (writeTxn_ignoresAnswers d _ g).andThen fun _ => writeTxn_ignoresAnswers d _ b

theorem clearDevice_ignoresAnswers (d : Nat) : IgnoresAnswers (clearDevice d) :=
  .forEach (fun k => writeTxn_ignoresAnswers d (pwmReg k) 0x00#8) (List.range channels)

/-! ### The commands -/

/-- A check that ends the command with an error code and changes nothing. -/
theorem IgnoresAnswers.check {c : State → Bool} (e : ErrorCode) {f : State → Res ErrorCode}
    (hc : ∀ s bytes ref, c (s.withAnswers bytes ref) = c s) (hf : IgnoresAnswers f) :
    IgnoresAnswers fun s => if c s then .done e s else f s :=
  .ite hc (.ends e) hf

theorem nopBody_ignoresAnswers (dev a b : Byte) : IgnoresAnswers (nopBody dev a b) :=
  .check .ok (fun _ _ _ => rfl) <| .ends ErrorCode.rsvd

theorem writeBody_ignoresAnswers (dev reg b val : Byte) : IgnoresAnswers (writeBody dev reg b val) :=
  .check .rsvd (fun _ _ _ => rfl) <| .check .range (fun _ _ _ => rfl) (writeTxn_ignoresAnswers _ _ _).thenOk

theorem setPwBody_ignoresAnswers (dev slot color duty : Byte) : IgnoresAnswers (setPwBody dev slot color duty) :=
  .check .range (fun _ _ _ => rfl) (writeTxn_ignoresAnswers _ _ _).thenOk

/-- The code depends on the parameters and on CFG_REXT only (41_channel_map.md R187). -/
theorem setGainBody_ignoresAnswers (dev slot color : Byte) (f : F32) :
    IgnoresAnswers (setGainBody dev slot color f) := by
  refine .check .range (fun _ _ _ => rfl) <| .check .arg (fun _ _ _ => rfl) ?_
  rintro ref s _ ⟨bytes, rfl⟩
  have hcode : calibrate (s.withAnswers bytes ref).par color f (s.withAnswers bytes ref).window.cfgRext =
    calibrate s.par color f s.window.cfgRext := rfl
  simp only [hcode]
  cases calibrate s.par color f s.window.cfgRext with
  | none => exact .done ErrorCode.numeric (.intro ref s bytes)
  | some q =>
    exact (writeTxn_ignoresAnswers _ _ q (.intro ref s bytes)).andThen fun _ _ _ h =>
      IgnoresAnswers.done ErrorCode.ok (g := fun t => t.setResult (q.setWidth 32)) (fun _ _ _ => rfl) h

theorem clearChBody_ignoresAnswers (dev a b : Byte) : IgnoresAnswers (clearChBody dev a b) :=
  .check .rsvd (fun _ _ _ => rfl) <| .check .range (fun _ _ _ => rfl) (clearDevice_ignoresAnswers _).thenOk

theorem clearAllBody_ignoresAnswers (dev a b : Byte) : IgnoresAnswers (clearAllBody dev a b) :=
  .check .rsvd (fun _ _ _ => rfl) (IgnoresAnswers.forRange (fun _ _ _ => rfl) clearDevice_ignoresAnswers).thenOk

theorem engStartBody_ignoresAnswers (dev a b : Byte) : IgnoresAnswers (engStartBody dev a b) :=
  .check .rsvd (fun _ _ _ => rfl) <| .check .config (fun _ _ _ => rfl) <| .done ErrorCode.ok fun _ _ _ => rfl

theorem stopSlot_ignoresAnswers (j : Nat) : IgnoresAnswers (stopSlot j) :=
  .ite (fun _ _ _ => rfl)
    (.operand (v := fun s => slotAt s j)
      (f := fun x s => (pushRGB x.dev.toNat x.led.toNat 0#8 0#8 0#8 s).andThen fun _ t =>
        .done () (t.setSlot j inactiveSlot)) (fun _ _ _ => rfl) fun _ =>
      (pushRGB_ignoresAnswers _ _ _ _ _).andThen fun _ => .done () fun _ _ _ => rfl)
    (.ends ())

theorem engStopBody_ignoresAnswers (dev a b : Byte) : IgnoresAnswers (engStopBody dev a b) :=
  .check .rsvd (fun _ _ _ => rfl) <|
    (IgnoresAnswers.forRange (fun _ _ _ => rfl) stopSlot_ignoresAnswers).andThen fun _ =>
      .done ErrorCode.ok fun _ _ _ => rfl

/-! ### The twinkle engine's internal operations -/

theorem tickActiveSlot_ignoresAnswers (m : MathPair) (j : Nat) (x : Slot) : IgnoresAnswers (tickActiveSlot m j x) :=
  (pushRGB_ignoresAnswers _ _ _ _ _).andThen fun _ =>
    .ite (fun _ _ _ => rfl)
      ((pushRGB_ignoresAnswers _ _ _ _ _).andThen fun _ => .done () fun _ _ _ => rfl)
      (.done () fun _ _ _ => rfl)

theorem tickSlot_ignoresAnswers (m : MathPair) (j : Nat) : IgnoresAnswers (tickSlot m j) :=
  .ite (fun _ _ _ => rfl)
    (.operand (v := fun s => slotAdvanced s.engine.actT (slotAt s j)) (fun _ _ _ => rfl) fun x =>
      tickActiveSlot_ignoresAnswers m j x)
    (.ends ())

/-! The entropy port is apart from the bus (00_scope.md R15), so a spawn does not see the answers. -/

theorem spawnClaim_withAnswers (m : MathPair) (j d l : Nat) (s : State) (bytes : List Byte) (ref : Bool) :
    spawnClaim m j d l (s.withAnswers bytes ref) = (spawnClaim m j d l s).withAnswers bytes ref :=
  ite_withAnswers rfl rfl

theorem spawnPlace_withAnswers (m : MathPair) (d l : Nat) (s : State) (bytes : List Byte) (ref : Bool) :
    spawnPlace m d l (s.withAnswers bytes ref) = (spawnPlace m d l s).withAnswers bytes ref := by
  have hfree : freeSlot (s.withAnswers bytes ref) = freeSlot s := rfl
  refine ite_withAnswers rfl ?_
  rw [hfree]
  cases freeSlot s with
  | none => rfl
  | some j => exact spawnClaim_withAnswers m j d l s bytes ref

theorem spawnOnce_withAnswers (m : MathPair) (s : State) (bytes : List Byte) (ref : Bool) :
    spawnOnce m (s.withAnswers bytes ref) = (spawnOnce m s).withAnswers bytes ref :=
  ite_withAnswers (spawnPlace_withAnswers m _ _ s.drew.drew.drew bytes ref) rfl

theorem tickBody_ignoresAnswers (m : MathPair) : IgnoresAnswers (tickBody m) := by
  refine IgnoresAnswers.andThen ?_ fun _ => .done () (spawnOnce_withAnswers m)
  rintro ref s _ ⟨bytes, rfl⟩
  exact IgnoresAnswers.forEach (tickSlot_ignoresAnswers m) (List.range s.engine.actS.toNat) ⟨bytes, rfl⟩

/-! ### Whole instructions -/

/-- An instruction leaves states that are the same but for the answers, from states that are. -/
def ExecIgnoresAnswers (i : Instr) : Prop :=
  ∀ ⦃ref s s'⦄, SameButAnswers ref s s' →
    ∃ t u, exec i s = .next t ∧ exec i s' = .next u ∧ SameButAnswers ref t u

theorem execIgnoresAnswers_of_command {i : Instr} {body : State → Res ErrorCode} (hb : IgnoresAnswers body)
    (hi : ∀ s, exec i s = .next (completeCommand i (body s))) : ExecIgnoresAnswers i :=
  fun _ s s' h => ⟨_, _, hi s, hi s', (hb h).completeCommand i⟩

theorem execIgnoresAnswers_of_internal {i : Instr} {body : State → Res Unit} (hb : IgnoresAnswers body)
    (hi : ∀ s, exec i s = .next (completeInternal i (body s))) : ExecIgnoresAnswers i :=
  fun _ s s' h => ⟨_, _, hi s, hi s', (hb h).completeInternal i⟩

theorem execIgnoresAnswers_of_update {i : Instr} {g : State → State}
    (hg : ∀ s bytes ref, g (s.withAnswers bytes ref) = (g s).withAnswers bytes ref)
    (hi : ∀ s, exec i s = .next (g s)) : ExecIgnoresAnswers i := by
  rintro ref s _ ⟨bytes, rfl⟩
  exact ⟨_, _, hi s, hi _, bytes, hg s bytes ref⟩

/-- Every instruction but the three that read (40_transport.md R152, 43_queries.md R261, R263) ignores the answers. -/
theorem execIgnoresAnswers_of_not_read (i : Instr) (hread : ∀ d r b, i ≠ .read d r b)
    (htherm : ∀ d a b, i ≠ .qTherm d a b) (herr : ∀ d a b, i ≠ .qErr d a b) : ExecIgnoresAnswers i := by
  cases i with
  | read d r b => exact absurd rfl (hread d r b)
  | qTherm d a b => exact absurd rfl (htherm d a b)
  | qErr d a b => exact absurd rfl (herr d a b)
  | nop d a b => exact execIgnoresAnswers_of_command (nopBody_ignoresAnswers d a b) fun _ => rfl
  | write d r b v => exact execIgnoresAnswers_of_command (writeBody_ignoresAnswers d r b v) fun _ => rfl
  | setPw d slot c v => exact execIgnoresAnswers_of_command (setPwBody_ignoresAnswers d slot c v) fun _ => rfl
  | setGain d slot c f => exact execIgnoresAnswers_of_command (setGainBody_ignoresAnswers d slot c f) fun _ => rfl
  | clearCh d a b => exact execIgnoresAnswers_of_command (clearChBody_ignoresAnswers d a b) fun _ => rfl
  | clearAll d a b => exact execIgnoresAnswers_of_command (clearAllBody_ignoresAnswers d a b) fun _ => rfl
  | engStart d a b => exact execIgnoresAnswers_of_command (engStartBody_ignoresAnswers d a b) fun _ => rfl
  | engStop d a b => exact execIgnoresAnswers_of_command (engStopBody_ignoresAnswers d a b) fun _ => rfl
  | reservedOp op d a b =>
    exact execIgnoresAnswers_of_command (.ends ErrorCode.opcode) fun _ => rfl
  | tickUpdate => exact execIgnoresAnswers_of_internal (tickBody_ignoresAnswers Config.math) fun _ => rfl
  | spawn => exact execIgnoresAnswers_of_update (spawnOnce_withAnswers Config.math) fun _ => rfl
  | wireNop =>
    exact execIgnoresAnswers_of_update (fun s => chipIdle_withAnswers s.env.unitPos s) fun _ => rfl
  | wireWr r v =>
    exact execIgnoresAnswers_of_update (fun s => chipWrite_withAnswers s.env.unitPos r v s) fun _ => rfl
  | wireRd r x =>
    exact execIgnoresAnswers_of_update (fun s => chipLatch_withAnswers s.env.unitPos r s) fun _ => rfl

/-- Settles O29: an instruction outside the read commands is made of pieces that discard every byte they receive. -/
theorem busAnswersReachOnlyReadCommands : Obligations.BusAnswersReachOnlyReadCommands := by
  intro i s bytes ref hread htherm herr
  obtain ⟨t, u, ht, hu, hsame⟩ := execIgnoresAnswers_of_not_read i hread htherm herr (.intro ref s bytes)
  exact ⟨t, u, ht, hu, hsame.eq⟩

end Sys2Proof.Machine
/-! ### Pieces of operations: what holds where they end, and what holds where they hang

A postcondition of a piece has two parts, since a piece that hangs stops in the middle of what it does
(60_exceptions.md R313). The rules below carry such a pair through every operation of the block once; the frames of the
instructions and the invariant of the machine both go through them. -/

namespace Sys2Proof.Machine

/-- Where the piece has ended `P` holds of its value and state, and where it hung `Q` holds of its state. -/
def Res.Meets {α : Type} (P : α → State → Prop) (Q : State → Prop) : Res α → Prop
  | .done a s => P a s
  | .hung s => Q s

theorem Res.meets_of_state {α : Type} {P : State → Prop} {r : Res α} (h : P r.state) : r.Meets (fun _ => P) P := by
  cases r <;> exact h

theorem Res.Meets.andThen {α β : Type} {P : α → State → Prop} {R : β → State → Prop} {Q : State → Prop} {r : Res α}
    {k : α → State → Res β} (hr : r.Meets P Q) (hk : ∀ a t, P a t → (k a t).Meets R Q) : (r.andThen k).Meets R Q := by
  cases r with
  | done a t => exact hk a t hr
  | hung t => exact hr

/-- A check that ends the command with an error code before anything has been done. -/
theorem meets_check {α : Type} {P : α → State → Prop} {Q : State → Prop} {c : Prop} [Decidable c] {r r' : Res α}
    (hr : r.Meets P Q) (hr' : r'.Meets P Q) : (if c then r else r').Meets P Q := by
  split
  · exact hr
  · exact hr'

theorem Res.Meets.thenOk {P Q : State → Prop} {R : ErrorCode → State → Prop} {r : Res Unit}
    (hr : r.Meets (fun _ => P) Q) (hok : ∀ t, P t → R .ok t) : (thenOk r).Meets R Q :=
  hr.andThen fun _ t ht => hok t ht

/-- From every state with `P` the piece ends in one with `P`, or hangs in one with `Q`. -/
def Keeps {α : Type} (P Q : State → Prop) (f : State → Res α) : Prop := ∀ s, P s → (f s).Meets (fun _ => P) Q

theorem Keeps.andThen {α β : Type} {P Q : State → Prop} {f : State → Res α} {k : α → State → Res β}
    (hf : Keeps P Q f) (hk : ∀ a, Keeps P Q (k a)) : Keeps P Q fun s => (f s).andThen k :=
  fun s hs => (hf s hs).andThen fun a t ht => hk a t ht

theorem Keeps.forEach {α : Type} {P Q : State → Prop} {f : α → State → Res Unit} (hf : ∀ x, Keeps P Q (f x))
    (l : List α) : Keeps P Q (Machine.forEach l f) := by
  induction l with
  | nil => exact fun _ hs => hs
  | cons x l ih => exact (hf x).andThen fun _ => ih

/-- What an ended loop leaves for each of its elements: what that element's round establishes and no round destroys. -/
theorem forEach_establishes {α : Type} {E : α → State → Prop} {f : α → State → Res Unit}
    (hown : ∀ x s t, f x s = .done () t → E x t) (hkeep : ∀ x y s t, f x s = .done () t → E y s → E y t) (l : List α)
    {s t : State} (h : forEach l f s = .done () t) :
    (∀ y, E y s → E y t) ∧ ∀ x ∈ l, E x t := by
  induction l generalizing s with
  | nil =>
    cases h
    exact ⟨fun _ hy => hy, fun _ hx => absurd hx List.not_mem_nil⟩
  | cons x l ih =>
    rw [forEach] at h
    cases hx : f x s with
    | hung u => rw [hx] at h; cases h
    | done a u =>
      rw [hx, Res.andThen_done] at h
      obtain ⟨hrest, hall⟩ := ih h
      refine ⟨fun y hy => hrest y (hkeep x y s u hx hy), fun y hy => ?_⟩
      rcases List.mem_cons.mp hy with rfl | hy
      · exact hrest y (hown y s u hx)
      · exact hall y hy

/-! ### The bodies of the commands and of the tick update -/

section Bodies

variable {P Q : State → Prop} {R : ErrorCode → State → Prop} {s : State}

theorem nopBody_meets (dev a b : Byte) (hend : ∀ e, R e s) : (nopBody dev a b s).Meets R Q :=
  meets_check (hend _) (hend _)

theorem writeBody_meets (dev reg b val : Byte) (hs : P s) (hw : ∀ d r v, Keeps P Q (writeTxn d r v))
    (hend : ∀ e t, P t → R e t) : (writeBody dev reg b val s).Meets R Q :=
  meets_check (hend _ s hs) <| meets_check (hend _ s hs) <| (hw _ _ _ s hs).thenOk (hend .ok)

theorem readBody_meets (dev reg b : Byte) (hs : P s) (hr : ∀ r, Keeps P Q (readTxn r))
    (hend : ∀ e t, P t → R e t) : (readBody dev reg b s).Meets R Q :=
  meets_check (hend _ s hs) <| meets_check (hend _ s hs) <| (hr _ s hs).thenOk (hend .ok)

theorem setPwBody_meets (dev slot color duty : Byte) (hs : P s) (hw : ∀ d r v, Keeps P Q (writeTxn d r v))
    (hend : ∀ e t, P t → R e t) : (setPwBody dev slot color duty s).Meets R Q :=
  meets_check (hend _ s hs) <| (hw _ _ _ s hs).thenOk (hend .ok)

theorem setGainBody_meets (dev slot color : Byte) (f : F32) (hs : P s) (hw : ∀ d r v, Keeps P Q (writeTxn d r v))
    (hend : ∀ e t, P t → R e t) (hres : ∀ w t, P t → R .ok (t.setResult w)) :
    (setGainBody dev slot color f s).Meets R Q := by
  refine meets_check (hend _ s hs) <| meets_check (hend _ s hs) ?_
  cases calibrate s.par color f s.window.cfgRext with
  | none => exact hend .numeric s hs
  | some q => exact (hw _ _ _ s hs).andThen fun _ t ht => hres _ t ht

theorem clearDevice_keeps (d : Nat) (hw : ∀ d r v, Keeps P Q (writeTxn d r v)) : Keeps P Q (clearDevice d) :=
  .forEach (fun _ => hw _ _ _) _

theorem clearChBody_meets (dev a b : Byte) (hs : P s) (hw : ∀ d r v, Keeps P Q (writeTxn d r v))
    (hend : ∀ e t, P t → R e t) : (clearChBody dev a b s).Meets R Q :=
  meets_check (hend _ s hs) <| meets_check (hend _ s hs) <| (clearDevice_keeps _ hw s hs).thenOk (hend .ok)

theorem clearAllBody_meets (dev a b : Byte) (hs : P s) (hw : ∀ d r v, Keeps P Q (writeTxn d r v))
    (hend : ∀ e t, P t → R e t) : (clearAllBody dev a b s).Meets R Q :=
  meets_check (hend _ s hs) <| (Keeps.forEach (fun d => clearDevice_keeps d hw) _ s hs).thenOk (hend .ok)

theorem qThermBody_meets (dev a b : Byte) (hs : P s) (hr : ∀ r, Keeps P Q (readTxn r)) (hend : ∀ e t, P t → R e t)
    (hres : ∀ w t, P t → R .ok (t.setResult w)) : (qThermBody dev a b s).Meets R Q :=
  meets_check (hend _ s hs) <| meets_check (hend _ s hs) <| (hr _ s hs).andThen fun _ t ht => hres _ t ht

theorem readFlags_keeps (d : Nat) (hr : ∀ r, Keeps P Q (readTxn r)) : Keeps P Q (readFlags d) :=
  have hflag : ∀ k, Keeps P Q (readFlag d k) := fun _ _ hs => (hr _ _ hs).andThen fun _ _ ht => ht
  (hflag 0).andThen fun _ => (hflag 1).andThen fun _ => (hflag 2).andThen fun _ => (hflag 3).andThen fun _ _ ht => ht

theorem qErrBody_meets (dev a b : Byte) (hs : P s) (hr : ∀ r, Keeps P Q (readTxn r)) (hend : ∀ e t, P t → R e t)
    (hres : ∀ w t, P t → R .ok (t.setResult w)) : (qErrBody dev a b s).Meets R Q :=
  meets_check (hend _ s hs) <| meets_check (hend _ s hs) <| (hr _ s hs).andThen fun _ t ht =>
    meets_check ((readFlags_keeps _ hr t ht).andThen fun _ u hu => hres _ u hu) (hres _ t ht)

theorem engStartBody_meets (dev a b : Byte) (hend : ∀ e, R e s)
    (hstart : startConfigOk s = true → R .ok { s with engine := startedEngine s }) :
    (engStartBody dev a b s).Meets R Q := by
  refine meets_check (hend _) ?_
  split
  · exact hend _
  · next hcfg => exact hstart (by simpa using hcfg)

/-- The rounds of ENG_STOP keep `P`; the pool they leave is what the engine stops with. -/
theorem engStopBody_meets (dev a b : Byte) (hs : P s) (hend : ∀ e t, P t → R e t) (hstop : ∀ j, Keeps P Q (stopSlot j))
    (hstopped : ∀ t, forEach (List.range s.par.poolCap) stopSlot s = .done () t → P t → R .ok t.stopEngine) :
    (engStopBody dev a b s).Meets R Q := by
  refine meets_check (hend _ s hs) ?_
  have hloop := Keeps.forEach hstop (List.range s.par.poolCap) s hs
  cases hl : forEach (List.range s.par.poolCap) stopSlot s with
  | done _ t =>
    rw [hl] at hloop
    exact hstopped t hl hloop
  | hung t =>
    rw [hl] at hloop
    exact hloop

/-- A tick update: `P` is kept by clearing the pending tick and by every round, and the spawn ends in `E`. -/
theorem tickBody_meets {E : State → Prop} {m : MathPair} (hs : P (s.setTickPending false))
    (hround : ∀ j, Keeps P Q (tickSlot m j)) (hspawn : ∀ t, P t → E (spawnOnce m t)) :
    (tickBody m s).Meets (fun _ => E) Q :=
  (Keeps.forEach hround _ _ hs).andThen fun _ t ht => hspawn t ht

end Bodies

/-- What a host command leaves, by what its body meets. -/
theorem completeCommand_of_meets {R : ErrorCode → State → Prop} {P Q : State → Prop} {r : Res ErrorCode} (op : Instr)
    (hr : r.Meets R Q) (hend : ∀ e t, R e t → P (t.endCommand e)) (hstuck : ∀ t, Q t → P (t.stuckIn op)) :
    P (completeCommand op r) := by
  cases r with
  | done e t => exact hend e t hr
  | hung t => exact hstuck t hr

/-- What an internal operation leaves, by what its body meets. -/
theorem completeInternal_of_meets {E P Q : State → Prop} {r : Res Unit} (op : Instr) (hr : r.Meets (fun _ => E) Q)
    (hend : ∀ t, E t → P t) (hstuck : ∀ t, Q t → P (t.stuckIn op)) : P (completeInternal op r) := by
  cases r with
  | done _ t => exact hend t hr
  | hung t => exact hstuck t hr

/-- PushRGB is three write transactions (41_channel_map.md R185). -/
theorem pushRGB_keeps {P Q : State → Prop} (hw : ∀ d r v, Keeps P Q (writeTxn d r v)) (d slot : Nat) (r g b : Byte) :
    Keeps P Q (pushRGB d slot r g b) :=
  (hw d _ r).andThen fun _ => (hw d _ g).andThen fun _ => hw d _ b

end Sys2Proof.Machine

/-! ### Who writes what (10_state.md R36, R44, R49, R56)

One account of the items that only named instructions may write: the parameters (none), rx, the active configuration
and RESULT.
`exec_writes` goes through the instructions once; each statement about one of the items reads it off. -/

namespace Sys2Proof

/-- The instructions that write rx (10_state.md R44). -/
def Instr.readsChain : Instr → Bool
  | .read .. | .qTherm .. | .qErr .. => true
  | _ => false

/-- The instruction that writes the active configuration (10_state.md R49). -/
def Instr.starts : Instr → Bool
  | .engStart .. => true
  | _ => false

/-- The instructions that write RESULT when they end OK (10_state.md R36). -/
def Instr.answers : Instr → Bool
  | .setGain .. | .qTherm .. | .qErr .. => true
  | _ => false

end Sys2Proof

namespace Sys2Proof.Machine

/-- `t` has the parameters of `s`, its rx unless the operation may write rx, and its active configuration and timer
period unless the operation may write these. -/
structure KeepsItems (readsChain starts : Bool) (s t : State) : Prop where
  par : t.par = s.par
  rx : readsChain = false → t.transport.rx = s.transport.rx
  config : starts = false → t.engine.actT = s.engine.actT ∧ t.engine.actK = s.engine.actK ∧
    t.engine.actS = s.engine.actS ∧ t.engine.tickPeriodOut = s.engine.tickPeriodOut

theorem KeepsItems.refl (a b : Bool) (s : State) : KeepsItems a b s s := ⟨rfl, fun _ => rfl, fun _ => ⟨rfl, rfl, rfl, rfl⟩⟩

/-- The items after an update that does not touch them. -/
theorem KeepsItems.update {a b : Bool} {s t u : State} (h : KeepsItems a b s t) (hpar : u.par = t.par)
    (hrx : u.transport.rx = t.transport.rx) (hT : u.engine.actT = t.engine.actT) (hK : u.engine.actK = t.engine.actK)
    (hS : u.engine.actS = t.engine.actS) (hP : u.engine.tickPeriodOut = t.engine.tickPeriodOut) : KeepsItems a b s u where
  par := hpar.trans h.par
  rx := fun ha => hrx.trans (h.rx ha)
  config := fun hb => by rw [hT, hK, hS, hP]; exact h.config hb

/-! #### rx under a write transaction -/

theorem busCall_rx (e : BusEvent) (s : State) : (busCall e s).state.transport.rx = s.transport.rx :=
  busCall_keeps (P := fun t => t.transport.rx = s.transport.rx) fun _ => rfl

theorem selAssert_rx (s : State) : (selAssert s).state.transport.rx = s.transport.rx :=
  Res.andThen_keeps (P := fun t => t.transport.rx = s.transport.rx) (busCall_rx _ s) fun _ _ _ ht => ht

theorem selDeassert_rx (s : State) : (selDeassert s).state.transport.rx = s.transport.rx := by
  refine Res.andThen_keeps (P := fun t => t.transport.rx = s.transport.rx) (busCall_rx _ s) fun _ t _ ht => ?_
  obtain ⟨m, l, hchips⟩ := chipsTake_eq (t.setSel false)
  rw [Res.state_done, hchips]
  exact ht

theorem xfer_rx (b : Byte) (s : State) : (xfer b s).state.transport.rx = s.transport.rx :=
  xfer_keeps (P := fun t => t.transport.rx = s.transport.rx) (fun _ => rfl) fun _ ht => ht

theorem sendUnit_rx (i : Nat) (s : State) : (sendUnit i s).state.transport.rx = s.transport.rx :=
  Res.andThen_keeps (P := fun t => t.transport.rx = s.transport.rx) (xfer_rx _ s) fun _ t _ ht =>
    Res.andThen_keeps (P := fun t => t.transport.rx = s.transport.rx) ((xfer_rx _ t).trans ht) fun _ _ _ hu => hu

/-- A write transaction discards what it receives (40_transport.md R151). -/
theorem writeTxn_rx (d : Nat) (r v : Byte) (s : State) : (writeTxn d r v s).state.transport.rx = s.transport.rx :=
  Res.andThen_keeps (P := fun t => t.transport.rx = s.transport.rx) (selAssert_rx (stageWrite d r v s))
    fun _ t _ ht => Res.andThen_keeps (forEach_keeps _ t ht fun i _ u hu => (sendUnit_rx i u).trans hu)
      fun _ u _ hu => (selDeassert_rx u).trans hu

/-! #### The pieces -/

/-- A piece on the bus that leaves rx alone, where the operation may not write rx, keeps the items. -/
theorem KeepsItems.bus {a b : Bool} {s t u : State} (h : KeepsItems a b s t) (hbus : BusOnly t u)
    (hrx : a = false → u.transport.rx = t.transport.rx) : KeepsItems a b s u where
  par := hbus.par.trans h.par
  rx := fun ha => (hrx ha).trans (h.rx ha)
  config := fun hb => by rw [hbus.engine]; exact h.config hb

/-- A state of an operation that has not written RESULT yet. -/
def ResultKept (a b : Bool) (s t : State) : Prop := KeepsItems a b s t ∧ t.window.result = s.window.result

theorem ResultKept.refl (a b : Bool) (s : State) : ResultKept a b s s := ⟨.refl a b s, rfl⟩

theorem writeTxn_keepsItems {a b : Bool} {s : State} (d : Nat) (r v : Byte) :
    Keeps (ResultKept a b s) (ResultKept a b s) (writeTxn d r v) := fun t ht =>
  have hbus := writeTxn_busOnly d r v t
  Res.meets_of_state ⟨ht.1.bus hbus fun _ => writeTxn_rx d r v t, hbus.window ▸ ht.2⟩

theorem readTxn_keepsItems {b : Bool} {s : State} (r : Byte) :
    Keeps (ResultKept true b s) (ResultKept true b s) (readTxn r) := fun t ht =>
  have hbus := readTxn_busOnly r t
  Res.meets_of_state ⟨ht.1.bus hbus nofun, hbus.window ▸ ht.2⟩

theorem pushRGB_keepsItems {a b : Bool} {s : State} (d l : Nat) (x y z : Byte) :
    Keeps (ResultKept a b s) (ResultKept a b s) (pushRGB d l x y z) :=
  pushRGB_keeps writeTxn_keepsItems d l x y z

theorem setSlot_keepsItems {a b : Bool} {s t : State} (h : ResultKept a b s t) (j : Nat) (x : Slot) :
    ResultKept a b s (t.setSlot j x) :=
  ⟨h.1.update rfl rfl rfl rfl rfl rfl, h.2⟩

theorem stopSlot_keepsItems {a b : Bool} {s : State} (j : Nat) :
    Keeps (ResultKept a b s) (ResultKept a b s) (stopSlot j) := fun t ht =>
  meets_check ((pushRGB_keepsItems _ _ _ _ _ t ht).andThen fun _ _ hu => setSlot_keepsItems hu j _) ht

theorem tickActiveSlot_keepsItems {a b : Bool} {s : State} (m : MathPair) (j : Nat) (x : Slot) :
    Keeps (ResultKept a b s) (ResultKept a b s) (tickActiveSlot m j x) := fun t ht =>
  (pushRGB_keepsItems _ _ _ _ _ t ht).andThen fun _ u hu =>
    meets_check ((pushRGB_keepsItems _ _ _ _ _ u hu).andThen fun _ _ hv => setSlot_keepsItems hv j _)
      (setSlot_keepsItems hu j _)

theorem tickSlot_keepsItems {a b : Bool} {s : State} (m : MathPair) (j : Nat) :
    Keeps (ResultKept a b s) (ResultKept a b s) (tickSlot m j) := fun t ht =>
  meets_check (tickActiveSlot_keepsItems m j _ t ht) ht

theorem spawnOnce_keepsItems {a b : Bool} {s t : State} (m : MathPair) (h : ResultKept a b s t) :
    ResultKept a b s (spawnOnce m t) := by
  obtain ⟨hpar, hwindow, htransport, -, hengine⟩ := spawnOnce_frame m t
  refine ⟨h.1.update hpar ?_ ?_ ?_ ?_ ?_, hwindow ▸ h.2⟩
  · rw [htransport]
  all_goals rw [hengine]

/-! #### A unit at a chip of its own -/

/-- `t` is `s` but for what the chips hold and have latched, as many latches and the registers in canonical form. -/
def ChipsOnly (s t : State) : Prop := ∃ m l, t = s.setChips m l ∧ l.length = s.env.latch.length ∧
  (Memory.wf s.env.chips.bytes = true → Memory.wf m.bytes = true)

theorem ChipsOnly.refl (s : State) : ChipsOnly s s := ⟨s.env.chips, s.env.latch, rfl, rfl, id⟩

theorem chipIdle_chipsOnly (p : Nat) (s : State) : ChipsOnly s (chipIdle p s) := by
  unfold chipIdle
  split
  · exact ⟨_, _, rfl, List.length_set, id⟩
  · exact .refl s

theorem chipWrite_chipsOnly (p : Nat) (r : Reg7) (v : Byte) (s : State) : ChipsOnly s (chipWrite p r v s) := by
  unfold chipWrite
  split
  · exact ⟨_, _, rfl, List.length_set, chipStore_wf p r v⟩
  · exact .refl s

theorem chipLatch_chipsOnly (p : Nat) (r : Reg7) (s : State) : ChipsOnly s (chipLatch p r s) := by
  unfold chipLatch
  split
  · exact ⟨_, _, rfl, List.length_set, id⟩
  · exact .refl s

/-! #### The instructions -/

/-- What an instruction leaves of the items: it writes only those it is a writer of, and RESULT only when it ends OK. -/
structure Writes (i : Instr) (s t : State) : Prop where
  items : KeepsItems i.readsChain i.starts s t
  result : t.window.result = s.window.result ∨ (t.window.err = .ok ∧ i.answers = true)

theorem ResultKept.writes {i : Instr} {s t : State} (h : ResultKept i.readsChain i.starts s t) : Writes i s t :=
  ⟨h.1, .inl h.2⟩

theorem ChipsOnly.writes {s t : State} (i : Instr) (h : ChipsOnly s t) : Writes i s t := by
  obtain ⟨m, l, rfl, -, -⟩ := h
  exact ⟨(KeepsItems.refl _ _ s).update rfl rfl rfl rfl rfl rfl, .inl rfl⟩

/-- What a command's body may leave: where RESULT has been written, the command ends OK and is one that answers. -/
def BodyWrites (i : Instr) (s : State) (e : ErrorCode) (t : State) : Prop :=
  KeepsItems i.readsChain i.starts s t ∧ (t.window.result = s.window.result ∨ (e = .ok ∧ i.answers = true))

theorem ResultKept.bodyWrites {i : Instr} {s : State} (e : ErrorCode) (t : State)
    (h : ResultKept i.readsChain i.starts s t) : BodyWrites i s e t := ⟨h.1, .inl h.2⟩

theorem setResult_bodyWrites {i : Instr} {s : State} (hi : i.answers = true) (w : Word) (t : State)
    (h : ResultKept i.readsChain i.starts s t) : BodyWrites i s .ok (t.setResult w) :=
  ⟨h.1.update rfl rfl rfl rfl rfl rfl, .inr ⟨rfl, hi⟩⟩

theorem completeCommand_writes {i : Instr} {s : State} {r : Res ErrorCode}
    (h : r.Meets (BodyWrites i s) (ResultKept i.readsChain i.starts s)) : Writes i s (completeCommand i r) :=
  completeCommand_of_meets i h (fun _ _ ht => ⟨ht.1.update rfl rfl rfl rfl rfl rfl, ht.2⟩)
    fun _ ht => ⟨ht.1.update rfl rfl rfl rfl rfl rfl, .inl ht.2⟩

/-- Starting writes the active configuration, and nothing else of the items (42_twinkle.md R230). -/
theorem startedEngine_bodyWrites (dev a b : Byte) (s : State) :
    BodyWrites (.engStart dev a b) s .ok { s with engine := startedEngine s } :=
  ⟨⟨rfl, fun _ => rfl, nofun⟩, .inl rfl⟩

theorem execTickUpdate_writes (s : State) :
    Writes .tickUpdate s (completeInternal .tickUpdate (tickBody Config.math s)) :=
  have hclear : ResultKept false false s (s.setTickPending false) :=
    ⟨(KeepsItems.refl _ _ s).update rfl rfl rfl rfl rfl rfl, rfl⟩
  completeInternal_of_meets _ (tickBody_meets hclear (tickSlot_keepsItems _) fun _ => spawnOnce_keepsItems _)
    (fun _ ht => ResultKept.writes (i := .tickUpdate) ht)
    fun _ ht => ResultKept.writes (i := .tickUpdate) ⟨ht.1.update rfl rfl rfl rfl rfl rfl, ht.2⟩

/-- Every instruction writes only the items it is a writer of, whether it ends or hangs. -/
theorem exec_writes {i : Instr} {s t : State} (h : exec i s = .next t) : Writes i s t := by
  have h0 := ResultKept.refl i.readsChain i.starts s
  cases i with
  | nop dev a b => cases h; exact completeCommand_writes (nopBody_meets dev a b fun e => h0.bodyWrites e s)
  | write dev reg b val =>
    cases h; exact completeCommand_writes (writeBody_meets dev reg b val h0 writeTxn_keepsItems ResultKept.bodyWrites)
  | read dev reg b =>
    cases h; exact completeCommand_writes (readBody_meets dev reg b h0 readTxn_keepsItems ResultKept.bodyWrites)
  | setPw dev slot color duty =>
    cases h
    exact completeCommand_writes (setPwBody_meets dev slot color duty h0 writeTxn_keepsItems ResultKept.bodyWrites)
  | setGain dev slot color f =>
    cases h
    exact completeCommand_writes
      (setGainBody_meets dev slot color f h0 writeTxn_keepsItems ResultKept.bodyWrites (setResult_bodyWrites rfl))
  | clearCh dev a b =>
    cases h; exact completeCommand_writes (clearChBody_meets dev a b h0 writeTxn_keepsItems ResultKept.bodyWrites)
  | clearAll dev a b =>
    cases h; exact completeCommand_writes (clearAllBody_meets dev a b h0 writeTxn_keepsItems ResultKept.bodyWrites)
  | engStart dev a b =>
    cases h
    exact completeCommand_writes
      (engStartBody_meets dev a b (fun e => h0.bodyWrites e s) fun _ => startedEngine_bodyWrites dev a b s)
  | engStop dev a b =>
    cases h
    exact completeCommand_writes (engStopBody_meets dev a b h0 ResultKept.bodyWrites stopSlot_keepsItems
      fun _ _ ht => ⟨ht.1.update rfl rfl rfl rfl rfl rfl, .inl ht.2⟩)
  | qTherm dev a b =>
    cases h
    exact completeCommand_writes
      (qThermBody_meets dev a b h0 readTxn_keepsItems ResultKept.bodyWrites (setResult_bodyWrites rfl))
  | qErr dev a b =>
    cases h
    exact completeCommand_writes
      (qErrBody_meets dev a b h0 readTxn_keepsItems ResultKept.bodyWrites (setResult_bodyWrites rfl))
  | reservedOp op dev a b => cases h; exact completeCommand_writes (r := .done .opcode s) (h0.bodyWrites .opcode s)
  | tickUpdate => cases h; exact execTickUpdate_writes s
  | spawn => cases h; exact (spawnOnce_keepsItems _ h0).writes
  | wireNop => cases h; exact (chipIdle_chipsOnly _ s).writes _
  | wireWr reg val => cases h; exact (chipWrite_chipsOnly _ reg val s).writes _
  | wireRd reg dummy => cases h; exact (chipLatch_chipsOnly _ reg s).writes _

/-! #### The statements -/

/-- Settles O28: rx has its writers, and `exec_writes` says that nothing else writes it. -/
theorem onlyReadTransactionsWriteRx : Obligations.OnlyReadTransactionsWriteRx := by
  intro i s t h hread htherm herr
  refine (exec_writes h).items.rx ?_
  cases i with
  | read d r b => exact absurd rfl (hread d r b)
  | qTherm d a b => exact absurd rfl (htherm d a b)
  | qErr d a b => exact absurd rfl (herr d a b)
  | _ => rfl

/-- Settles O44: the active configuration is an item of ENG_START's alone. -/
theorem onlyStartWritesTheActiveConfiguration : Obligations.OnlyStartWritesTheActiveConfiguration := by
  intro i s t h hstart
  refine (exec_writes h).items.config ?_
  cases i with
  | engStart d a b => exact absurd rfl (hstart d a b)
  | _ => rfl

theorem eq_of_answers {i : Instr} (h : i.answers = true) :
    (∃ d l c f, i = .setGain d l c f) ∨ (∃ d a b, i = .qTherm d a b) ∨ ∃ d a b, i = .qErr d a b := by
  cases i with
  | setGain d l c f => exact .inl ⟨d, l, c, f, rfl⟩
  | qTherm d a b => exact .inr (.inl ⟨d, a, b, rfl⟩)
  | qErr d a b => exact .inr (.inr ⟨d, a, b, rfl⟩)
  | _ => cases h

/-- Settles O48: where RESULT has changed, the instruction is one that answers, and it has ended OK. -/
theorem onlyThreeCommandsWriteResult : Obligations.OnlyThreeCommandsWriteResult := by
  intro i s t h hchanged
  obtain ⟨hok, hi⟩ := (exec_writes h).result.resolve_left hchanged
  exact ⟨hok, eq_of_answers hi⟩

end Sys2Proof.Machine

/-! ### Turns and steps (10_state.md R46, 20_memory.md R93) -/

namespace Sys2Proof.Machine

/-- With an empty queue the turn is the sequencer's (log 2). -/
theorem nextTurn_of_empty {s : State} (h : s.env.events = []) : nextTurn s = sequencerTurn s := by
  simp only [nextTurn, h]

/-- Else it is that of the next event. -/
theorem nextTurn_of_event {s : State} {e : Event} {l : List Event} (h : s.env.events = e :: l) :
    nextTurn s = eventTurn e (s.setEvents l) := by
  simp only [nextTurn, h]

theorem step_of_run {s t : State} {i : Instr} (h : nextTurn s = .run i t) : step s = exec i t := by
  simp only [step, h]

theorem step_of_stay {s t : State} (h : nextTurn s = .stay t) : step s = .next t := by
  simp only [step, h]

/-- An event that only moves the state. -/
theorem step_of_event {s t : State} {e : Event} {l : List Event} (h : s.env.events = e :: l)
    (ht : eventTurn e (s.setEvents l) = .stay t) : step s = .next t :=
  step_of_stay ((nextTurn_of_event h).trans ht)

theorem sequencerTurn_stuck {s : State} {op : Instr} (h : s.seq = .exec op) : sequencerTurn s = .stay s := by
  simp only [sequencerTurn, h]

theorem sequencerTurn_tick {s : State} (h : s.seq = .idle)
    (hp : s.engine.running = true ∧ s.engine.tickPending = true) : sequencerTurn s = .run .tickUpdate s := by
  simp only [sequencerTurn, h, hp, Bool.and_self, if_true]

theorem sequencerTurn_command {s : State} (h : s.seq = .idle)
    (hp : ¬(s.engine.running = true ∧ s.engine.tickPending = true)) (hc : s.window.cmdValid = true) :
    sequencerTurn s = .run (decodeCommand s.window.cmdWord s.window.cmdArg) s := by
  simp only [sequencerTurn, h, Bool.and_eq_true, if_neg hp, if_pos hc]

theorem sequencerTurn_idle {s : State} (h : s.seq = .idle)
    (hp : ¬(s.engine.running = true ∧ s.engine.tickPending = true)) (hc : s.window.cmdValid = false) :
    sequencerTurn s = .stay s := by
  simp only [sequencerTurn, h, Bool.and_eq_true, if_neg hp, hc, if_false, Bool.false_eq_true]

/-- What the sequencer can choose. -/
theorem sequencerTurn_cases (s : State) :
    sequencerTurn s = .stay s ∨
      (s.seq = .idle ∧ s.engine.running = true ∧ sequencerTurn s = .run .tickUpdate s) ∨
      (s.seq = .idle ∧ sequencerTurn s = .run (decodeCommand s.window.cmdWord s.window.cmdArg) s) := by
  cases hseq : s.seq with
  | exec op => exact .inl (sequencerTurn_stuck hseq)
  | idle =>
    by_cases hp : s.engine.running = true ∧ s.engine.tickPending = true
    · exact .inr (.inl ⟨rfl, hp.1, sequencerTurn_tick hseq hp⟩)
    · cases hc : s.window.cmdValid with
      | true => exact .inr (.inr ⟨rfl, sequencerTurn_command hseq hp hc⟩)
      | false => exact .inl (sequencerTurn_idle hseq hp hc)

/-- What a turn can be, once the event it takes is off the queue of `s`: nothing, the effect of an outside event, a tick
update or a command of the idle sequencer, or a unit at a chip. -/
inductive TurnCase (s : State) : Turn → Prop
  | stays : TurnCase s (.stay s)
  | hostRead (off : BitVec 12) (size : AccessSize) : TurnCase s (.stay (hostRead off size s))
  | hostWrite (off : BitVec 12) (size : AccessSize) (w : Word) : TurnCase s (.stay (hostWrite off size w s))
  | tick : TurnCase s (.stay (tickArrives s))
  | reset : TurnCase s (.stay (resetBlock s))
  | hang (k : Nat) : TurnCase s (.stay (s.setHang (some k)))
  | tickUpdate (hseq : s.seq = .idle) (hrun : s.engine.running = true) : TurnCase s (.run .tickUpdate s)
  | command (hseq : s.seq = .idle) (cmd arg : Word) : TurnCase s (.run (decodeCommand cmd arg) s)
  | wireUnit (p : Nat) (u : Unit16) : TurnCase s (.run (decodeUnit u) { s with env := { s.env with unitPos := p } })

theorem sequencerTurn_turnCase (s : State) : TurnCase s (sequencerTurn s) := by
  rcases sequencerTurn_cases s with h | ⟨hseq, hrun, h⟩ | ⟨hseq, h⟩ <;> rw [h]
  · exact .stays
  · exact .tickUpdate hseq hrun
  · exact .command hseq _ _

theorem eventTurn_turnCase (e : Event) (s : State) : TurnCase s (eventTurn e s) := by
  cases e with
  | turn => exact sequencerTurn_turnCase s
  | wireUnit p u => exact .wireUnit p u
  | hostRead off size => exact .hostRead off size
  | hostWrite off size w => exact .hostWrite off size w
  | tick => exact .tick
  | reset => exact .reset
  | hang k => exact .hang k

theorem nextTurn_turnCase (s : State) : ∃ l, TurnCase (s.setEvents l) (nextTurn s) := by
  cases hq : s.env.events with
  | nil =>
    have hs : s.setEvents [] = s := by rw [← hq]; rfl
    exact ⟨[], by rw [hs, nextTurn_of_empty hq]; exact sequencerTurn_turnCase s⟩
  | cons e l => exact ⟨l, by rw [nextTurn_of_event hq]; exact eventTurn_turnCase e _⟩

/-- What a step can be. -/
theorem step_cases {s t : State} (h : step s = .next t) : ∃ l turn, TurnCase (s.setEvents l) turn ∧
    (turn = .stay t ∨ ∃ i u, turn = .run i u ∧ exec i u = .next t) := by
  obtain ⟨l, hcase⟩ := nextTurn_turnCase s
  refine ⟨l, nextTurn s, hcase, ?_⟩
  unfold step at h
  split at h
  · next i u hrun => exact .inr ⟨i, u, hrun, h⟩
  · next u hstay =>
    cases h
    exact .inl hstay

/-- Settles O5: either way the turn is the sequencer's, and its choice is read off case by case. -/
theorem sequencerRunsTickThenCommand : Obligations.SequencerRunsTickThenCommand := by
  intro s t hqueue hseq
  have hturn : nextTurn s = sequencerTurn t := by
    rcases hqueue with ⟨hempty, rfl⟩ | ⟨l, hq, rfl⟩
    · exact nextTurn_of_empty hempty
    · exact nextTurn_of_event hq
  obtain ⟨hseq', hengine, hwindow⟩ : t.seq = s.seq ∧ t.engine = s.engine ∧ t.window = s.window := by
    rcases hqueue with ⟨-, rfl⟩ | ⟨l, -, rfl⟩ <;> exact ⟨rfl, rfl, rfl⟩
  rw [← hseq'] at hseq
  rw [← hengine, ← hwindow]
  exact ⟨fun hp => step_of_run (hturn.trans (sequencerTurn_tick hseq hp)),
    fun hp hc => step_of_run (hturn.trans (sequencerTurn_command hseq hp hc)),
    fun hp hc => step_of_stay (hturn.trans (sequencerTurn_idle hseq hp hc))⟩

/-- Words placed for the next step: the next step runs the instruction they decode to (log 16). -/
theorem step_placeWords (s : State) (ws : Words) : ∃ t, step (placeWords s ws) = exec (decode ws) t ∧ t.par = s.par ∧
    t.transport = s.transport ∧ t.engine.slots = s.engine.slots ∧ t.env.chips = s.env.chips ∧
    t.env.trace = s.env.trace := by
  cases ws with
  | command cmd arg =>
    refine ⟨placeWords s (.command cmd arg), step_of_run ?_, rfl, rfl, rfl, rfl, rfl⟩
    have hp : ¬(s.engine.running = true ∧ (s.engine.tickPending && !s.engine.running) = true) := by
      cases s.engine.running <;> simp
    exact (nextTurn_of_empty rfl).trans (sequencerTurn_command rfl hp rfl)
  | wireUnit u =>
    exact ⟨_, step_of_run (nextTurn_of_event (e := .wireUnit 0 u) (l := []) rfl), rfl, rfl, rfl, rfl, rfl⟩

/-- Settles O7: the bit string is the words that are placed. -/
theorem placedInstructionRunsNext : Obligations.PlacedInstructionRunsNext := by
  intro s nbits w i h
  unfold decodeTableWord decodeBits at h
  cases hw : wordsOfBits nbits w with
  | error e => simp [hw] at h
  | ok ws =>
    obtain rfl : decode ws = i := by simpa [hw] using h
    have hplace : s.withFetchWord nbits w = placeWords s ws := by simp only [State.withFetchWord, hw]
    rw [hplace]
    exact step_placeWords s ws

/-! ### The host's writes of CMD and STATUS, and what STATUS shows (10_state.md R35, R45) -/

/-- A legal host write is one of the window's register at its offset (20_memory.md R83). -/
theorem step_hostWrite {s : State} {off : BitVec 12} {w : Word} {l : List Event}
    (h : s.env.events = .hostWrite off .four w :: l) (hoff : off.toNat % 4 = 0) :
    step s = .next (windowWrite off.toNat w (s.setEvents l)) := by
  have hlegal : accessLegal off .four = true := by simp [accessLegal, hoff]
  exact step_of_event h (by simp only [eventTurn, hostWrite, hlegal, if_true])

/-- Settles O11, by the two branches of `issueCommand`. -/
theorem commandWriteIssuesOrIsDropped : Obligations.CommandWriteIssuesOrIsDropped := by
  intro s w l h
  have hstep : step s = .next (issueCommand w (s.setEvents l)) := step_hostWrite h rfl
  have hvalid : (s.setEvents l).window.cmdValid = s.window.cmdValid := rfl
  refine ⟨fun hv => ?_, fun hv => ?_⟩
  · rw [hstep, issueCommand, if_pos (hvalid.trans hv)]
    rfl
  · rw [hstep, issueCommand, if_neg (by simp [hv])]
    rfl

/-- Settles O13: the state left is `clearSticky`, bit by bit. -/
theorem statusWriteClearsStickyBits : Obligations.StatusWriteClearsStickyBits := by
  intro s w l h
  exact ⟨(s.setEvents l).clearSticky w, step_hostWrite h rfl, rfl, by simp, by simp, by simp⟩

theorem getLsbD_append_ofBool {n : Nat} (x : BitVec n) (b : Bool) (i : Nat) :
    (x ++ BitVec.ofBool b).getLsbD i = if i = 0 then b else x.getLsbD (i - 1) := by
  rw [BitVec.getLsbD_append]
  cases i <;> simp

/-- Bit i of STATUS: the six flags from bit 0 on, two reserved bits, the error code, and 0 above (10_state.md R35). -/
theorem statusWord_getLsbD (s : State) (i : Nat) :
    (statusWord s).getLsbD i =
      if i = 0 then s.window.cmdValid else if i = 1 then s.engine.running else if i = 2 then s.engine.tickPending
      else if i = 3 then s.window.tickOvr else if i = 4 then s.window.cmdOvr else if i = 5 then s.window.accErr
      else if i < 8 then false else (errorBits s.window.err).getLsbD (i - 8) := by
  unfold statusWord
  show BitVec.getLsbD (w := 20 + 4 + 2 + 1 + 1 + 1 + 1 + 1 + 1) _ i = _
  simp only [getLsbD_append_ofBool]
  rw [BitVec.getLsbD_append, BitVec.getLsbD_append]
  rcases i with _ | _ | _ | _ | _ | _ | i
  iterate 6 rfl
  by_cases hcode : i - 2 < 4
  · have hlow : i + 6 < 8 ↔ i ≤ 1 := by omega
    simp [hcode, hlow]
  · simp [hcode, BitVec.getLsbD_of_ge _ _ (Nat.le_of_not_lt hcode)]

/-- The bits of STATUS from a place above the flags on (10_state.md R35). -/
theorem statusWord_getLsbD_above (s : State) {i : Nat} (hi : 6 ≤ i) :
    (statusWord s).getLsbD i = if i < 8 then false else (errorBits s.window.err).getLsbD (i - 8) := by
  rw [statusWord_getLsbD, if_neg (by omega), if_neg (by omega), if_neg (by omega), if_neg (by omega),
    if_neg (by omega), if_neg (by omega)]

/-- Settles O14: `statusWord_getLsbD` bit by bit, and for ERR the code's own bits. -/
theorem statusShowsItsFields : Obligations.StatusShowsItsFields := by
  intro s
  have hbit := statusWord_getLsbD s
  refine ⟨hbit 0, hbit 1, hbit 2, hbit 3, hbit 4, hbit 5, ?_, ?_, ?_⟩
  · refine BitVec.eq_of_getLsbD_eq fun i hi => ?_
    simp [hi, statusWord_getLsbD_above s (show 6 ≤ 6 + i by omega), show 6 + i < 8 by omega]
  · refine BitVec.eq_of_getLsbD_eq fun i hi => ?_
    simp [statusWord_getLsbD_above s (show 6 ≤ 12 + i by omega),
      BitVec.getLsbD_of_ge (errorBits s.window.err) (12 + i - 8) (by omega)]
  · have herr : (statusWord s).extractLsb' 8 4 = errorBits s.window.err := by
      refine BitVec.eq_of_getLsbD_eq fun i hi => ?_
      simp [hi, statusWord_getLsbD_above s (show 6 ≤ 8 + i by omega)]
    rw [herr]
    cases s.window.err <;> rfl
/-! ### Reset (10_state.md R58, 70_reset_and_hazards.md R340) -/

/-- A block whose window, transport, sequencer and engine are those of reset holds every value of R58's table. -/
theorem holdsResetValues_of {t : State} (hwindow : t.window = Window.reset) (htransport : t.transport = Transport.reset t.par.n)
    (hseq : t.seq = .idle) (hengine : t.engine = Engine.reset t.par.poolCap) : HoldsResetValues t := by
  have hstatus : statusWord t = 0x00000000#32 := by
    simp only [statusWord, hwindow, hengine, Window.reset, Engine.reset, errorBits]
    rfl
  constructor <;> simp only [hwindow, htransport, hengine, hseq, hstatus] <;> rfl

/-- Settles O17: `State.reset` and `resetBlock` both set the four parts to their reset values. -/
theorem resetGivesEveryItemItsValue : Obligations.ResetGivesEveryItemItsValue :=
  ⟨holdsResetValues_of rfl rfl rfl rfl,
    fun _ _ h => ⟨_, step_of_event h rfl, holdsResetValues_of rfl rfl rfl rfl, rfl⟩⟩

/-! ### The parameters (10_state.md R56) -/

/-- A write of a window register touches the window only. -/
theorem windowWrite_window (off : Nat) (w : Word) (s : State) : ∃ v, windowWrite off w s = { s with window := v } := by
  have hissue : ∃ v, issueCommand w s = { s with window := v } := by
    unfold issueCommand
    split <;> exact ⟨_, rfl⟩
  unfold windowWrite
  split_ifs
  · exact hissue
  all_goals exact ⟨_, rfl⟩

/-- A host write touches the window only (20_memory.md R83, R84). -/
theorem hostWrite_window (off : BitVec 12) (size : AccessSize) (w : Word) (s : State) :
    ∃ v, hostWrite off size w s = { s with window := v } := by
  unfold hostWrite
  split
  · exact windowWrite_window _ w s
  · exact ⟨_, rfl⟩

/-- A host read touches ACC_ERR and what it returns only (20_memory.md R83, R84). -/
theorem hostRead_window (off : BitVec 12) (size : AccessSize) (s : State) :
    ∃ v r, hostRead off size s = { s with window := v, env := { s.env with readData := r } } := by
  unfold hostRead
  split <;> exact ⟨_, _, rfl⟩

/-- A tick that arrives touches TICK_OVR, or becomes pending while the engine runs (60_exceptions.md R306-R308). -/
theorem tickArrives_cases (s : State) : (∃ v, tickArrives s = { s with window := v }) ∨
    (s.engine.running = true ∧ tickArrives s = s.setTickPending true) := by
  unfold tickArrives
  split
  · exact .inl ⟨_, rfl⟩
  · next hrun =>
    split
    · exact .inl ⟨_, rfl⟩
    · exact .inr ⟨by simpa using hrun, rfl⟩

/-- The state a turn moves to or runs from. -/
def Turn.state : Turn → State
  | .run _ s => s
  | .stay s => s

/-- The state of a turn has the parameters of the state it is taken in. -/
theorem TurnCase.par {s : State} {turn : Turn} (h : TurnCase s turn) : turn.state.par = s.par := by
  cases h with
  | hostRead off size =>
    obtain ⟨v, r, hread⟩ := hostRead_window off size s
    simp only [Turn.state, hread]
  | hostWrite off size w =>
    obtain ⟨v, hwrite⟩ := hostWrite_window off size w s
    simp only [Turn.state, hwrite]
  | tick => obtain ⟨v, htick⟩ | ⟨-, htick⟩ := tickArrives_cases s <;> simp [Turn.state, htick]
  | stays | reset | hang | tickUpdate | command | wireUnit => rfl

/-- Settles O52: no outside event changes a parameter, and no instruction does (`exec_writes`). -/
theorem stepKeepsTheParameters : Obligations.StepKeepsTheParameters := by
  intro s t h
  obtain ⟨l, turn, hcase, rfl | ⟨i, u, rfl, hexec⟩⟩ := step_cases h
  · exact hcase.par
  · exact (exec_writes hexec).items.par.trans hcase.par

end Sys2Proof.Machine

/-! ### The invariant (10_state.md R51, R54, R55)

`Inv` ties the select line to the sequencer, and inside an operation that tie does not hold. `Sound` is the rest of it,
which every piece of an operation keeps, whether it ends or hangs; the select line is followed beside it, since only a
piece that ends has deasserted it again. -/

namespace Sys2Proof.Machine

/-! #### The order of binary32 values, and the rates -/

theorem f32Lt_of_lt_of_le {a b c : F32} (hab : f32Lt a b = true) (hbc : f32Le b c = true) : f32Lt a c = true := by
  simp only [f32Lt, f32Le, Bool.and_eq_true, decide_eq_true_eq] at hab hbc ⊢
  exact ⟨⟨hab.1.1, hbc.1.2⟩, lt_of_lt_of_le hab.2 hbc.2⟩

theorem f32Lt_of_le_of_lt {a b c : F32} (hab : f32Le a b = true) (hbc : f32Lt b c = true) : f32Lt a c = true := by
  simp only [f32Lt, f32Le, Bool.and_eq_true, decide_eq_true_eq] at hab hbc ⊢
  exact ⟨⟨hab.1.1, hbc.1.2⟩, lt_of_le_of_lt hab.2 hbc.2⟩

/-- The constraints of 00_scope.md R8 that the pool relies on. -/
structure PoolParams (p : Params) : Prop where
  nPos : 0 < p.n
  nByte : p.n ≤ 255
  a0Pos : f32Lt f32Zero p.a0Min = true
  a0Order : f32Le p.a0Min p.a0Max = true
  ratesApart : f32Lt p.a0Max p.a1Min = true

theorem poolParams_of_valid {p : Params} (h : paramsValid p = true) : PoolParams p := by
  simp only [paramsValid, Bool.and_eq_true, decide_eq_true_eq, and_assoc] at h
  obtain ⟨hn, hbyte, -, -, -, -, -, -, hpos, horder, -, hapart, -⟩ := h
  exact ⟨hn, hbyte, hpos, horder, hapart⟩

/-- Rates brought into the ranges are rates that a slot may have (00_scope.md R15, 10_state.md R54 (d)). -/
theorem fitRates_good {p : Params} (hp : PoolParams p) (r : F32 × F32) :
    f32Lt f32Zero (fitRates p r).1 = true ∧ f32Lt (fitRates p r).1 (fitRates p r).2 = true := by
  unfold fitRates
  split
  · next hin =>
    simp only [ratesInRange, Bool.and_eq_true] at hin
    exact ⟨f32Lt_of_lt_of_le hp.a0Pos hin.1.1.1.1, hin.2⟩
  · exact ⟨hp.a0Pos, f32Lt_of_le_of_lt hp.a0Order hp.ratesApart⟩

/-! #### The pool -/

/-- The invariants of the pool depend on the parameters and the engine only. -/
theorem PoolGood.congr {s t : State} (h : PoolGood s) (hpar : t.par = s.par) (hengine : t.engine = s.engine) :
    PoolGood t := by
  have hslot : ∀ j, slotAt t j = slotAt s j := fun j => by rw [slotAt, hengine, slotAt]
  constructor <;> simp only [hslot, hpar, hengine]
  · exact h.distinct
  · exact h.bounded
  · exact h.stopped
  · exact h.slots

theorem slotGood_inactive (p : Params) : SlotGood p inactiveSlot := by
  constructor <;> simp [inactiveSlot]

/-- A pool with no active slot. -/
theorem poolGood_of_inactive {s : State} (h : ∀ j, slotAt s j = inactiveSlot) : PoolGood s where
  distinct := fun i _ _ hi => by simp [h i, inactiveSlot] at hi
  bounded := fun j _ => h j
  stopped := fun _ => h
  slots := fun j => h j ▸ slotGood_inactive s.par

theorem slotAt_of_replicate {s : State} {k : Nat} (h : s.engine.slots = List.replicate k inactiveSlot) (j : Nat) :
    slotAt s j = inactiveSlot := by
  rw [slotAt, h, List.getD_eq_getElem?_getD, List.getElem?_replicate]
  split <;> rfl

theorem slotAt_of_length_le {s : State} {j : Nat} (h : s.engine.slots.length ≤ j) : slotAt s j = inactiveSlot := by
  rw [slotAt, List.getD_eq_default _ _ h]

theorem slotAt_clearSlot (s : State) (i j : Nat) :
    slotAt (s.setSlot i inactiveSlot) j = if i = j then inactiveSlot else slotAt s j := by
  rw [slotAt_setSlot]
  by_cases hij : i = j
  · subst hij
    by_cases hlen : i < s.engine.slots.length
    · simp [hlen]
    · simp [hlen, slotAt_of_length_le (Nat.le_of_not_lt hlen)]
  · simp [hij]

/-- Storing a good slot: one in use only below act_S of a running engine, and with an LED no other slot has. -/
theorem PoolGood.setSlot {s : State} (h : PoolGood s) {j : Nat} {x : Slot} (hgood : SlotGood s.par x)
    (huse : x = inactiveSlot ∨ (j < s.engine.actS.toNat ∧ s.engine.running = true))
    (hled : x.active = true → ∀ i, i ≠ j → (slotAt s i).active = true →
      ¬((slotAt s i).dev = x.dev ∧ (slotAt s i).led = x.led)) : PoolGood (s.setSlot j x) where
  distinct := fun a b hab ha hb => by
    rw [slotAt_setSlot] at ha hb ⊢
    rw [slotAt_setSlot]
    split at ha
    · next hja =>
      have hjb : ¬(j = b ∧ j < s.engine.slots.length) := fun hjb => hab (hja.1.symm.trans hjb.1)
      rw [if_neg hjb] at hb ⊢
      rw [if_pos hja]
      exact fun hsame => hled ha b (fun hbj => hab (hja.1.symm.trans hbj.symm)) hb ⟨hsame.1.symm, hsame.2.symm⟩
    · next hja =>
      rw [if_neg hja]
      split at hb
      · next hjb =>
        rw [if_pos hjb]
        exact hled hb a (fun haj => hab (haj.trans hjb.1)) ha
      · next hjb =>
        rw [if_neg hjb]
        exact h.distinct a b hab ha hb
  bounded := fun i hi => by
    rw [slotAt_setSlot]
    split
    · next hji =>
      refine huse.resolve_right fun hj => ?_
      have : s.engine.actS.toNat ≤ i := hi
      omega
    · exact h.bounded i hi
  stopped := fun hstop i => by
    rw [slotAt_setSlot]
    split
    · exact huse.resolve_right fun hj => Bool.false_ne_true (hstop.symm.trans hj.2)
    · exact h.stopped hstop i
  slots := fun i => by
    rw [slotAt_setSlot]
    split
    · exact hgood
    · exact h.slots i

/-- An active slot is in use: below act_S, and the engine runs. -/
theorem PoolGood.inUse {s : State} (h : PoolGood s) {j : Nat} (ha : (slotAt s j).active = true) :
    j < s.engine.actS.toNat ∧ s.engine.running = true := by
  have hactive : slotAt s j ≠ inactiveSlot := fun he => by rw [he] at ha; cases ha
  refine ⟨Nat.lt_of_not_le fun hle => hactive (h.bounded j hle), ?_⟩
  cases hrun : s.engine.running with
  | true => rfl
  | false => exact absurd (h.stopped hrun j) hactive

theorem PoolGood.clearSlot {s : State} (h : PoolGood s) (j : Nat) : PoolGood (s.setSlot j inactiveSlot) :=
  h.setSlot (slotGood_inactive s.par) (.inl rfl) nofun

/-- Advancing an active slot leaves its place and its LED (42_twinkle.md R240). -/
theorem PoolGood.advance {s : State} (h : PoolGood s) {j : Nat} (ha : (slotAt s j).active = true) (actT : F32) :
    PoolGood (s.setSlot j (slotAdvanced actT (slotAt s j))) := by
  have hgood := h.slots j
  refine h.setSlot ⟨fun hx => ?_, hgood.dev, hgood.led, hgood.ratesPos, hgood.ratesOrder, hgood.tmaxFinite,
    hgood.scaleFinite, hgood.scalePos⟩ (.inr (h.inUse ha)) fun _ i hij hi => h.distinct i j hij hi ha
  have : (slotAt s j).active = false := hx
  simp [ha] at this

/-! #### A spawn -/

/-- The slot a spawn finds is below act_S, in the pool, and free (42_twinkle.md R242). -/
theorem freeSlot_spec {s : State} {j : Nat} (h : freeSlot s = some j) :
    j < s.engine.actS.toNat ∧ j < s.engine.slots.length ∧ (slotAt s j).active = false := by
  obtain ⟨hlen, hfree, -⟩ := List.findIdx?_eq_some_iff_getElem.mp h
  rw [List.length_take] at hlen
  rw [List.getElem_take] at hfree
  have hj : j < s.engine.slots.length := by omega
  refine ⟨by omega, hj, ?_⟩
  rw [slotAt, List.getD_eq_getElem _ _ hj]
  simpa using hfree

/-- Where the LED is not taken, no slot below act_S is active with it (42_twinkle.md R242). -/
theorem ledTaken_spec {s : State} {d l : Nat} (h : ledTaken s d l = false) {i : Nat} (hi : i < s.engine.actS.toNat)
    (ha : (slotAt s i).active = true) : ¬((slotAt s i).dev.toNat = d ∧ (slotAt s i).led.toNat = l) := by
  rintro ⟨hd, hl⟩
  by_cases hlen : i < s.engine.slots.length
  · rw [slotAt, List.getD_eq_getElem _ _ hlen] at ha hd hl
    have hmem : s.engine.slots[i] ∈ s.engine.slots.take s.engine.actS.toNat :=
      List.mem_take_iff_getElem.mpr ⟨i, by omega, rfl⟩
    have := List.any_eq_false.mp h _ hmem
    simp [ha, hd, hl] at this
  · rw [slotAt_of_length_le (Nat.le_of_not_lt hlen)] at ha
    cases ha

/-- A slot that a spawn claims (42_twinkle.md R242): its LED is on the chain, and its rates, tmax and scale will do. -/
theorem slotGood_spawned {p : Params} {m : MathPair} {d l r g b : Nat} {rates : F32 × F32} (hp : PoolParams p)
    (hd : d < p.n) (hl : l < 5) (hrates : f32Lt f32Zero rates.1 = true ∧ f32Lt rates.1 rates.2 = true)
    (hx : spawnable (spawnedSlot m d l r g b rates) = true) : SlotGood p (spawnedSlot m d l r g b rates) := by
  have hbyte := hp.nByte
  simp only [spawnable, Bool.and_eq_true] at hx
  exact {
    inactive := nofun
    dev := fun _ => by simp only [spawnedSlot, BitVec.toNat_ofNat]; omega
    led := fun _ => by simp only [spawnedSlot, BitVec.toNat_ofNat]; omega
    ratesPos := fun _ => hrates.1
    ratesOrder := fun _ => hrates.2
    tmaxFinite := fun _ => hx.1.1
    scaleFinite := fun _ => hx.1.2
    scalePos := fun _ => hx.2 }

/-- A spawn from `s` has used up answers of the entropy source, and it may have claimed a free slot for an LED that is not
taken. -/
def Spawned (s t : State) : Prop := ∃ u, DrewOnly s u ∧ (t = u ∨ ∃ j x, t = u.setSlot j x ∧ SlotGood s.par x ∧
  freeSlot s = some j ∧ ledTaken s x.dev.toNat x.led.toNat = false)

theorem spawnClaim_spawned {m : MathPair} {s t : State} {j d l : Nat} (hp : PoolParams s.par) (ht : DrewOnly s t)
    (hd : d < s.par.n) (hl : l < 5) (hfree : freeSlot s = some j) (hled : ledTaken s d l = false) :
    Spawned s (spawnClaim m j d l t) := by
  have hbyte := hp.nByte
  refine ⟨_, ht.drew.drew.drew.drewRates, ?_⟩
  unfold spawnClaim
  dsimp only
  split
  · next hx =>
    have hpar : t.drew.drew.drew.par = s.par := by
      obtain ⟨_, _, _, _, rfl⟩ := ht
      rfl
    have hrates := fitRates_good (hpar ▸ hp : PoolParams t.drew.drew.drew.par)
    refine .inr ⟨j, _, rfl, slotGood_spawned hp hd hl (hrates _) hx, hfree, ?_⟩
    have hdev : (BitVec.ofNat 8 d).toNat = d := by rw [BitVec.toNat_ofNat]; omega
    have hslot : (BitVec.ofNat 8 l).toNat = l := by rw [BitVec.toNat_ofNat]; omega
    simp only [spawnedSlot, hdev, hslot, hled]
  · exact .inl rfl

/-- What SPAWN can do, with all that it has checked (42_twinkle.md R242). -/
theorem spawnOnce_spawned (m : MathPair) {s : State} (hp : PoolParams s.par) : Spawned s (spawnOnce m s) := by
  have h3 : DrewOnly s s.drew.drew.drew := (DrewOnly.refl s).drew.drew.drew
  unfold spawnOnce spawnPlace
  dsimp only
  split
  · split
    · exact ⟨_, h3, .inl rfl⟩
    · next hled =>
      split
      · exact ⟨_, h3, .inl rfl⟩
      · next j hj =>
        have hd : drawn s.par.n s.drew < s.par.n := drawn_lt hp.nPos _
        have hl : drawn ledSlots s.drew.drew < 5 := drawn_lt (by decide) _
        exact spawnClaim_spawned hp h3 hd hl (h3.freeSlot ▸ hj) (Bool.eq_false_iff.mpr hled)
  · exact ⟨_, (DrewOnly.refl s).drew, .inl rfl⟩

/-! #### All of the invariant but the select line -/

/-- `Inv` without what it says of the select line. -/
structure Sound (s : State) : Prop where
  params : paramsValid s.par = true
  shaped : Shaped s
  pool : PoolGood s
  spawnK : s.engine.actK.toNat ≤ spawnDen
  slotsInUse : s.engine.actS.toNat ≤ s.par.poolCap
  tickRunning : s.engine.tickPending = true → s.engine.running = true
  chips : Memory.wf s.env.chips.bytes = true

theorem inv_iff_sound {s : State} : Inv s ↔ Sound s ∧ (s.seq = .idle → s.transport.sel = false) :=
  ⟨fun h => ⟨⟨h.params, h.shaped, h.pool, h.spawnK, h.slotsInUse, h.tickRunning, h.chips⟩, h.selIdle⟩,
    fun ⟨h, hsel⟩ => ⟨h.params, h.shaped, h.pool, h.spawnK, h.slotsInUse, h.tickRunning, hsel, h.chips⟩⟩

/-- An update of neither the parameters nor the engine is sound where the buffers and the chips still are. -/
theorem Sound.sameEngine {s t : State} (h : Sound s) (hpar : t.par = s.par) (hengine : t.engine = s.engine)
    (hshaped : Shaped t) (hchips : Memory.wf t.env.chips.bytes = true) : Sound t where
  params := hpar ▸ h.params
  shaped := hshaped
  pool := h.pool.congr hpar hengine
  spawnK := hengine ▸ h.spawnK
  slotsInUse := by rw [hengine, hpar]; exact h.slotsInUse
  tickRunning := hengine ▸ h.tickRunning
  chips := hchips

/-- An update outside the parameters, the transport, the engine and the chips. -/
theorem Sound.update {s t : State} (h : Sound s) (hpar : t.par = s.par) (htransport : t.transport = s.transport)
    (hengine : t.engine = s.engine) (hlatch : t.env.latch = s.env.latch) (hchips : t.env.chips = s.env.chips) :
    Sound t := by
  refine h.sameEngine hpar hengine ?_ (hchips ▸ h.chips)
  constructor
  · rw [htransport, hpar]; exact h.shaped.instr
  · rw [htransport, hpar]; exact h.shaped.data
  · rw [htransport, hpar]; exact h.shaped.rx
  · rw [hengine, hpar]; exact h.shaped.slots
  · rw [hlatch, hpar]; exact h.shaped.latch

/-- A piece on the bus keeps soundness, ended or hung. -/
theorem Sound.bus {s t : State} (h : Sound s) (hkeeps : BusKeeps s t) : Sound t := by
  have hpar := hkeeps.only.par
  have hengine := hkeeps.only.engine
  refine h.sameEngine hpar hengine ?_ (hkeeps.chips h.chips)
  constructor
  · exact hpar ▸ hkeeps.instr.elim (fun hi => hi.trans h.shaped.instr) id
  · exact hpar ▸ hkeeps.data.elim (fun hi => hi.trans h.shaped.data) id
  · exact hpar ▸ hkeeps.rx.trans h.shaped.rx
  · rw [hengine, hpar]; exact h.shaped.slots
  · exact hpar ▸ hkeeps.latch.trans h.shaped.latch

theorem Sound.chipsOnly {s t : State} (h : Sound s) (ht : ChipsOnly s t) : Sound t := by
  obtain ⟨m, l, rfl, hlatch, hwf⟩ := ht
  exact h.sameEngine rfl rfl ⟨h.shaped.instr, h.shaped.data, h.shaped.rx, h.shaped.slots, hlatch.trans h.shaped.latch⟩
    (hwf h.chips)

/-- A store to the pool is sound where the pool is still good. -/
theorem Sound.setSlot {s : State} (h : Sound s) {j : Nat} {x : Slot} (hpool : PoolGood (s.setSlot j x)) :
    Sound (s.setSlot j x) where
  params := h.params
  shaped := ⟨h.shaped.instr, h.shaped.data, h.shaped.rx, List.length_set.trans h.shaped.slots, h.shaped.latch⟩
  pool := hpool
  spawnK := h.spawnK
  slotsInUse := h.slotsInUse
  tickRunning := h.tickRunning
  chips := h.chips

theorem Sound.drewOnly {s t : State} (h : Sound s) (ht : DrewOnly s t) : Sound t := by
  obtain ⟨_, _, _, _, rfl⟩ := ht
  exact h.update rfl rfl rfl rfl rfl

/-- A spawn while the engine runs (42_twinkle.md R242): the slot it claims was free, and its LED was not taken. -/
theorem Sound.spawnOnce {s : State} (m : MathPair) (h : Sound s) (hrun : s.engine.running = true) :
    Sound (spawnOnce m s) := by
  obtain ⟨u, hu, heq | ⟨j, x, heq, hgood, hfree, hled⟩⟩ := spawnOnce_spawned m (poolParams_of_valid h.params)
  · exact heq ▸ h.drewOnly hu
  · have hsound := h.drewOnly hu
    obtain ⟨_, _, _, _, rfl⟩ := hu
    obtain ⟨hj, -, -⟩ := freeSlot_spec hfree
    rw [heq]
    refine hsound.setSlot (hsound.pool.setSlot hgood (.inr ⟨hj, hrun⟩) fun _ i _ hi hsame => ?_)
    exact ledTaken_spec hled (h.pool.inUse hi).1 hi ⟨congrArg BitVec.toNat hsame.1, congrArg BitVec.toNat hsame.2⟩

/-- Setting the tick pending or not, where it may be (10_state.md R47). -/
theorem Sound.setTickPending {s : State} (h : Sound s) {b : Bool} (hb : b = true → s.engine.running = true) :
    Sound (s.setTickPending b) where
  params := h.params
  shaped := ⟨h.shaped.instr, h.shaped.data, h.shaped.rx, h.shaped.slots, h.shaped.latch⟩
  pool := ⟨h.pool.distinct, h.pool.bounded, h.pool.stopped, h.pool.slots⟩
  spawnK := h.spawnK
  slotsInUse := h.slotsInUse
  tickRunning := hb
  chips := h.chips

/-- The engine may stop once no slot is active (42_twinkle.md R233). -/
theorem Sound.stopEngine {s : State} (h : Sound s) (hnone : ∀ j, slotAt s j = inactiveSlot) : Sound s.stopEngine where
  params := h.params
  shaped := ⟨h.shaped.instr, h.shaped.data, h.shaped.rx, h.shaped.slots, h.shaped.latch⟩
  pool := poolGood_of_inactive hnone
  spawnK := h.spawnK
  slotsInUse := h.slotsInUse
  tickRunning := nofun
  chips := h.chips

/-- ENG_START's checks are what the invariant asks of the active configuration (42_twinkle.md R230). -/
theorem Sound.started {s : State} (h : Sound s) (hcfg : startConfigOk s = true) :
    Sound { s with engine := startedEngine s } := by
  simp only [startConfigOk, Bool.and_eq_true, decide_eq_true_eq] at hcfg
  exact {
    params := h.params
    shaped := ⟨h.shaped.instr, h.shaped.data, h.shaped.rx, List.length_replicate, h.shaped.latch⟩
    pool := poolGood_of_inactive (slotAt_of_replicate rfl)
    spawnK := hcfg.1.2
    slotsInUse := hcfg.2
    tickRunning := fun _ => rfl
    chips := h.chips }

/-- A block whose transport and engine are those of reset is sound. -/
theorem sound_of_reset {s : State} (hparams : paramsValid s.par = true) (htransport : s.transport = Transport.reset s.par.n)
    (hengine : s.engine = Engine.reset s.par.poolCap) (hlatch : s.env.latch.length = s.par.n)
    (hchips : Memory.wf s.env.chips.bytes = true) : Sound s where
  params := hparams
  shaped := by constructor <;> simp [htransport, hengine, hlatch, Transport.reset, Engine.reset]
  pool := poolGood_of_inactive (slotAt_of_replicate (by rw [hengine]; rfl))
  spawnK := by rw [hengine]; exact Nat.zero_le _
  slotsInUse := by rw [hengine]; exact Nat.zero_le _
  tickRunning := by rw [hengine]; nofun
  chips := hchips

/-- Settles O54: a reset block is sound (`sound_of_reset`) and idle with the select line deasserted. -/
theorem resetMeetsTheInvariant : Obligations.ResetMeetsTheInvariant := by
  have hreset : ∀ p, paramsValid p = true → Inv (State.resetWith p) := fun p hp =>
    inv_iff_sound.mpr
      ⟨sound_of_reset hp rfl rfl List.length_replicate (State.resetWith_chips_wf p), fun _ => rfl⟩
  exact ⟨hreset _ Config.params_valid, hreset⟩

end Sys2Proof.Machine

/-! ### Every step keeps the invariant (10_state.md R54, R55) -/

namespace Sys2Proof.Machine

/-- Between two transactions of an operation of `s`: sound, the select line deasserted, and the engine still as in `s`. -/
structure Ready (s t : State) : Prop where
  sound : Sound t
  sel : t.transport.sel = false
  par : t.par = s.par
  engine : t.engine = s.engine

/-- A transaction that ends has deasserted the select line; one that hangs still leaves the rest sound. -/
theorem meets_ready {s t : State} {r : Res Unit} (ht : Ready s t) (hkeeps : BusKeeps t r.state)
    (hsel : ∀ u, r = .done () u → u.transport.sel = false) : r.Meets (fun _ => Ready s) Sound := by
  cases r with
  | done _ u =>
    exact ⟨ht.sound.bus hkeeps, hsel u rfl, hkeeps.only.par.trans ht.par, hkeeps.only.engine.trans ht.engine⟩
  | hung u => exact ht.sound.bus hkeeps

theorem writeTxn_ready {s : State} (d : Nat) (r v : Byte) : Keeps (Ready s) Sound (writeTxn d r v) := fun t ht =>
  meets_ready ht (writeTxn_keepsShape d r v t) fun _ => writeTxn_sel

theorem readTxn_ready {s : State} (r : Byte) : Keeps (Ready s) Sound (readTxn r) := fun t ht =>
  meets_ready ht (readTxn_keepsShape r t) fun _ => readTxn_sel

theorem pushRGB_ready {s : State} (d l : Nat) (r g b : Byte) : Keeps (Ready s) Sound (pushRGB d l r g b) :=
  pushRGB_keeps writeTxn_ready d l r g b

/-- Between two rounds of an engine's loop in an operation of `s`: sound, the select line deasserted, and the engine
running or not as in `s`. -/
structure Between (s t : State) : Prop where
  sound : Sound t
  sel : t.transport.sel = false
  par : t.par = s.par
  running : t.engine.running = s.engine.running

theorem Between.ready {s t : State} (h : Between s t) : Ready t t := ⟨h.sound, h.sel, rfl, rfl⟩

/-- A round from `t` ends with a store to the pool, in a state `u` whose pool is still that of `t`. -/
theorem Between.store {s t u : State} (ht : Between s t) (hu : Ready t u) {j : Nat} {x : Slot}
    (hpool : PoolGood (u.setSlot j x)) : Between s (u.setSlot j x) :=
  ⟨hu.sound.setSlot hpool, hu.sel, hu.par.trans ht.par, (congrArg Engine.running hu.engine).trans ht.running⟩

theorem stopSlot_between {s : State} (j : Nat) : Keeps (Between s) Sound (stopSlot j) := fun t ht =>
  meets_check ((pushRGB_ready _ _ _ _ _ t ht.ready).andThen fun _ _ hu => ht.store hu (hu.sound.pool.clearSlot j)) ht

/-- An active slot is advanced and stored, or, once dark, cleared (42_twinkle.md R240). -/
theorem tickActiveSlot_between {s t : State} (m : MathPair) (j : Nat) (actT : F32) (ht : Between s t)
    (hactive : (slotAt t j).active = true) :
    (tickActiveSlot m j (slotAdvanced actT (slotAt t j)) t).Meets (fun _ => Between s) Sound := by
  refine (pushRGB_ready _ _ _ _ _ t ht.ready).andThen fun _ u hu => meets_check ?_ ?_
  · exact (pushRGB_ready _ _ _ _ _ u hu).andThen fun _ _ hv => ht.store hv (hv.sound.pool.clearSlot j)
  · have hslot : slotAt u j = slotAt t j := by rw [slotAt, hu.engine, slotAt]
    rw [← hslot] at hactive ⊢
    exact ht.store hu (hu.sound.pool.advance hactive actT)

theorem tickSlot_between {s : State} (m : MathPair) (j : Nat) : Keeps (Between s) Sound (tickSlot m j) := fun t ht => by
  unfold tickSlot
  split
  · next hactive => exact tickActiveSlot_between m j _ ht hactive
  · exact ht

/-- What a round of ENG_STOP that ends leaves of the pool: its own slot is not active, the others are as they were. -/
theorem stopSlot_slots {j : Nat} {s t : State} (h : stopSlot j s = .done () t) (i : Nat) :
    (slotAt t i).active = if i = j then false else (slotAt s i).active := by
  unfold stopSlot at h
  split at h
  · have hbus := pushRGB_busOnly (slotAt s j).dev.toNat (slotAt s j).led.toNat 0#8 0#8 0#8 s
    cases hp : pushRGB (slotAt s j).dev.toNat (slotAt s j).led.toNat 0#8 0#8 0#8 s with
    | hung u => rw [hp] at h; cases h
    | done a u =>
      rw [hp] at h hbus
      cases h
      have hslot : slotAt u i = slotAt s i := by rw [slotAt, show u.engine = s.engine from hbus.engine, slotAt]
      rw [slotAt_clearSlot, hslot]
      by_cases hij : i = j
      · simp [hij, inactiveSlot]
      · simp [hij, Ne.symm hij]
  · next hinactive =>
    cases h
    split
    · next hij => simpa [hij] using hinactive
    · rfl

/-- The loop of ENG_STOP leaves no slot active (42_twinkle.md R233). -/
theorem stopLoop_clears {s t : State} (h : forEach (List.range s.par.poolCap) stopSlot s = .done () t) (ht : Sound t)
    (hpar : t.par = s.par) (j : Nat) : slotAt t j = inactiveSlot := by
  by_cases hj : j < s.par.poolCap
  · obtain ⟨-, hall⟩ := forEach_establishes (E := fun i u => (slotAt u i).active = false)
      (fun i _ _ hi => by rw [stopSlot_slots hi, if_pos rfl])
      (fun i k _ _ hi hk => by rw [stopSlot_slots hi]; split; exacts [rfl, hk]) _ h
    exact (ht.pool.slots j).inactive (hall j (List.mem_range.mpr hj))
  · exact slotAt_of_length_le (by rw [ht.shaped.slots, hpar]; exact Nat.le_of_not_lt hj)

/-! #### The instructions -/

/-- The end of a command or of an internal operation: sound, and the select line deasserted. -/
structure Ended (s : State) : Prop where
  sound : Sound s
  sel : s.transport.sel = false

theorem Ready.ended {s t : State} (h : Ready s t) : Ended t := ⟨h.sound, h.sel⟩

theorem Ended.setResult {s : State} (h : Ended s) (w : Word) : Ended (s.setResult w) :=
  ⟨h.sound.update rfl rfl rfl rfl rfl, h.sel⟩

/-- A state in which an operation is stuck: the select line may be asserted there (60_exceptions.md R313). -/
theorem Sound.stuckIn {s : State} (h : Sound s) (op : Instr) : Inv (s.stuckIn op) :=
  inv_iff_sound.mpr ⟨h.update rfl rfl rfl rfl rfl, nofun⟩

theorem Ended.inv {s : State} (h : Ended s) : Inv s := inv_iff_sound.mpr ⟨h.sound, fun _ => h.sel⟩

theorem completeCommand_inv {op : Instr} {r : Res ErrorCode} (hr : r.Meets (fun _ => Ended) Sound) :
    Inv (completeCommand op r) :=
  completeCommand_of_meets op hr (fun _ _ ht => Ended.inv ⟨ht.sound.update rfl rfl rfl rfl rfl, ht.sel⟩)
    fun _ ht => ht.stuckIn op

theorem completeInternal_inv {op : Instr} {r : Res Unit} (hr : r.Meets (fun _ => Ended) Sound) :
    Inv (completeInternal op r) :=
  completeInternal_of_meets op hr (fun _ => Ended.inv) fun _ ht => ht.stuckIn op

theorem engStopBody_ended {dev a b : Byte} {s : State} (h : Ended s) :
    (engStopBody dev a b s).Meets (fun _ => Ended) Sound :=
  engStopBody_meets (P := Between s) dev a b ⟨h.sound, h.sel, rfl, rfl⟩ (fun _ _ ht => ⟨ht.sound, ht.sel⟩)
    stopSlot_between fun _ hloop ht => ⟨ht.sound.stopEngine (stopLoop_clears hloop ht.sound ht.par), ht.sel⟩

/-- A spawn while the engine runs, at the end of a tick update or of its own (42_twinkle.md R242). -/
theorem Ended.spawnOnce {s : State} (m : MathPair) (h : Ended s) (hrun : s.engine.running = true) :
    Ended (spawnOnce m s) := by
  obtain ⟨-, -, htransport, -⟩ := spawnOnce_frame m s
  exact ⟨h.sound.spawnOnce m hrun, htransport ▸ h.sel⟩

/-- A tick update of a running engine: its rounds, then its spawn (42_twinkle.md R240). -/
theorem tickBody_ended {m : MathPair} {s : State} (h : Ended s) (hrun : s.engine.running = true) :
    (tickBody m s).Meets (fun _ => Ended) Sound :=
  have hclear : Between s (s.setTickPending false) := ⟨h.sound.setTickPending nofun, h.sel, rfl, rfl⟩
  tickBody_meets hclear (tickSlot_between m) fun _ ht => Ended.spawnOnce m ⟨ht.sound, ht.sel⟩ (ht.running.trans hrun)

/-- A unit at a chip keeps the invariant, whatever the sequencer is in (30_encoding.md R124, log 15). -/
theorem Inv.chipsOnly {s t : State} (h : Inv s) (ht : ChipsOnly s t) : Inv t := by
  obtain ⟨hsound, hsel⟩ := inv_iff_sound.mp h
  refine inv_iff_sound.mpr ⟨hsound.chipsOnly ht, ?_⟩
  obtain ⟨m, l, rfl, -, -⟩ := ht
  exact hsel

/-- An instruction the idle sequencer runs keeps the invariant, the engine's own ones while it runs. -/
theorem exec_keeps_inv {i : Instr} {s t : State} (h : Ended s) (hrun : i.encoded = false → s.engine.running = true)
    (ht : exec i s = .next t) : Inv t := by
  have h0 : Ready s s := ⟨h.sound, h.sel, rfl, rfl⟩
  have hend : ∀ (_ : ErrorCode) t, Ready s t → Ended t := fun _ _ => Ready.ended
  have hres : ∀ w t, Ready s t → Ended (t.setResult w) := fun w _ hu => hu.ended.setResult w
  cases i with
  | nop dev a b => cases ht; exact completeCommand_inv (nopBody_meets dev a b fun _ => h)
  | write dev reg b val => cases ht; exact completeCommand_inv (writeBody_meets dev reg b val h0 writeTxn_ready hend)
  | read dev reg b => cases ht; exact completeCommand_inv (readBody_meets dev reg b h0 readTxn_ready hend)
  | setPw dev slot color duty =>
    cases ht; exact completeCommand_inv (setPwBody_meets dev slot color duty h0 writeTxn_ready hend)
  | setGain dev slot color f =>
    cases ht; exact completeCommand_inv (setGainBody_meets dev slot color f h0 writeTxn_ready hend hres)
  | clearCh dev a b => cases ht; exact completeCommand_inv (clearChBody_meets dev a b h0 writeTxn_ready hend)
  | clearAll dev a b => cases ht; exact completeCommand_inv (clearAllBody_meets dev a b h0 writeTxn_ready hend)
  | engStart dev a b =>
    cases ht
    exact completeCommand_inv (engStartBody_meets dev a b (fun _ => h) fun hcfg => ⟨h.sound.started hcfg, h.sel⟩)
  | engStop dev a b => cases ht; exact completeCommand_inv (engStopBody_ended h)
  | qTherm dev a b => cases ht; exact completeCommand_inv (qThermBody_meets dev a b h0 readTxn_ready hend hres)
  | qErr dev a b => cases ht; exact completeCommand_inv (qErrBody_meets dev a b h0 readTxn_ready hend hres)
  | reservedOp op dev a b => cases ht; exact completeCommand_inv (r := .done .opcode s) h
  | tickUpdate => cases ht; exact completeInternal_inv (tickBody_ended h (hrun rfl))
  | spawn => cases ht; exact (h.spawnOnce _ (hrun rfl)).inv
  | wireNop => cases ht; exact h.inv.chipsOnly (chipIdle_chipsOnly _ s)
  | wireWr reg val => cases ht; exact h.inv.chipsOnly (chipWrite_chipsOnly _ reg val s)
  | wireRd reg dummy => cases ht; exact h.inv.chipsOnly (chipLatch_chipsOnly _ reg s)

/-! #### The steps -/

theorem encoded_ite {c : Prop} [Decidable c] {i j : Instr} (hi : i.encoded = true) (hj : j.encoded = true) :
    (if c then i else j).encoded = true := by
  split
  · exact hi
  · exact hj

/-- No command decodes to an operation of the engine's own (30_encoding.md R118). -/
theorem decodeCommand_encoded (cmd arg : Word) : (decodeCommand cmd arg).encoded = true := by
  unfold decodeCommand decodeFields
  iterate 11 refine encoded_ite rfl ?_
  rfl

/-- What a unit decodes to acts on a chip only. -/
theorem exec_decodeUnit_chipsOnly {u : Unit16} {s t : State} (h : exec (decodeUnit u) s = .next t) : ChipsOnly s t := by
  unfold decodeUnit at h
  split at h
  · cases h; exact chipIdle_chipsOnly _ s
  · split at h
    · cases h; exact chipLatch_chipsOnly _ _ s
    · cases h; exact chipWrite_chipsOnly _ _ _ s

/-- An update outside the parameters, the transport, the sequencer, the engine and the chips keeps the invariant. -/
theorem Inv.update {s t : State} (h : Inv s) (hpar : t.par = s.par) (htransport : t.transport = s.transport)
    (hseq : t.seq = s.seq) (hengine : t.engine = s.engine) (hlatch : t.env.latch = s.env.latch)
    (hchips : t.env.chips = s.env.chips) : Inv t := by
  obtain ⟨hsound, hsel⟩ := inv_iff_sound.mp h
  refine inv_iff_sound.mpr ⟨hsound.update hpar htransport hengine hlatch hchips, ?_⟩
  rw [hseq, htransport]
  exact hsel

theorem Inv.tickArrives {s : State} (h : Inv s) : Inv (tickArrives s) := by
  obtain ⟨v, htick⟩ | ⟨hrun, htick⟩ := tickArrives_cases s <;> rw [htick]
  · exact h.update rfl rfl rfl rfl rfl rfl
  · obtain ⟨hsound, hsel⟩ := inv_iff_sound.mp h
    exact inv_iff_sound.mpr ⟨hsound.setTickPending fun _ => hrun, hsel⟩

/-- The chips a reset leaves, cut or not, are as the invariant asks (70_reset_and_hazards.md R341, R342). -/
theorem envAfterReset_good {s : State} (h : Inv s) :
    (envAfterReset s).latch.length = s.par.n ∧ Memory.wf (envAfterReset s).chips.bytes = true := by
  unfold envAfterReset
  split
  · exact ⟨List.length_replicate, ChipRegs.cut_wf _⟩
  · exact ⟨h.shaped.latch, h.chips⟩

theorem Inv.resetBlock {s : State} (h : Inv s) : Inv (resetBlock s) :=
  have ⟨hlatch, hchips⟩ := envAfterReset_good h
  inv_iff_sound.mpr ⟨sound_of_reset h.params rfl rfl hlatch hchips, fun _ => rfl⟩

/-- The state of a turn meets the invariant where the state it is taken in does. -/
theorem TurnCase.inv {s : State} {turn : Turn} (hcase : TurnCase s turn) (h : Inv s) : Inv turn.state := by
  cases hcase with
  | stays | tickUpdate | command => exact h
  | hostRead off size =>
    obtain ⟨v, r, hread⟩ := hostRead_window off size s
    rw [Turn.state, hread]
    exact h.update rfl rfl rfl rfl rfl rfl
  | hostWrite off size w =>
    obtain ⟨v, hwrite⟩ := hostWrite_window off size w s
    rw [Turn.state, hwrite]
    exact h.update rfl rfl rfl rfl rfl rfl
  | tick => exact h.tickArrives
  | reset => exact h.resetBlock
  | hang k => exact h.update rfl rfl rfl rfl rfl rfl
  | wireUnit p u => exact h.update rfl rfl rfl rfl rfl rfl

/-- What a turn runs from a state with the invariant leaves one with it. -/
theorem TurnCase.exec_inv {s u t : State} {i : Instr} (hcase : TurnCase s (.run i u)) (h : Inv s)
    (ht : exec i u = .next t) : Inv t := by
  have hu : Inv u := hcase.inv h
  cases hcase with
  | tickUpdate hseq hrun =>
    exact exec_keeps_inv ⟨(inv_iff_sound.mp h).1, h.selIdle hseq⟩ (fun _ => hrun) ht
  | command hseq cmd arg =>
    refine exec_keeps_inv ⟨(inv_iff_sound.mp h).1, h.selIdle hseq⟩ (fun hcode => ?_) ht
    exact absurd (decodeCommand_encoded cmd arg) (by simp [hcode])
  | wireUnit p u => exact hu.chipsOnly (exec_decodeUnit_chipsOnly ht)

/-- Settles O53: the turn of a step meets the invariant, and what it runs keeps it. -/
theorem stepKeepsTheInvariant : Obligations.StepKeepsTheInvariant := by
  intro s t h hstep
  obtain ⟨l, turn, hcase, rfl | ⟨i, u, rfl, hexec⟩⟩ := step_cases hstep
  all_goals have hl : Inv (s.setEvents l) := h.update rfl rfl rfl rfl rfl rfl
  · exact hcase.inv hl
  · exact hcase.exec_inv hl hexec

end Sys2Proof.Machine

/-! ### The host window (20_memory.md R82-R85)

What a legal and what an illegal host access does, said once for each, and the rows of the window's map that are no
single offset: the received bytes, and the offsets that read 0 or ignore a write. -/

namespace Sys2Proof.Machine

/-- A legal host read answers the window's register at its offset and changes nothing else (20_memory.md R83, R85). -/
theorem step_hostRead {s : State} {off : BitVec 12} {l : List Event} (h : s.env.events = .hostRead off .four :: l)
    (hoff : off.toNat % 4 = 0) :
    step s = .next ((s.setEvents l).setReadData (windowReg off.toNat (s.setEvents l))) := by
  have hlegal : accessLegal off .four = true := by simp [accessLegal, hoff]
  exact step_of_event h (by simp only [eventTurn, hostRead, hlegal, if_true])

/-- An access of another size, or at no multiple of 4, is illegal (20_memory.md R84). -/
theorem accessLegal_eq_false {off : BitVec 12} {size : AccessSize} (h : size ≠ .four ∨ off.toNat % 4 ≠ 0) :
    accessLegal off size = false := by
  rcases h with hsize | hoff
  · simp [accessLegal, hsize]
  · simp [accessLegal, hoff]

/-- The register at 0x100 + 4 i is the byte received for position i (10_state.md R44). -/
theorem windowReg_rx {s : State} {i : Nat} (hi : i < s.par.n) :
    windowReg (0x100 + 4 * i) s = (rxAt s i).setWidth 32 := by
  have hindex : (0x100 + 4 * i - 0x100) / 4 = i := by omega
  unfold windowReg
  iterate 11 rw [if_neg (by omega)]
  rw [if_pos (by omega), hindex]

/-- The offsets of no register read 0 (20_memory.md R82). -/
theorem windowReg_reserved {s : State} {off : Nat}
    (h : (0x028 ≤ off ∧ off < 0x040) ∨ (0x060 ≤ off ∧ off < 0x100) ∨ 0x100 + 4 * s.par.n ≤ off) :
    windowReg off s = 0x00000000#32 := by
  unfold windowReg
  iterate 12 rw [if_neg (by omega)]

/-- RESULT, and every offset from ID on, ignores a write (20_memory.md R82, R83). -/
theorem windowWrite_ignored {off : Nat} (w : Word) (s : State) (h : off = 0x00C ∨ 0x020 ≤ off) :
    windowWrite off w s = s := by
  unfold windowWrite
  iterate 7 rw [if_neg (by omega)]

/-- Settles O9: the value is `windowReg`, read off row by row. -/
theorem hostReadReturnsTheRegister : Obligations.HostReadReturnsTheRegister := by
  intro s off l h hoff
  refine ⟨_, step_hostRead h hoff, ?_⟩
  iterate 18 refine ⟨by rintro rfl; rfl, ?_⟩
  refine ⟨fun i hi hrow => ?_, fun hreserved => windowReg_reserved hreserved⟩
  rw [hrow]
  exact windowReg_rx (s := s.setEvents l) hi

/-- Settles O10: neither access is legal, so each takes its illegal branch. -/
theorem illegalAccessOnlySetsAccErr : Obligations.IllegalAccessOnlySetsAccErr := by
  intro s off size l hillegal
  have hlegal := accessLegal_eq_false hillegal
  refine ⟨fun h => step_of_event h ?_, fun w h => step_of_event h ?_⟩
  · simp only [eventTurn, hostRead, hlegal, if_false, Bool.false_eq_true]
    rfl
  · simp only [eventTurn, hostWrite, hlegal, if_false, Bool.false_eq_true]

/-- Settles O12: `windowWrite`, row by row; the narrow registers keep the low bits of the word. -/
theorem registerWritesOnlyStore : Obligations.RegisterWritesOnlyStore := by
  intro s off w l h hoff
  have hstep := step_hostWrite h hoff
  refine ⟨?_, ?_, ?_, ?_, ?_, fun hro => ?_⟩
  · rintro rfl; exact hstep
  · rintro rfl; exact hstep
  · rintro rfl
    rw [← BitVec.setWidth_eq_extractLsb' (by omega)]
    exact hstep
  · rintro rfl
    rw [← BitVec.setWidth_eq_extractLsb' (by omega)]
    exact hstep
  · rintro rfl; exact hstep
  · have hro' : off.toNat = 0x00C ∨ 0x020 ≤ off.toNat := hro.imp_left fun e => by rw [e]; rfl
    rw [hstep, windowWrite_ignored w _ hro']

end Sys2Proof.Machine

/-! ### The chips' registers under a write unit, a WRITE and a READ (20_memory.md R99)

`chipStore_read` split into what a stored byte reads as, what an opened register reads as and what is left alone; then
the same for the register addresses of a command, and what a READ gets from the reference chain. -/

namespace Sys2Proof.Machine

/-! #### A write unit -/

/-- Nothing but the stored register and the opened ones changes. -/
theorem chipStore_read_frame {c : ChipRegs} {p : Nat} {r : Reg7} {v : Byte} {k : Nat} (hk : k ≠ chipKey p r.toNat)
    (hopen : k ∉ openedBy p r) : (chipStore c p r v).read k = c.read k := by
  rw [chipStore_read, if_neg fun h => hk h.2, if_neg hopen]

/-- The register of a legal address holds the byte stored to it. -/
theorem chipStore_read_same {r : Reg7} (hr : r ≤ 0x45#7) (c : ChipRegs) (p : Nat) (v : Byte) :
    (chipStore c p r v).read (chipKey p r.toNat) = v := by
  rw [chipStore_read, if_pos ⟨hr, rfl⟩]

/-- A write unit leaves the other chips alone, whatever its address. -/
theorem chipStore_read_otherChip {p q a : Nat} (hq : q ≠ p) (ha : a < 128) (c : ChipRegs) (r : Reg7) (v : Byte) :
    (chipStore c p r v).read (chipKey q a) = c.read (chipKey q a) :=
  chipStore_read_frame (fun h => hq (chipKey_inj ha r.isLt h).1) fun h => hq ((mem_openedBy ha).mp h).1

/-- A write unit of a legal address leaves every other register alone that no broadcast reaches (93 I26, log 12). -/
theorem chipStore_read_other {p q a : Nat} {r : Reg7} (hr : r ≤ 0x45#7) (ha : a < 128) (hne : (q, a) ≠ (p, r.toNat))
    (hopen : q = p → ¬(r = 0x40#7 ∧ 0x08 ≤ a ∧ a ≤ 0x17) ∧ ¬(r = 0x41#7 ∧ 0x18 ≤ a ∧ a ≤ 0x27))
    (c : ChipRegs) (v : Byte) : (chipStore c p r v).read (chipKey q a) = c.read (chipKey q a) := by
  refine chipStore_read_frame (fun h => ?_) fun h => ?_
  · obtain ⟨rfl, rfl⟩ := chipKey_inj ha r.isLt h
    exact hne rfl
  · obtain ⟨hq, hduty | hgain | ⟨habove, -⟩⟩ := (mem_openedBy ha).mp h
    · exact (hopen hq).1 hduty
    · exact (hopen hq).2 hgain
    · exact BitVec.not_lt.mpr hr habove

/-- A write unit above 0x45 leaves a free value in every register of its chip (log 14). -/
theorem chipStore_read_above {r : Reg7} {a : Nat} (hr : 0x45#7 < r) (ha : a ≤ 0x45) (c : ChipRegs) (p : Nat)
    (v : Byte) : (chipStore c p r v).read (chipKey p a) = Config.openReg c.writes (chipKey p a) := by
  rw [chipStore_read, if_neg fun h => BitVec.not_le.mpr hr h.1,
    if_pos ((mem_openedBy (by omega)).mpr ⟨rfl, .inr (.inr ⟨hr, ha⟩)⟩)]

/-- Settles O49: the three units at a chip and beyond the chain; the chips after a write unit are `chipStore`'s. -/
theorem wireUnitsActOnOneChip : Obligations.WireUnitsActOnOneChip := by
  rintro s p rfl
  refine ⟨fun hout => ?_, fun hin => ?_⟩
  · have hno : ¬s.env.unitPos < s.par.n := Nat.not_lt.mpr hout
    exact ⟨fun r v => congrArg _ (if_neg hno), fun r v => congrArg _ (if_neg hno), congrArg _ (if_neg hno)⟩
  · refine ⟨congrArg _ (if_pos hin), fun r v => congrArg _ (if_pos hin), fun r v => ?_⟩
    exact ⟨chipStore s.env.chips s.env.unitPos r v, congrArg _ (if_pos hin),
      fun q a hq ha => chipStore_read_otherChip hq ha _ r v,
      fun habove a ha => chipStore_read_above habove ha _ _ v,
      fun hr => ⟨chipStore_read_same hr _ _ v, fun q a ha hne hopen => chipStore_read_other hr ha hne hopen _ v⟩⟩

/-! #### A WRITE -/

/-- A register address of a command fits the seven bits of an instruction byte (30_encoding.md R120). -/
theorem regAddr_toNat {r : Byte} (hr : r ≤ regMax) : (r.setWidth 7 : Reg7).toNat = r.toNat := by
  have hlt : r.toNat ≤ 69 := hr
  rw [BitVec.toNat_setWidth, Nat.mod_eq_of_lt (by omega)]

theorem regAddr_le {r : Byte} (hr : r ≤ regMax) : (r.setWidth 7 : Reg7) ≤ 0x45#7 := by
  have hlt : r.toNat ≤ 69 := hr
  rw [BitVec.le_def, regAddr_toNat hr]
  exact hlt

/-- A register address of a command is told by its seven bits. -/
theorem eq_of_regAddr {r x : Byte} (hr : r ≤ regMax) (hx : x ≤ regMax)
    (h : (r.setWidth 7 : Reg7) = x.setWidth 7) : r = x :=
  BitVec.eq_of_toNat_eq (by rw [← regAddr_toNat hr, ← regAddr_toNat hx, h])

/-- The register a WriteTxn addresses holds the byte. -/
theorem chipReg_wrote_same {r : Byte} (hr : r ≤ regMax) (s : State) (d : Nat) (v : Byte) :
    chipReg (s.wrote d r v) d r.toNat = v := by
  rw [← regAddr_toNat hr]
  exact chipStore_read_same (regAddr_le hr) _ d v

/-- A WriteTxn leaves every other register alone that no broadcast reaches (93 I26, log 12). -/
theorem chipReg_wrote_other {d p a : Nat} {r : Byte} (hr : r ≤ regMax) (ha : a < 128) (hne : (p, a) ≠ (d, r.toNat))
    (hopen : p = d → ¬(r = 0x40#8 ∧ 0x08 ≤ a ∧ a ≤ 0x17) ∧ ¬(r = 0x41#8 ∧ 0x18 ≤ a ∧ a ≤ 0x27))
    (s : State) (v : Byte) : chipReg (s.wrote d r v) p a = chipReg s p a := by
  have hduty : (r.setWidth 7 : Reg7) = 0x40#7 → r = 0x40#8 := eq_of_regAddr (x := 0x40#8) hr (by decide)
  have hgain : (r.setWidth 7 : Reg7) = 0x41#7 → r = 0x41#8 := eq_of_regAddr (x := 0x41#8) hr (by decide)
  exact chipStore_read_other (regAddr_le hr) ha (by rwa [regAddr_toNat hr])
    (fun hp => ⟨fun h => (hopen hp).1 ⟨hduty h.1, h.2⟩, fun h => (hopen hp).2 ⟨hgain h.1, h.2⟩⟩) _ v

/-- A WRITE of legal operands, when every bus primitive completes (40_transport.md R160). -/
theorem exec_write_free {s : State} {d r : Byte} (v : Byte) (h : BusCompletes s)
    (hl : s.env.latch.length = s.par.n) (hd : d.toNat < s.par.n) (hr : r ≤ regMax) :
    exec (.write d r 0x00#8 v) s = .next ((s.wrote d.toNat r v).endCommand .ok) := by
  have hbody : writeBody d r 0x00#8 v s = .done .ok (s.wrote d.toNat r v) := by
    simp [writeBody, unused, devOk, regOk, hd, hr, thenOk, writeTxn_free h hl hd hr]
  show Host.Outcome.next (completeCommand _ (writeBody d r 0x00#8 v s)) = _
  rw [hbody]
  rfl

/-- Settles O23: the state left is `wrote`, and the chips read as `chipStore` says. -/
theorem writeStoresAtOneChipRegister : Obligations.WriteStoresAtOneChipRegister := by
  intro s d r v h hs hd hr
  exact ⟨_, exec_write_free v h hs.latch hd hr, chipReg_wrote_same hr s d.toNat v,
    fun p a ha hne hopen => chipReg_wrote_other hr ha hne hopen s v⟩

/-! #### A READ -/

/-- A READ of a legal register, when every bus primitive completes (40_transport.md R170). -/
theorem exec_read_free {s : State} {r : Byte} (h : BusCompletes s) (hx : s.transport.rx.length = s.par.n)
    (hl : s.env.latch.length = s.par.n) (hr : r ≤ regMax) :
    exec (.read 0x00#8 r 0x00#8) s = .next ((s.hasRead r).endCommand .ok) := by
  have hbody : readBody 0x00#8 r 0x00#8 s = .done .ok (s.hasRead r) := by
    simp [readBody, unused, regOk, hr, thenOk, readTxn_free h hx hl hr]
  show Host.Outcome.next (completeCommand _ (readBody 0x00#8 r 0x00#8 s)) = _
  rw [hbody]
  rfl

/-- The duty and gain registers are plain storage and in range. -/
theorem plainStorage_of_mem {r : Byte} (hlo : 0x08#8 ≤ r) (hhi : r ≤ 0x27#8) :
    plainStorage r.toNat = true ∧ r ≤ regMax := by
  have hlo' : 8 ≤ r.toNat := hlo
  have hhi' : r.toNat ≤ 39 := hhi
  refine ⟨by simp [plainStorage, hlo', hhi'], ?_⟩
  show r.toNat ≤ 69
  omega

/-- On the reference chain the answer for plain storage is the register's byte (20_memory.md R99). -/
theorem readAnswer_of_refChain {s : State} {r : Byte} (href : s.env.refChain = true)
    (hplain : plainStorage r.toNat = true) (i : Nat) : readAnswer s r i = chipReg s i r.toNat := by
  simp [readAnswer, regReply, href, hplain]

/-- Off the reference chain the answer is the environment's. -/
theorem readAnswer_of_not_refChain {s : State} (href : s.env.refChain = false) (r : Byte) (i : Nat) :
    readAnswer s r i = answerAt s (2 * s.par.n + (2 * i + 1)) := by
  simp [readAnswer, regReply, href]

/-- Wherever the chain answers as the reference chain does, rx[i] after a ReadTxn is the byte the register held. -/
theorem rxAt_hasRead_of_agrees {s : State} {r : Byte} {i : Nat} (hplain : plainStorage r.toNat = true)
    (hi : i < s.par.n)
    (h : s.env.refChain = true ∨ answerAt s (2 * s.par.n + (2 * i + 1)) = chipReg s i r.toNat) :
    rxAt (s.hasRead r) i = chipReg s i r.toNat := by
  have hrx : rxAt (s.hasRead r) i = readAnswer s r i := by simp [rxAt, State.hasRead, hi]
  rw [hrx]
  cases href : s.env.refChain with
  | true => exact readAnswer_of_refChain href hplain i
  | false => exact (readAnswer_of_not_refChain href r i).trans (h.resolve_left (by simp [href]))

/-- On the reference chain a ReadTxn of plain storage receives what the registers hold. -/
theorem hasRead_rx_of_refChain {s : State} {r : Byte} (href : s.env.refChain = true)
    (hplain : plainStorage r.toNat = true) :
    (s.hasRead r).transport.rx = (List.range s.par.n).map fun i => chipReg s i r.toNat :=
  List.map_congr_left fun i _ => readAnswer_of_refChain href hplain i

/-- A ReadTxn keeps what a later transaction asks for. -/
theorem hasRead_ready (s : State) (r : Byte) :
    (s.hasRead r).transport.rx.length = s.par.n ∧ (s.hasRead r).env.latch.length = s.par.n := by
  simp [State.hasRead]

/-- Settles O26: the READ runs from what the WRITE leaves, whose addressed register holds the byte. -/
theorem readAfterWriteReturnsTheByte : Obligations.ReadAfterWriteReturnsTheByte := by
  intro s d r v h hs hd hlo hhi
  obtain ⟨hplain, hr⟩ := plainStorage_of_mem hlo hhi
  obtain ⟨-, -, hlatch⟩ := wrote_ready s d.toNat r v
  have hstored : chipReg ((s.wrote d.toNat r v).endCommand .ok) d.toNat r.toNat = v := chipReg_wrote_same hr s d.toNat v
  refine ⟨_, _, exec_write_free v h hs.latch hd hr, exec_read_free h hs.rx hlatch hr, hstored,
    fun i hi hans => rxAt_hasRead_of_agrees hplain hi hans, fun hans => ?_⟩
  have hans' := hans.imp_right fun e => e.trans hstored.symm
  exact (rxAt_hasRead_of_agrees (s := (s.wrote d.toNat r v).endCommand .ok) hplain hd hans').trans hstored

/-- Settles O27: both READs receive what the registers hold, and neither changes a register. -/
theorem readsOnTheReferenceChainAgree : Obligations.ReadsOnTheReferenceChainAgree := by
  intro s r h hs href hlo hhi
  obtain ⟨hplain, hr⟩ := plainStorage_of_mem hlo hhi
  obtain ⟨hrx, hlatch⟩ := hasRead_ready s r
  have hsecond := hasRead_rx_of_refChain (s := (s.hasRead r).endCommand .ok) href hplain
  exact ⟨_, _, exec_read_free h hs.rx hs.latch hr, exec_read_free h hrx hlatch hr,
    fun i hi => rxAt_hasRead_of_agrees hplain hi (.inl href),
    hsecond.trans (hasRead_rx_of_refChain href hplain).symm, rfl, rfl⟩

end Sys2Proof.Machine

/-! ### Words and instructions (30_encoding.md R110-R124)

What each field of a word that `encode` builds is, that a word is made of its own fields again, and from these that
`decode` undoes `encode` and that `encode` gives back the word it was decoded from. -/

namespace Sys2Proof.Machine

/-! #### The fields of a command (30_encoding.md R111, R113, R115) -/

/-- A command word is made of its four fields. -/
theorem cmdWordOf_fields (cmd : Word) : cmdWordOf (opField cmd) (devField cmd) (aField cmd) (bField cmd) = cmd := by
  have hhigh : opField cmd ++ devField cmd = cmd.extractLsb' 16 16 :=
    BitVec.extractLsb'_append_extractLsb'_eq_extractLsb' rfl
  have hthree : cmd.extractLsb' 16 16 ++ aField cmd = cmd.extractLsb' 8 24 :=
    BitVec.extractLsb'_append_extractLsb'_eq_extractLsb' rfl
  have hall : cmd.extractLsb' 8 24 ++ bField cmd = cmd.extractLsb' 0 32 :=
    BitVec.extractLsb'_append_extractLsb'_eq_extractLsb' rfl
  rw [cmdWordOf, hhigh, hthree, hall]
  exact BitVec.extractLsb'_eq_self

theorem argByte_argOf (v : Byte) : argByte (argOf v) = v := by
  simp [argByte, argOf, ← BitVec.setWidth_eq_extractLsb']

/-- The command of four fields decodes by them. -/
theorem decodeCommand_cmdWordOf (op dev a b : Byte) (arg : Word) :
    decodeCommand (cmdWordOf op dev a b) arg = decodeFields op dev a b arg := by
  rw [decodeCommand, opField_cmdWordOf, devField_cmdWordOf, aField_cmdWordOf, bField_cmdWordOf]

/-- The rows of the opcode map: the reserved codes, and the eleven defined ones (30_encoding.md R113, R114). -/
theorem opcode_cases (op : Byte) : 0x0B#8 ≤ op ∨ op = 0x00#8 ∨ op = 0x01#8 ∨ op = 0x02#8 ∨ op = 0x03#8 ∨ op = 0x04#8 ∨
    op = 0x05#8 ∨ op = 0x06#8 ∨ op = 0x07#8 ∨ op = 0x08#8 ∨ op = 0x09#8 ∨ op = 0x0A#8 := by
  bv_omega

theorem decodeFields_write (dev a b : Byte) (arg : Word) :
    decodeFields 0x01#8 dev a b arg = .write dev a b (argByte arg) := rfl

theorem decodeFields_setPw (dev a b : Byte) (arg : Word) :
    decodeFields 0x03#8 dev a b arg = .setPw dev a b (argByte arg) := rfl

/-- A reserved code is none of the defined ones. -/
theorem decodeFields_reserved {op : Byte} (h : 0x0B#8 ≤ op) (dev a b : Byte) (arg : Word) :
    decodeFields op dev a b arg = .reservedOp op dev a b := by
  unfold decodeFields
  iterate 11 rw [if_neg (by bv_omega)]

theorem decodeFields_wf (op dev a b : Byte) (arg : Word) : (decodeFields op dev a b arg).wf = true := by
  obtain hreserved | rfl | rfl | rfl | rfl | rfl | rfl | rfl | rfl | rfl | rfl | rfl := opcode_cases op
  · rw [decodeFields_reserved hreserved]
    exact decide_eq_true hreserved
  all_goals rfl

/-- What the fields decode to has the command word of these fields; its ARG keeps the bits the opcode reads. -/
theorem encode_decodeFields (op dev a b : Byte) (arg : Word) :
    ∃ arg', encode (decodeFields op dev a b arg) = some (.command (cmdWordOf op dev a b) arg') := by
  obtain hreserved | rfl | rfl | rfl | rfl | rfl | rfl | rfl | rfl | rfl | rfl | rfl := opcode_cases op
  · exact ⟨_, by rw [decodeFields_reserved hreserved, encode]⟩
  all_goals exact ⟨_, rfl⟩

/-! #### The fields of a unit (30_encoding.md R120-R122) -/

theorem unitInstr_unitOf (r : Reg7) (w : Bool) (d : Byte) : unitInstr (unitOf r w d) = r ++ BitVec.ofBool w :=
  unitInstr_append _ d

theorem unitReg_unitOf (r : Reg7) (w : Bool) (d : Byte) : unitReg (unitOf r w d) = r :=
  (unitReg_append _ d).trans BitVec.extractLsb'_append_eq_left

theorem unitData_unitOf (r : Reg7) (w : Bool) (d : Byte) : unitData (unitOf r w d) = d := unitData_append _ d

/-- The RW bit is bit 0 of the instruction byte. -/
theorem unitRw_eq (u : Unit16) : unitRw u = (unitInstr u).getLsbD 0 := by
  simp [unitRw, unitInstr]

theorem ofBool_unitRw (u : Unit16) : BitVec.ofBool (unitRw u) = u.extractLsb' 8 1 := by
  apply BitVec.eq_of_getLsbD_eq
  intro i hi
  obtain rfl : i = 0 := by omega
  simp [unitRw]

/-- A unit is made of its register address, its RW bit and its data byte. -/
theorem unitOf_fields (u : Unit16) : unitOf (unitReg u) (unitRw u) (unitData u) = u := by
  have hhigh : unitReg u ++ u.extractLsb' 8 1 = u.extractLsb' 8 8 :=
    BitVec.extractLsb'_append_extractLsb'_eq_extractLsb' rfl
  have hall : u.extractLsb' 8 8 ++ unitData u = u.extractLsb' 0 16 :=
    BitVec.extractLsb'_append_extractLsb'_eq_extractLsb' rfl
  rw [unitOf, ofBool_unitRw, hhigh, hall]
  exact BitVec.extractLsb'_eq_self

/-- The sentinel is the instruction byte with REG 0x7F and RW 1 only (30_encoding.md R121). -/
theorem reg_of_noop {r : Reg7} {w : Bool} (h : (r ++ BitVec.ofBool w : Byte) = noopByte) : r = 0x7F#7 :=
  calc r = (r ++ BitVec.ofBool w : Byte).extractLsb' 1 7 := BitVec.extractLsb'_append_eq_left.symm
    _ = noopByte.extractLsb' 1 7 := by rw [h]
    _ = 0x7F#7 := rfl

/-! #### The three kinds of unit (30_encoding.md R124) -/

theorem decodeUnit_noop {u : Unit16} (h : unitInstr u = noopByte) : decodeUnit u = .wireNop := if_pos h

/-- A unit with RW 0 is a write; its instruction byte is not the sentinel, which has RW 1. -/
theorem decodeUnit_write {u : Unit16} (h : unitRw u = false) : decodeUnit u = .wireWr (unitReg u) (unitData u) := by
  have hkind : unitInstr u ≠ noopByte := fun hnoop => by
    rw [unitRw_eq, hnoop] at h
    exact absurd h (by decide)
  rw [decodeUnit, if_neg hkind, if_neg (by simp [h])]

theorem decodeUnit_read {u : Unit16} (hkind : unitInstr u ≠ noopByte) (h : unitRw u = true) :
    decodeUnit u = .wireRd (unitReg u) (unitData u) := by
  rw [decodeUnit, if_neg hkind, if_pos h]

theorem decodeUnit_wf (u : Unit16) : (decodeUnit u).wf = true := by
  by_cases hkind : unitInstr u = noopByte
  · rw [decodeUnit_noop hkind]
    rfl
  cases hrw : unitRw u with
  | false => rw [decodeUnit_write hrw]; rfl
  | true =>
    have hreg : unitReg u ≠ 0x7F#7 := fun h => hkind <| by
      rw [← unitOf_fields u, unitInstr_unitOf, h, hrw]
      rfl
    rw [decodeUnit_read hkind hrw]
    simp [Instr.wf, hreg]

/-- A unit that is not a no-op is the unit of what it decodes to. -/
theorem encode_decodeUnit {u : Unit16} (hkind : unitInstr u ≠ noopByte) :
    encode (decodeUnit u) = some (.wireUnit u) := by
  have hfields := unitOf_fields u
  cases hrw : unitRw u with
  | false =>
    rw [hrw] at hfields
    rw [decodeUnit_write hrw, encode, hfields]
  | true =>
    rw [hrw] at hfields
    rw [decodeUnit_read hkind hrw, encode, hfields]

/-! #### Decoding undoes encoding, and the other way round -/

/-- Settles O1: a command decodes by the fields of its word, a unit by its register address, RW bit and data byte; `wf`
gives what the two guarded rows ask, a reserved code and a read that is no sentinel. -/
theorem decodeGivesTheEncodedInstruction : Obligations.DecodeGivesTheEncodedInstruction := by
  intro i hwf
  cases i with
  | write d r b v => exact ⟨_, rfl, by rw [decode, decodeCommand_cmdWordOf, decodeFields_write, argByte_argOf]⟩
  | setPw d s c v => exact ⟨_, rfl, by rw [decode, decodeCommand_cmdWordOf, decodeFields_setPw, argByte_argOf]⟩
  | reservedOp op d a b =>
    exact ⟨_, rfl, (decodeCommand_cmdWordOf ..).trans (decodeFields_reserved (of_decide_eq_true hwf) d a b _)⟩
  | tickUpdate => cases hwf
  | spawn => cases hwf
  | wireNop => exact ⟨_, rfl, noop_unit noopByte⟩
  | wireWr r v =>
    exact ⟨_, rfl, by rw [decode, decodeUnit_write (unitOf_rw r false v), unitReg_unitOf, unitData_unitOf]⟩
  | wireRd r v =>
    have hkind : unitInstr (unitOf r true v) ≠ noopByte := fun h => by
      rw [unitInstr_unitOf] at h
      simp [Instr.wf, reg_of_noop h] at hwf
    exact ⟨_, rfl, by rw [decode, decodeUnit_read hkind (unitOf_rw r true v), unitReg_unitOf, unitData_unitOf]⟩
  | _ => exact ⟨_, rfl, decodeCommand_cmdWordOf ..⟩

/-- The same, for the words at hand. -/
theorem decode_of_encode {i : Instr} {ws : Words} (hwf : i.wf = true) (h : encode i = some ws) : decode ws = i := by
  obtain ⟨ws', hencode, hdecode⟩ := decodeGivesTheEncodedInstruction i hwf
  cases h.symm.trans hencode
  exact hdecode

theorem decode_wf (ws : Words) : (decode ws).wf = true := by
  cases ws with
  | command cmd arg => exact decodeFields_wf ..
  | wireUnit u => exact decodeUnit_wf u

/-- Settles O2: what a word decodes to is well-formed, so its own words decode to it again; a no-op unit is encoded as
the sentinel, any other word as itself. -/
theorem everyWordDecodesToOneInstruction : Obligations.EveryWordDecodesToOneInstruction := by
  refine ⟨decode_wf, fun u => ?_, fun cmd arg => ?_⟩
  · by_cases hkind : unitInstr u = noopByte
    · have hdecode := decodeUnit_noop hkind
      exact ⟨0xFFFF#16, by rw [hdecode]; rfl, hdecode.symm, hkind.symm, fun hne => absurd hkind hne⟩
    · exact ⟨u, encode_decodeUnit hkind, rfl, rfl, fun _ => rfl⟩
  · obtain ⟨arg', hencode⟩ := encode_decodeFields (opField cmd) (devField cmd) (aField cmd) (bField cmd) arg
    rw [cmdWordOf_fields] at hencode
    exact ⟨arg', hencode, decode_of_encode (decode_wf (.command cmd arg)) hencode⟩

/-! #### Words written out, the sentinel, and the length of a frame -/

/-- Settles O3, each word by evaluation. -/
theorem writtenOutWordsDecode : Obligations.WrittenOutWordsDecode := by
  unfold Obligations.WrittenOutWordsDecode
  decide

/-- The instruction byte `(reg << 1) | rw` as a number: no bit is lost for a defined address (30_encoding.md R120). -/
theorem instrByte_toNat {r : Byte} (h : r ≤ regMax) (w : Bool) : (instrByte r w).toNat = 2 * r.toNat + w.toNat := by
  have hr : r.toNat ≤ 69 := h
  have hbit : (if w then 1#8 else 0#8 : Byte).toNat = w.toNat := by cases w <;> rfl
  have hshift : r.toNat <<< 1 = 2 * r.toNat := by rw [Nat.shiftLeft_eq, Nat.pow_one, Nat.mul_comm]
  rw [instrByte, BitVec.toNat_or, BitVec.toNat_shiftLeft, hbit, hshift, Nat.mod_eq_of_lt (by omega), ← hshift,
    ← Nat.shiftLeft_add_eq_or_of_lt w.toNat_lt]

/-- Settles O4: a built byte is at most 2 * 0x45 + 1 = 0x8B, below the sentinel. -/
theorem noBuiltInstructionByteIsTheSentinel : Obligations.NoBuiltInstructionByteIsTheSentinel := by
  refine ⟨noop_unit noopByte, rfl, rfl, rfl, fun r hr w => ?_⟩
  have hvalue := instrByte_toNat hr w
  have hreg : r.toNat ≤ 69 := hr
  have hbit := w.toNat_lt
  have hle : (instrByte r w).toNat ≤ 139 := by omega
  refine ⟨fun hnoop => ?_, hle⟩
  rw [hnoop] at hle
  exact absurd hle (by decide)

/-- A select bracket of two bytes for each position (30_encoding.md R123). -/
theorem frame_length (n : Nat) (unit : Nat → Byte × Byte) : (frame n unit).length = 1 + 2 * n + 1 := by
  simp [frame, List.length_flatMap]
  omega

/-- Settles O50: the instruction byte is the high byte of the unit, and each kind is a case of it. -/
theorem instructionByteTellsTheUnit : Obligations.InstructionByteTellsTheUnit := by
  intro b d
  have hinstr := unitInstr_append b d
  have hrw := unitRw_append b d
  refine ⟨fun hb => decodeUnit_noop (hinstr.trans hb), fun hwrite => ?_, fun hb hread => ?_, frame_length⟩
  · rw [decodeUnit_write (hrw.trans hwrite), unitReg_append, unitData_append]
  · rw [decodeUnit_read (hinstr.trans_ne hb) (hrw.trans hread), unitReg_append, unitData_append]

end Sys2Proof.Machine

/-! ### Commands that fail, and units at a chip (30_encoding.md R112-R117, R124)

Every command makes its two checks in the same order before it does anything (`exec_checked`). -/

namespace Sys2Proof.Machine

/-- Settles O6: the event is the next turn, which runs the decoded unit. -/
theorem unitEventRunsTheDecodedUnit : Obligations.UnitEventRunsTheDecodedUnit := by
  intro s p u l h
  exact step_of_run (nextTurn_of_event h)

/-- Settles O20: a reserved code decodes to a reserved operation, which has one meaning. -/
theorem reservedOpcodeFails : Obligations.ReservedOpcodeFails := by
  intro cmd arg s hop
  rw [decodeCommand, decodeFields_reserved hop]
  rfl

/-- A command's operation behind its two checks: the unused fields, then the ranges (60_exceptions.md R302). -/
def checked (clear ok : Bool) (s : State) (r : Res ErrorCode) : Res ErrorCode :=
  if !clear then .done .rsvd s else if !ok then .done .range s else r

/-- Every command is some operation behind the checks of its operands. The definitions say so as they stand, but for
NOP's, which has its two branches the other way round. -/
theorem exec_checked {i : Instr} (s : State) (h : ∃ cmd arg, encode i = some (.command cmd arg)) :
    ∃ r, exec i s = .next (completeCommand i (checked i.reservedClear (i.inRange s.par.n) s r)) := by
  obtain ⟨cmd, arg, hencode⟩ := h
  cases i with
  | nop d a b =>
    have hbody : nopBody d a b s = checked (unused d && unused a && unused b) true s (.done .ok s) := by
      rw [nopBody]
      cases unused d && unused a && unused b <;> rfl
    exact ⟨.done .ok s, by rw [exec, execNop, hbody]; rfl⟩
  | tickUpdate => cases hencode
  | spawn => cases hencode
  | wireNop => cases hencode
  | wireWr r v => cases hencode
  | wireRd r v => cases hencode
  | _ => exact ⟨_, rfl⟩

/-- Settles O21: the check that fails ends the command before its operation. -/
theorem failingOperandChecksOnlyEndTheCommand : Obligations.FailingOperandChecksOnlyEndTheCommand := by
  intro i s hcommand
  obtain ⟨r, hexec⟩ := exec_checked s hcommand
  refine ⟨fun hclear => ?_, fun hclear hrange => ?_⟩
  · rw [hexec, hclear]
    rfl
  · rw [hexec, hclear, hrange]
    rfl

end Sys2Proof.Machine

/-! ### NOP, WRITE and READ as commands (40_transport.md R155, R160, R170)

NOP has no operation behind its check; a WRITE and a READ of legal operands are `exec_write_free` and
`exec_read_free`, whose premises on the buffers are two of `Shaped`. -/

namespace Sys2Proof.Machine

/-- NOP's check leaves the state alone and tells its code (40_transport.md R155). -/
theorem nopBody_eq (d a b : Byte) (s : State) :
    nopBody d a b s = .done (if d = 0#8 ∧ a = 0#8 ∧ b = 0#8 then .ok else .rsvd) s := by
  have hunused : (unused d && unused a && unused b) = true ↔ d = 0#8 ∧ a = 0#8 ∧ b = 0#8 := by
    simp [unused, and_assoc]
  by_cases hclear : d = 0#8 ∧ a = 0#8 ∧ b = 0#8
  · rw [nopBody, if_pos (hunused.mpr hclear), if_pos hclear]
  · rw [nopBody, if_neg (hclear ∘ hunused.mp), if_neg hclear]

/-- Settles O19: what NOP does is its check, whose code ends the command. -/
theorem nopOnlyEndsTheCommand : Obligations.NopOnlyEndsTheCommand := by
  intro s d a b
  rw [exec, execNop, nopBody_eq]
  rfl

/-- Settles O22: a WRITE of legal operands leaves `wrote`. -/
theorem writeSendsOneFrame : Obligations.WriteSendsOneFrame := by
  intro s d r v hbus hshaped hd hr
  exact exec_write_free v hbus hshaped.latch hd hr

/-- Settles O25: a READ of a legal register leaves `hasRead`. -/
theorem readCapturesTheSecondBytes : Obligations.ReadCapturesTheSecondBytes := by
  intro s r hbus hshaped hr
  exact exec_read_free hbus hshaped.rx hshaped.latch hr

end Sys2Proof.Machine

/-! ### The channel map (41_channel_map.md R181-R183)

Both tests of a pair as arithmetic; on the legal pairs ChanOff is the linear form 15 - 3*slot - color, from which its
range and its injectivity follow. -/

namespace Sys2Proof.Machine

/-- The legal pairs as numbers: three colors for each of five slots, and the fourth color of the last (R182). -/
theorem legalPair_iff {slot color : Byte} : legalPair slot color = true ↔
    slot.toNat < 5 ∧ (color.toNat < 3 ∨ (slot.toNat = 4 ∧ color.toNat = 3)) := by
  simp only [legalPair, Bool.or_eq_true, Bool.and_eq_true, decide_eq_true_eq, beq_iff_eq, BitVec.le_def,
    BitVec.toNat_eq, BitVec.toNat_ofNat]
  omega

/-- The test a command makes of its pair is the one of R182. -/
theorem pairOk_eq_legalPair (slot color : Byte) : pairOk slot color = legalPair slot color := rfl

/-- On a legal pair the difference of R181 is not cut off at 0. -/
theorem chanOff_add {slot color : Byte} (h : legalPair slot color = true) :
    chanOff slot.toNat color.toNat + 3 * slot.toNat + color.toNat = 15 := by
  obtain ⟨hslot, hcolor⟩ := legalPair_iff.mp h
  unfold chanOff
  omega

/-- Every channel has a legal pair: slot (15 - k) / 3 and the remaining color, the last slot taking the fourth color. -/
theorem exists_legalPair {k : Nat} (hk : k < 16) :
    ∃ slot color : Byte, legalPair slot color = true ∧ chanOff slot.toNat color.toNat = k := by
  obtain ⟨m, c, hm, hc, hsum⟩ : ∃ m c, m < 5 ∧ (c < 3 ∨ (m = 4 ∧ c = 3)) ∧ 15 - 3 * m - c = k :=
    ⟨min ((15 - k) / 3) 4, 15 - k - 3 * min ((15 - k) / 3) 4, by omega, by omega, by omega⟩
  have hslot : (BitVec.ofNat 8 m).toNat = m := by rw [BitVec.toNat_ofNat]; omega
  have hcolor : (BitVec.ofNat 8 c).toNat = c := by rw [BitVec.toNat_ofNat]; omega
  refine ⟨BitVec.ofNat 8 m, BitVec.ofNat 8 c, legalPair_iff.mpr ?_, ?_⟩ <;> rw [hslot, hcolor]
  · exact ⟨hm, hc⟩
  · exact hsum

/-- Two legal pairs of one channel are the same pair. -/
theorem legalPair_unique {slot color slot' color' : Byte} (h : legalPair slot color = true)
    (h' : legalPair slot' color' = true)
    (hchan : chanOff slot'.toNat color'.toNat = chanOff slot.toNat color.toNat) : slot' = slot ∧ color' = color := by
  have hsum := chanOff_add h
  have hsum' := chanOff_add h'
  obtain ⟨hslot, hcolor⟩ := legalPair_iff.mp h
  obtain ⟨hslot', hcolor'⟩ := legalPair_iff.mp h'
  exact ⟨BitVec.eq_of_toNat_eq (by omega), BitVec.eq_of_toNat_eq (by omega)⟩

/-- The duty and the gain register of a legal pair are those of R183's tables, and registers of a chip. -/
theorem channelRegs_of_legal {slot color : Byte} (h : legalPair slot color = true) :
    pwmReg (chanOff slot.toNat color.toNat) = dutyAddr slot.toNat color.toNat ∧
      irefReg (chanOff slot.toNat color.toNat) = gainAddr slot.toNat color.toNat ∧
      gainAddr slot.toNat color.toNat ≤ regMax := by
  obtain ⟨hslot, hcolor⟩ := legalPair_iff.mp h
  have hcolor4 : color.toNat < 4 := by omega
  exact ⟨pwmReg_chanOff _ hslot _ hcolor4 hcolor, irefReg_chanOff _ hslot _ hcolor4 hcolor,
    gainAddr_le _ hslot _ hcolor4⟩

/-- Settles O30: a channel has a legal pair and no second one, and the registers are the tables'. -/
theorem eachChannelHasOneLegalPair : Obligations.EachChannelHasOneLegalPair := by
  refine ⟨fun k hk => ?_, fun slot color h => ?_⟩
  · obtain ⟨slot, color, h, hchan⟩ := exists_legalPair hk
    exact ⟨slot, color, h, hchan, fun slot' color' h' hchan' => legalPair_unique h h' (hchan'.trans hchan.symm)⟩
  · obtain ⟨hduty, hgain, -⟩ := channelRegs_of_legal h
    exact ⟨chanOff_add h, hduty, hgain⟩

/-! ### SET_PW and SET_GAIN (41_channel_map.md R190, R192) -/

/-- Legal operands pass the check both commands make. -/
theorem operandsOk_of_legal {s : State} {d slot color : Byte} (hd : d.toNat < s.par.n)
    (h : legalPair slot color = true) : (devOk s d && pairOk slot color) = true := by
  simp [devOk, hd, pairOk_eq_legalPair, h]

/-- SET_PW's operation on legal operands, when every bus primitive completes. -/
theorem setPwBody_free {s : State} {d slot color : Byte} (v : Byte) (hbus : BusCompletes s)
    (hl : s.env.latch.length = s.par.n) (hd : d.toNat < s.par.n) (h : legalPair slot color = true) :
    setPwBody d slot color v s = .done .ok (s.wrote d.toNat (dutyAddr slot.toNat color.toNat) v) := by
  obtain ⟨hslot, hcolor⟩ := legalPair_iff.mp h
  rw [setPwBody, operandsOk_of_legal hd h, setPW_free hbus hl hd hslot hcolor]
  rfl

/-- Settles O31: the operation on legal operands is the one write, whose code is OK. -/
theorem setPwWritesTheDutyRegister : Obligations.SetPwWritesTheDutyRegister := by
  intro s d slot color v hbus hshaped hd h
  rw [exec, execSetPw, setPwBody_free v hbus hshaped.latch hd h]
  rfl

/-- A NaN is no intensity (R192). -/
theorem setGainBody_nan {s : State} {d slot color : Byte} {f : F32} (hd : d.toNat < s.par.n)
    (h : legalPair slot color = true) (hnan : f32IsNaN f = true) :
    setGainBody d slot color f s = .done .arg s := by
  rw [setGainBody, operandsOk_of_legal hd h, hnan]
  rfl

/-- Where Calibrate gives no code nothing is sent (R187, R192). -/
theorem setGainBody_numeric {s : State} {d slot color : Byte} {f : F32} (hd : d.toNat < s.par.n)
    (h : legalPair slot color = true) (hnum : f32IsNaN f = false)
    (hcal : calibrate s.par color f s.window.cfgRext = none) :
    setGainBody d slot color f s = .done .numeric s := by
  rw [setGainBody, operandsOk_of_legal hd h, hnum, hcal]
  rfl

/-- A code is one write, and RESULT, when every bus primitive completes (R192). -/
theorem setGainBody_free {s : State} {d slot color q : Byte} {f : F32} (hbus : BusCompletes s)
    (hl : s.env.latch.length = s.par.n) (hd : d.toNat < s.par.n) (h : legalPair slot color = true)
    (hnum : f32IsNaN f = false) (hcal : calibrate s.par color f s.window.cfgRext = some q) :
    setGainBody d slot color f s =
      .done .ok ((s.wrote d.toNat (gainAddr slot.toNat color.toNat) q).setResult (q.setWidth 32)) := by
  obtain ⟨-, hgain, hle⟩ := channelRegs_of_legal h
  have hwrite := writeTxn_free (v := q) hbus hl hd hle
  simp [setGainBody, operandsOk_of_legal hd h, hnum, hcal, hgain, hwrite]

/-- Settles O32: the three outcomes of the operation, each with its code. -/
theorem setGainWritesTheCode : Obligations.SetGainWritesTheCode := by
  intro s d slot color f hbus hshaped hd h
  rw [exec, execSetGain]
  refine ⟨fun hnan => ?_, fun hnum hcal => ?_, fun q hnum hcal => ?_⟩
  · rw [setGainBody_nan hd h hnan]
    rfl
  · rw [setGainBody_numeric hd h hnum hcal]
    rfl
  · rw [setGainBody_free hbus hshaped.latch hd h hnum hcal]
    rfl

end Sys2Proof.Machine

/-! ### The calibration (41_channel_map.md R186-R188) -/

namespace Sys2Proof.Machine

/-! #### Clamp -/

theorem f32Lt_iff {a b : F32} :
    f32Lt a b = true ↔ f32IsNaN a = false ∧ f32IsNaN b = false ∧ f32Key a < f32Key b := by
  simp [f32Lt, and_assoc]

theorem f32Le_iff {a b : F32} :
    f32Le a b = true ↔ f32IsNaN a = false ∧ f32IsNaN b = false ∧ f32Key a ≤ f32Key b := by
  simp [f32Le, and_assoc]

theorem f32Le_refl {a : F32} (ha : f32IsNaN a = false) : f32Le a a = true := f32Le_iff.mpr ⟨ha, ha, le_refl _⟩

theorem f32Le_of_lt {a b : F32} (h : f32Lt a b = true) : f32Le a b = true := by
  obtain ⟨ha, hb, hkey⟩ := f32Lt_iff.mp h
  exact f32Le_iff.mpr ⟨ha, hb, hkey.le⟩

/-- Two values that are no NaN are ordered one way or the other. -/
theorem f32Le_of_not_lt {a b : F32} (ha : f32IsNaN a = false) (hb : f32IsNaN b = false) (h : ¬f32Lt a b = true) :
    f32Le b a = true :=
  f32Le_iff.mpr ⟨hb, ha, not_lt.mp fun hkey => h (f32Lt_iff.mpr ⟨ha, hb, hkey⟩)⟩

theorem not_f32Lt_of_le {a b : F32} (h : f32Le b a = true) : ¬f32Lt a b = true := fun hlt => by
  obtain ⟨-, -, hkey⟩ := f32Lt_iff.mp hlt
  obtain ⟨-, -, hle⟩ := f32Le_iff.mp h
  exact not_lt.mpr hle hkey

theorem clampIntensity_of_neg {i : F32} (maxi : F32) (h : f32Lt i f32Zero = true) :
    clampIntensity maxi i = f32Zero := if_pos h

/-- An intensity above MAXI, which is positive, is not negative. -/
theorem clampIntensity_of_above {maxi i : F32} (hmaxi : f32Lt f32Zero maxi = true) (h : f32Lt maxi i = true) :
    clampIntensity maxi i = maxi := by
  have hpos : f32Le f32Zero i = true := f32Le_of_lt (f32Lt_of_lt_of_le hmaxi (f32Le_of_lt h))
  rw [clampIntensity, if_neg (not_f32Lt_of_le hpos), if_pos h]

theorem clampIntensity_of_mem {maxi i : F32} (hlo : f32Le f32Zero i = true) (hhi : f32Le i maxi = true) :
    clampIntensity maxi i = i := by
  rw [clampIntensity, if_neg (not_f32Lt_of_le hlo), if_neg (not_f32Lt_of_le hhi)]

/-- Clamp's result lies in [+0.0, MAXI] (R186). -/
theorem clampIntensity_mem {maxi i : F32} (hmaxi : f32Lt f32Zero maxi = true) (hi : f32IsNaN i = false) :
    f32Le f32Zero (clampIntensity maxi i) = true ∧ f32Le (clampIntensity maxi i) maxi = true := by
  obtain ⟨hzero, hnum, -⟩ := f32Lt_iff.mp hmaxi
  by_cases hneg : f32Lt i f32Zero = true
  · rw [clampIntensity_of_neg maxi hneg]
    exact ⟨f32Le_refl hzero, f32Le_of_lt hmaxi⟩
  · by_cases habove : f32Lt maxi i = true
    · rw [clampIntensity_of_above hmaxi habove]
      exact ⟨f32Le_of_lt hmaxi, f32Le_refl hnum⟩
    · have hlo := f32Le_of_not_lt hi hzero hneg
      have hhi := f32Le_of_not_lt hnum hi habove
      rw [clampIntensity_of_mem hlo hhi]
      exact ⟨hlo, hhi⟩

/-- Settles O33: the range, and Clamp's three cases. -/
theorem clampLandsInRange : Obligations.ClampLandsInRange := by
  intro maxi i hmaxi hi
  obtain ⟨hlo, hhi⟩ := clampIntensity_mem hmaxi hi
  exact ⟨hlo, hhi, clampIntensity_of_mem, clampIntensity_of_neg maxi, clampIntensity_of_above hmaxi⟩

/-! #### A Newton iterate that is no finite number -/

/-- A value that is no finite number is a NaN or an infinity (00_scope.md R11). -/
theorem nan_or_inf_of_not_finite {x : F32} (h : f32IsFinite x = false) : f32IsNaN x = true ∨ f32IsInf x = true := by
  simp only [f32IsFinite, f32IsNaN, f32IsInf, decide_eq_false_iff_not, decide_eq_true_eq, beq_iff_eq] at h ⊢
  omega

theorem f32NaN_not_finite : f32IsFinite f32NaN = false := by decide

/-- A sum whose first operand is an infinity or a NaN is that infinity or a NaN. -/
theorem f32Add_not_finite {a : F32} (b : F32) (ha : f32IsFinite a = false) : f32IsFinite (f32Add a b) = false := by
  unfold f32Add
  split
  · exact f32NaN_not_finite
  · next hnum =>
    have hinf : f32IsInf a = true := (nan_or_inf_of_not_finite ha).resolve_left fun hnan => hnum (by simp [hnan])
    rw [if_pos hinf]
    split
    · exact f32NaN_not_finite
    · exact ha

/-- Newton's step subtracts from x, so an x that is no finite number stays none (R188 (a)). -/
theorem newtonStep_not_finite (a b i : F32) {x : F32} (hx : f32IsFinite x = false) :
    f32IsFinite (newtonStep a b i x) = false := f32Add_not_finite _ hx

theorem newtonIterate_not_finite (a b i : F32) (k : Nat) {x : F32} (hx : f32IsFinite x = false) :
    f32IsFinite (newtonIterate a b i k x) = false := by
  induction k generalizing x with
  | zero => exact hx
  | succ k ih => exact ih (newtonStep_not_finite a b i hx)

theorem codeOfRoot_not_finite (rext : Word) {x : F32} (hx : f32IsFinite x = false) : codeOfRoot rext x = none :=
  if_pos (by simp [hx])

/-- Settles O34, by induction on the number of steps. -/
theorem nonFiniteRootIsPermanent : Obligations.NonFiniteRootIsPermanent := by
  intro a b i x rext hx k
  have hroot := newtonIterate_not_finite a b i k hx
  exact ⟨hroot, codeOfRoot_not_finite rext hroot⟩

end Sys2Proof.Machine

/-! ### CLEAR_CH and CLEAR_ALL (41_channel_map.md R195, R197)

`Zeroed ws s t` says all that zero writes of the duty registers `ws` leave. A single write is one, and so is a fold of
pieces that are; the sixteen writes of a device are such a fold, and the devices of the chain are one of these. -/

namespace Sys2Proof.Machine

/-- What zero writes of the duty registers `ws` (chain position and register, in order) leave of `s`: a write frame each,
zero in these registers, and the other registers, rx, the window, the engine and the parameters as they were. -/
structure Zeroed (ws : List (Nat × Byte)) (s t : State) : Prop where
  par : t.par = s.par
  window : t.window = s.window
  engine : t.engine = s.engine
  rx : t.transport.rx = s.transport.rx
  hangIn : t.env.hangIn = s.env.hangIn
  latch : s.env.latch.length = s.par.n → t.env.latch.length = s.par.n
  trace : t.env.trace = s.env.trace ++ ws.flatMap fun w => writeFrame s.par.n w.1 w.2 0x00#8
  chips : ∀ p a, a < 128 → chipReg t p a = if (p, BitVec.ofNat 8 a) ∈ ws then 0x00#8 else chipReg s p a

theorem Zeroed.refl (s : State) : Zeroed [] s s where
  par := rfl
  window := rfl
  engine := rfl
  rx := rfl
  hangIn := rfl
  latch := id
  trace := by simp
  chips := fun _ _ _ => (if_neg List.not_mem_nil).symm

/-- A register the first writes zeroed is zeroed again by the later ones, or left alone by them. -/
theorem Zeroed.trans {ws vs : List (Nat × Byte)} {s t u : State} (h : Zeroed ws s t) (k : Zeroed vs t u) :
    Zeroed (ws ++ vs) s u where
  par := k.par.trans h.par
  window := k.window.trans h.window
  engine := k.engine.trans h.engine
  rx := k.rx.trans h.rx
  hangIn := k.hangIn.trans h.hangIn
  latch := fun hl => (k.latch ((h.latch hl).trans (congrArg Params.n h.par.symm))).trans (congrArg Params.n h.par)
  trace := by rw [k.trace, h.trace, h.par, List.flatMap_append, List.append_assoc]
  chips := fun p a ha => by
    rw [k.chips p a ha, h.chips p a ha]
    by_cases hlater : (p, BitVec.ofNat 8 a) ∈ vs <;> simp [hlater]

theorem Zeroed.foldl {α : Type} {ws : α → List (Nat × Byte)} {g : State → α → State} (l : List α) (s : State)
    (hg : ∀ x ∈ l, ∀ t, Zeroed (ws x) t (g t x)) : Zeroed (l.flatMap ws) s (l.foldl g s) := by
  induction l generalizing s with
  | nil => exact .refl s
  | cons x l ih =>
    exact (hg x List.mem_cons_self s).trans (ih (g s x) fun y hy => hg y (List.mem_cons_of_mem x hy))

/-! #### The duty registers of a device -/

theorem pwmReg_toNat {k : Nat} (hk : k < 16) : (pwmReg k).toNat = 8 + k := by
  rw [pwmReg, BitVec.toNat_add, BitVec.toNat_ofNat, BitVec.toNat_ofNat]
  omega

/-- A duty register is no broadcast register. -/
theorem pwmReg_ne_broadcast {k : Nat} (hk : k < 16) : pwmReg k ≠ 0x40#8 ∧ pwmReg k ≠ 0x41#8 := by
  have hreg := pwmReg_toNat hk
  constructor <;> intro h <;> rw [h, BitVec.toNat_ofNat] at hreg <;> omega

/-- One zero write of a duty register: no broadcast register is written, so no other register changes. -/
theorem zeroed_wrote (s : State) (d : Nat) {k : Nat} (hk : k < 16) :
    Zeroed [(d, pwmReg k)] s (s.wrote d (pwmReg k) 0x00#8) where
  par := rfl
  window := rfl
  engine := rfl
  rx := rfl
  hangIn := rfl
  latch := fun _ => (wrote_ready s d (pwmReg k) 0x00#8).2.2
  trace := by simp [State.wrote]
  chips := fun p a ha => by
    obtain ⟨hpwm, hiref⟩ := pwmReg_ne_broadcast hk
    have hmem : (p, BitVec.ofNat 8 a) ∈ [(d, pwmReg k)] ↔ (p, a) = (d, (pwmReg k).toNat) := by
      rw [List.mem_singleton, Prod.mk.injEq, Prod.mk.injEq, ← BitVec.toNat_inj, BitVec.toNat_ofNat,
        Nat.mod_eq_of_lt (by omega)]
    split
    · next hin =>
      obtain ⟨rfl, rfl⟩ := Prod.mk.inj (hmem.mp hin)
      exact chipReg_wrote_same (pwmReg_le k hk) s p 0x00#8
    · next hout =>
      exact chipReg_wrote_other (pwmReg_le k hk) ha (hout ∘ hmem.mpr)
        (fun _ => ⟨fun ⟨h, _⟩ => hpwm h, fun ⟨h, _⟩ => hiref h⟩) s 0x00#8

/-- The duty registers of the device at `d`, ascending. -/
def dutyRegs (d : Nat) : List (Nat × Byte) := (List.range 16).flatMap fun k => [(d, pwmReg k)]

/-- They are 0x08 to 0x17 (R183). -/
theorem mem_dutyRegs {d p a : Nat} (ha : a < 128) :
    (p, BitVec.ofNat 8 a) ∈ dutyRegs d ↔ p = d ∧ 0x08 ≤ a ∧ a ≤ 0x17 := by
  have hreg : ∀ k, k < 16 → (BitVec.ofNat 8 a = pwmReg k ↔ a = 8 + k) := fun k hk => by
    rw [← BitVec.toNat_inj, pwmReg_toNat hk, BitVec.toNat_ofNat, Nat.mod_eq_of_lt (by omega)]
  simp only [dutyRegs, List.mem_flatMap, List.mem_range, List.mem_singleton, Prod.mk.injEq]
  constructor
  · rintro ⟨k, hk, hp, hreg'⟩
    have := (hreg k hk).mp hreg'
    omega
  · rintro ⟨hp, hlo, hhi⟩
    exact ⟨a - 8, by omega, hp, (hreg (a - 8) (by omega)).mpr (by omega)⟩

/-- What the sixteen writes of one device leave. -/
def State.clearedDevice (s : State) (d : Nat) : State :=
  (List.range 16).foldl (fun t k => t.wrote d (0x08#8 + BitVec.ofNat 8 k) 0x00#8) s

theorem zeroed_clearedDevice (s : State) (d : Nat) : Zeroed (dutyRegs d) s (s.clearedDevice d) :=
  .foldl (List.range 16) s fun _ hk t => zeroed_wrote t d (List.mem_range.mp hk)

/-- The frames of the sixteen writes of one device. -/
theorem dutyRegs_frames (n d : Nat) : ((dutyRegs d).flatMap fun w => writeFrame n w.1 w.2 0x00#8) =
    (List.range 16).flatMap fun k => writeFrame n d (0x08#8 + BitVec.ofNat 8 k) 0x00#8 := by
  simp only [dutyRegs, List.flatMap_assoc, List.flatMap_singleton, pwmReg]

/-! #### The two commands -/

/-- What a command leaves whose operation was zero writes: their effects, and its end. -/
theorem Zeroed.endCommand {ws : List (Nat × Byte)} {s t : State} (h : Zeroed ws s t) :
    (t.endCommand .ok).env.trace = s.env.trace ++ (ws.flatMap fun w => writeFrame s.par.n w.1 w.2 0x00#8) ∧
      (t.endCommand .ok).window = { s.window with err := .ok, cmdValid := false } ∧
      (t.endCommand .ok).engine = s.engine ∧ (t.endCommand .ok).transport.rx = s.transport.rx ∧
      ∀ p a, a < 128 → chipReg (t.endCommand .ok) p a = if (p, BitVec.ofNat 8 a) ∈ ws then 0x00#8 else chipReg s p a :=
  ⟨h.trace, by rw [State.endCommand_window, h.window], h.engine, h.rx, h.chips⟩

/-- CLEAR_CH of a device of the chain, when every bus primitive completes (R195). -/
theorem exec_clearCh_free {s : State} {d : Byte} (hbus : BusCompletes s) (hl : s.env.latch.length = s.par.n)
    (hd : d.toNat < s.par.n) :
    exec (.clearCh d 0x00#8 0x00#8) s = .next ((s.clearedDevice d.toNat).endCommand .ok) := by
  have hbody : clearChBody d 0x00#8 0x00#8 s = .done .ok (s.clearedDevice d.toNat) := by
    simp [clearChBody, unused, devOk, hd, thenOk, clearDevice_free hbus hl hd, State.clearedDevice]
  rw [exec, execClearCh, hbody]
  rfl

/-- Settles O35: the state left is `clearedDevice`, whose sixteen writes are `Zeroed`. -/
theorem clearChannelZeroesOneDevice : Obligations.ClearChannelZeroesOneDevice := by
  intro s d hbus hshaped hd
  obtain ⟨htrace, hwindow, hengine, hrx, hchips⟩ := (zeroed_clearedDevice s d.toNat).endCommand
  rw [dutyRegs_frames] at htrace
  refine ⟨_, exec_clearCh_free hbus hshaped.latch hd, rfl, htrace, hwindow, hengine, hrx, fun a hlo hhi => ?_,
    fun p a ha hout => ?_⟩
  · rw [hchips d.toNat a (by omega), if_pos ((mem_dutyRegs (by omega)).mpr ⟨rfl, hlo, hhi⟩)]
  · rw [hchips p a ha, if_neg fun hmem => ?_]
    have := (mem_dutyRegs ha).mp hmem
    omega

/-- What clearing the first `n` devices, one by one, leaves. -/
def State.clearedChain (s : State) (n : Nat) : State := (List.range n).foldl State.clearedDevice s

theorem zeroed_clearedChain (s : State) (n : Nat) :
    Zeroed ((List.range n).flatMap dutyRegs) s (s.clearedChain n) :=
  .foldl (List.range n) s fun d _ t => zeroed_clearedDevice t d

/-- The loop over the devices, when every bus primitive completes: each device leaves what the next one asks for. -/
theorem clearDevices_free {s : State} (hbus : BusCompletes s) (hl : s.env.latch.length = s.par.n) :
    forEach (List.range s.par.n) clearDevice s = .done () (s.clearedChain s.par.n) :=
  (forEach_done (P := fun t => t.par = s.par ∧ BusCompletes t ∧ t.env.latch.length = t.par.n) _ s ⟨rfl, hbus, hl⟩
    fun d hd t ⟨hpar, ht, hlatch⟩ => by
      have hzero := zeroed_clearedDevice t d
      exact ⟨clearDevice_free ht hlatch (by rw [hpar]; exact List.mem_range.mp hd), hzero.par.trans hpar,
        hzero.hangIn.trans ht, (hzero.latch hlatch).trans (congrArg Params.n hzero.par.symm)⟩).1

/-- CLEAR_ALL, when every bus primitive completes (R197). -/
theorem exec_clearAll_free {s : State} (hbus : BusCompletes s) (hl : s.env.latch.length = s.par.n) :
    exec (.clearAll 0x00#8 0x00#8 0x00#8) s = .next ((s.clearedChain s.par.n).endCommand .ok) := by
  have hbody : clearAllBody 0x00#8 0x00#8 0x00#8 s = .done .ok (s.clearedChain s.par.n) := by
    simp [clearAllBody, unused, thenOk, clearDevices_free hbus hl]
  rw [exec, execClearAll, hbody]
  rfl

/-- The duty registers of the first `n` devices. -/
theorem mem_chainDutyRegs {n p a : Nat} (ha : a < 128) :
    (p, BitVec.ofNat 8 a) ∈ (List.range n).flatMap dutyRegs ↔ p < n ∧ 0x08 ≤ a ∧ a ≤ 0x17 := by
  simp [List.mem_flatMap, mem_dutyRegs ha]

/-- Settles O36: the state left is `clearedChain`, a fold of the writes of `clearedDevice`. -/
theorem clearAllZeroesTheChain : Obligations.ClearAllZeroesTheChain := by
  intro s hbus hshaped
  obtain ⟨htrace, hwindow, hengine, hrx, hchips⟩ := (zeroed_clearedChain s s.par.n).endCommand
  simp only [List.flatMap_assoc, dutyRegs_frames] at htrace
  refine ⟨_, exec_clearAll_free hbus hshaped.latch, rfl, htrace, hwindow, hengine, hrx, fun p a hp hlo hhi => ?_,
    fun p a ha hout => ?_⟩
  · rw [hchips p a (by omega), if_pos ((mem_chainDutyRegs (by omega)).mpr ⟨hp, hlo, hhi⟩)]
  · rw [hchips p a ha, if_neg fun hmem => ?_]
    have := (mem_chainDutyRegs ha).mp hmem
    omega

end Sys2Proof.Machine

/-! ### ENG_START, and what changes running (42_twinkle.md R220, R230) -/

namespace Sys2Proof.Machine

/-- ENG_START's check as the conditions of R230. -/
theorem startConfigOk_iff {s : State} : startConfigOk s = true ↔
    f32IsFinite s.window.cfgTick = true ∧ f32Lt f32Zero s.window.cfgTick = true ∧
      s.window.cfgSpawnK.toNat ≤ 1000 ∧ s.window.cfgSlots.toNat ≤ s.par.poolCap := by
  simp only [startConfigOk, Bool.and_eq_true, decide_eq_true_eq, and_assoc]
  rfl

/-- Settles O37: the two outcomes of the operation, by its check. -/
theorem startRunsTheEngineOrRefuses : Obligations.StartRunsTheEngineOrRefuses := by
  intro s
  rw [← startConfigOk_iff]
  refine ⟨fun hcfg => ?_, fun hcfg => ?_⟩ <;> rw [exec, execEngStart, engStartBody]
  · rw [hcfg]
    rfl
  · rw [Bool.eq_false_iff.mpr hcfg]
    rfl

/-! #### The loops of the engine keep what a write transaction and a store to the pool keep -/

theorem stopSlot_keeps {P Q : State → Prop} (hw : ∀ d r v, Keeps P Q (writeTxn d r v))
    (hstore : ∀ t j x, P t → P (t.setSlot j x)) (j : Nat) : Keeps P Q (stopSlot j) := fun t ht =>
  meets_check ((pushRGB_keeps hw _ _ _ _ _ t ht).andThen fun _ u hu => hstore u j _ hu) ht

theorem tickActiveSlot_keeps {P Q : State → Prop} (m : MathPair) (j : Nat) (x : Slot)
    (hw : ∀ d r v, Keeps P Q (writeTxn d r v)) (hstore : ∀ t x, P t → P (t.setSlot j x)) :
    Keeps P Q (tickActiveSlot m j x) := fun t ht =>
  (pushRGB_keeps hw _ _ _ _ _ t ht).andThen fun _ u hu =>
    meets_check ((pushRGB_keeps hw _ _ _ _ _ u hu).andThen fun _ v hv => hstore v _ hv) (hstore u _ hu)

/-- A round of the tick update stores to a slot only where it is active. -/
theorem tickSlot_keeps {P Q : State → Prop} (m : MathPair) (j : Nat) (hw : ∀ d r v, Keeps P Q (writeTxn d r v))
    (hstore : ∀ t, P t → (slotAt t j).active = true → ∀ u x, P u → P (u.setSlot j x)) :
    Keeps P Q (tickSlot m j) := fun t ht => by
  unfold tickSlot
  split
  · next hactive => exact tickActiveSlot_keeps m j _ hw (hstore t ht hactive) t ht
  · exact ht

/-- What only depends on the engine is kept by a write transaction, ended or hung. -/
theorem writeTxn_keeps_engine {P : Engine → Prop} (d : Nat) (r v : Byte) :
    Keeps (fun t => P t.engine) (fun t => P t.engine) (writeTxn d r v) := fun t ht =>
  Res.meets_of_state (P := fun t => P t.engine) ((writeTxn_busOnly d r v t).engine ▸ ht)

theorem readTxn_keeps_engine {P : Engine → Prop} (r : Byte) :
    Keeps (fun t => P t.engine) (fun t => P t.engine) (readTxn r) := fun t ht =>
  Res.meets_of_state (P := fun t => P t.engine) ((readTxn_busOnly r t).engine ▸ ht)

/-! #### Running -/

/-- The engine runs, or is stopped, as in `s`. -/
def RunningKept (s t : State) : Prop := t.engine.running = s.engine.running

theorem writeTxn_runningKept {s : State} (d : Nat) (r v : Byte) :
    Keeps (RunningKept s) (RunningKept s) (writeTxn d r v) :=
  writeTxn_keeps_engine (P := fun e => e.running = s.engine.running) d r v

theorem readTxn_runningKept {s : State} (r : Byte) : Keeps (RunningKept s) (RunningKept s) (readTxn r) :=
  readTxn_keeps_engine (P := fun e => e.running = s.engine.running) r

theorem spawnOnce_runningKept {s t : State} (m : MathPair) (h : RunningKept s t) : RunningKept s (spawnOnce m t) := by
  obtain ⟨-, -, -, -, hengine⟩ := spawnOnce_frame m t
  rw [RunningKept, hengine]
  exact h

theorem ChipsOnly.runningKept {s t : State} (h : ChipsOnly s t) : RunningKept s t := by
  obtain ⟨m, l, rfl, -, -⟩ := h
  rfl

/-- A command's body that may switch the engine `on` or off, and then ends OK. -/
def Switches (on : Bool) (s : State) (e : ErrorCode) (t : State) : Prop :=
  RunningKept s t ∨ (t.engine.running = on ∧ e = .ok)

theorem completeCommand_runningKept {op : Instr} {s : State} {r : Res ErrorCode}
    (h : r.Meets (fun _ => RunningKept s) (RunningKept s)) : RunningKept s (completeCommand op r) :=
  completeCommand_of_meets op h (fun _ _ ht => ht) fun _ ht => ht

theorem completeCommand_switches {op : Instr} {on : Bool} {s : State} {r : Res ErrorCode}
    (h : r.Meets (Switches on s) (RunningKept s)) :
    RunningKept s (completeCommand op r) ∨
      ((completeCommand op r).engine.running = on ∧ (completeCommand op r).window.err = .ok) :=
  completeCommand_of_meets (P := fun t => RunningKept s t ∨ (t.engine.running = on ∧ t.window.err = .ok)) op h
    (fun _ _ ht => ht) fun _ ht => .inl ht

/-- What an instruction may do to running (42_twinkle.md R220): ENG_START may set it and ENG_STOP clear it where they
end OK; else it is kept, whether the instruction ends or hangs. -/
theorem exec_running {i : Instr} {s t : State} (h : exec i s = .next t) : RunningKept s t ∨
    (t.engine.running = true ∧ t.window.err = .ok ∧ ∃ d a b, i = .engStart d a b) ∨
    (t.engine.running = false ∧ t.window.err = .ok ∧ ∃ d a b, i = .engStop d a b) := by
  have h0 : RunningKept s s := rfl
  have hw := writeTxn_runningKept (s := s)
  have hr := readTxn_runningKept (s := s)
  have hend : ∀ (_ : ErrorCode) t, RunningKept s t → RunningKept s t := fun _ _ ht => ht
  have hres : ∀ w t, RunningKept s t → RunningKept s (t.setResult w) := fun _ _ ht => ht
  cases i with
  | engStart dev a b =>
    cases h
    refine (completeCommand_switches (engStartBody_meets dev a b (R := Switches true s) (fun _ => .inl h0) fun _ =>
      .inr ⟨rfl, rfl⟩)).imp_right fun ⟨hon, hok⟩ => .inl ⟨hon, hok, dev, a, b, rfl⟩
  | engStop dev a b =>
    cases h
    refine (completeCommand_switches (engStopBody_meets dev a b (R := Switches false s) h0 (fun _ _ ht => .inl ht)
      (stopSlot_keeps hw fun _ _ _ ht => ht) fun _ _ _ => .inr ⟨rfl, rfl⟩)).imp_right fun ⟨hoff, hok⟩ =>
      .inr ⟨hoff, hok, dev, a, b, rfl⟩
  | nop dev a b => cases h; exact .inl (completeCommand_runningKept (nopBody_meets dev a b fun _ => h0))
  | write dev reg b val =>
    cases h; exact .inl (completeCommand_runningKept (writeBody_meets dev reg b val h0 hw hend))
  | read dev reg b => cases h; exact .inl (completeCommand_runningKept (readBody_meets dev reg b h0 hr hend))
  | setPw dev slot color duty =>
    cases h; exact .inl (completeCommand_runningKept (setPwBody_meets dev slot color duty h0 hw hend))
  | setGain dev slot color f =>
    cases h; exact .inl (completeCommand_runningKept (setGainBody_meets dev slot color f h0 hw hend hres))
  | clearCh dev a b => cases h; exact .inl (completeCommand_runningKept (clearChBody_meets dev a b h0 hw hend))
  | clearAll dev a b => cases h; exact .inl (completeCommand_runningKept (clearAllBody_meets dev a b h0 hw hend))
  | qTherm dev a b => cases h; exact .inl (completeCommand_runningKept (qThermBody_meets dev a b h0 hr hend hres))
  | qErr dev a b => cases h; exact .inl (completeCommand_runningKept (qErrBody_meets dev a b h0 hr hend hres))
  | reservedOp op dev a b => cases h; exact .inl (completeCommand_runningKept (r := .done .opcode s) h0)
  | tickUpdate =>
    cases h
    exact .inl (completeInternal_of_meets _ (tickBody_meets (P := RunningKept s) h0
      (fun j => tickSlot_keeps _ j hw fun _ _ _ _ _ hu => hu) fun _ => spawnOnce_runningKept _)
      (fun _ ht => ht) fun _ ht => ht)
  | spawn => cases h; exact .inl (spawnOnce_runningKept _ h0)
  | wireNop => cases h; exact .inl (chipIdle_chipsOnly _ s).runningKept
  | wireWr reg val => cases h; exact .inl (chipWrite_chipsOnly _ reg val s).runningKept
  | wireRd reg dummy => cases h; exact .inl (chipLatch_chipsOnly _ reg s).runningKept

/-- Settles O45: an instruction that has changed running has not kept it. -/
theorem onlyStartAndStopChangeRunning : Obligations.OnlyStartAndStopChangeRunning := by
  intro i s t h hchanged
  exact (exec_running h).resolve_left hchanged

end Sys2Proof.Machine

/-! ### The engine's loops when every bus primitive completes (42_twinkle.md R233, R240)

Between two rounds the state is one with `Round`; a round pushes the colors of one LED and stores to its slot. -/

namespace Sys2Proof.Machine

/-- Between two rounds of an engine's loop in an operation of `s`: sound, no primitive about to hang, and of the
parameters, the window, rx and the engine only the pool has changed. -/
structure Round (s t : State) : Prop where
  sound : Sound t
  par : t.par = s.par
  window : t.window = s.window
  rx : t.transport.rx = s.transport.rx
  engine : t.engine = { s.engine with slots := t.engine.slots }
  bus : BusCompletes t
  refChain : t.env.refChain = s.env.refChain

theorem Round.refl {s : State} (h : Sound s) (hbus : BusCompletes s) : Round s s :=
  ⟨h, rfl, rfl, rfl, rfl, hbus, rfl⟩

/-- An active slot of a sound pool has an LED of the chain (10_state.md R52). -/
theorem Sound.led {s : State} (h : Sound s) {j : Nat} (ha : (slotAt s j).active = true) :
    (slotAt s j).dev.toNat < s.par.n ∧ (slotAt s j).led.toNat < 5 :=
  ⟨(h.pool.slots j).dev ha, (h.pool.slots j).led ha⟩

theorem Sound.pushed {s : State} {d l : Nat} (h : Sound s) (hbus : BusCompletes s) (hd : d < s.par.n) (hl : l < 5)
    (r g b : Byte) : Sound (s.pushed d l r g b) := by
  have hkeeps : Keeps Sound Sound (pushRGB d l r g b) :=
    pushRGB_keeps (fun d r v t ht => Res.meets_of_state (ht.bus (writeTxn_keepsShape d r v t))) d l r g b
  have hmeets := hkeeps s h
  rw [pushRGB_free hbus h.shaped.latch hd hl] at hmeets
  exact hmeets

/-- A push to an LED of the chain leaves the pool alone. -/
theorem Round.pushed {s t : State} {d l : Nat} (h : Round s t) (hd : d < t.par.n) (hl : l < 5) (r g b : Byte) :
    Round s (t.pushed d l r g b) :=
  ⟨h.sound.pushed h.bus hd hl r g b, h.par, h.window, h.rx, h.engine, h.bus, h.refChain⟩

theorem Round.setSlot {s t : State} (h : Round s t) {j : Nat} {x : Slot} (hpool : PoolGood (t.setSlot j x)) :
    Round s (t.setSlot j x) :=
  ⟨h.sound.setSlot hpool, h.par, h.window, h.rx, by rw [State.setSlot_engine, h.engine], h.bus, h.refChain⟩

theorem Round.clearSlot {s t : State} (h : Round s t) (j : Nat) : Round s (t.setSlot j inactiveSlot) :=
  h.setSlot (h.sound.pool.clearSlot j)

/-- A round of ENG_STOP (42_twinkle.md R233). -/
theorem Round.stoppedSlot {s t : State} (h : Round s t) (j : Nat) : Round s (t.stoppedSlot j) := by
  unfold State.stoppedSlot
  split
  · next hactive =>
    obtain ⟨hd, hl⟩ := h.sound.led hactive
    exact (h.pushed hd hl 0#8 0#8 0#8).clearSlot j
  · exact h

/-- A round of TICK_UPDATE: the slot is advanced and stored, or, once dark, cleared (42_twinkle.md R240). -/
theorem Round.tickedSlot {s t : State} (m : MathPair) (h : Round s t) (j : Nat) : Round s (t.tickedSlot m j) := by
  unfold State.tickedSlot
  split
  · next hactive =>
    obtain ⟨hd, hl⟩ := h.sound.led hactive
    have hcolor : ∀ r g b, Round s (t.pushed (slotAt t j).dev.toNat (slotAt t j).led.toNat r g b) := h.pushed hd hl
    unfold State.ticked
    dsimp only
    split
    · exact ((hcolor _ _ _).pushed hd hl 0#8 0#8 0#8).clearSlot j
    · exact (hcolor _ _ _).setSlot ((hcolor _ _ _).sound.pool.advance hactive t.engine.actT)
  · exact h

/-! #### ENG_STOP (42_twinkle.md R233, R234) -/

/-- What ENG_STOP's loop leaves. -/
def State.stoppedPool (s : State) : State := (List.range s.par.poolCap).foldl State.stoppedSlot s

theorem stopLoop_free {s : State} (h : Sound s) (hbus : BusCompletes s) :
    forEach (List.range s.par.poolCap) stopSlot s = .done () s.stoppedPool ∧ Round s s.stoppedPool :=
  forEach_done (P := Round s) _ s (.refl h hbus) fun j _ _ ht =>
    ⟨stopSlot_free ht.bus ht.sound.shaped.latch ht.sound.led, ht.stoppedSlot j⟩

/-- No slot of the pool is left active. -/
theorem stoppedPool_inactive {s : State} (h : Sound s) (hbus : BusCompletes s) (j : Nat) :
    slotAt s.stoppedPool j = inactiveSlot := by
  obtain ⟨hloop, hround⟩ := stopLoop_free h hbus
  exact stopLoop_clears hloop hround.sound hround.par j

theorem exec_engStop_free {s : State} (h : Sound s) (hbus : BusCompletes s) :
    exec (.engStop 0x00#8 0x00#8 0x00#8) s = .next (s.stoppedPool.stopEngine.endCommand .ok) := by
  have hbody : engStopBody 0x00#8 0x00#8 0x00#8 s = .done .ok s.stoppedPool.stopEngine := by
    simp [engStopBody, unused, (stopLoop_free h hbus).1]
  rw [exec, execEngStop, hbody]
  rfl

/-- Settles O38: the rounds of the loop leave `stoppedPool`, and `Round` says what else they leave. -/
theorem stopClearsThePoolAndStops : Obligations.StopClearsThePoolAndStops := by
  intro s hinv hbus
  obtain ⟨hsound, -⟩ := inv_iff_sound.mp hinv
  obtain ⟨-, hround⟩ := stopLoop_free hsound hbus
  refine ⟨_, exec_engStop_free hsound hbus, rfl, stoppedPool_inactive hsound hbus, ?_, hround.rx, ?_⟩
  · rw [State.endCommand_engine, State.stopEngine_engine, hround.engine]
  · rw [State.endCommand_window, State.stopEngine_window, hround.window]

/-- The three duty registers of an LED. -/
def ledRegs (d l : Nat) : List (Nat × Byte) := [(d, dutyAddr l 0), (d, dutyAddr l 1), (d, dutyAddr l 2)]

theorem mem_ledRegs {d l c : Nat} (hc : c < 3) : (d, dutyAddr l c) ∈ ledRegs d l := by
  match c, hc with
  | 0, _ | 1, _ | 2, _ => simp [ledRegs]

/-- Black is zero in the LED's three duty registers. -/
theorem zeroed_pushed (s : State) (d : Nat) {l : Nat} (hl : l < 5) :
    Zeroed (ledRegs d l) s (s.pushed d l 0x00#8 0x00#8 0x00#8) := by
  have hwrite : ∀ t c, c < 3 → Zeroed [(d, dutyAddr l c)] t (t.wrote d (dutyAddr l c) 0x00#8) := fun t c hc => by
    rw [← pwmReg_chanOff l hl c (by omega) (.inl hc)]
    exact zeroed_wrote t d (by unfold chanOff; omega)
  exact ((hwrite s 0 (by omega)).trans (hwrite _ 1 (by omega))).trans (hwrite _ 2 (by omega))

/-- The duty registers of the LED of a slot hold zero. -/
def LedBlack (t : State) (x : Slot) : Prop :=
  ∀ c, c < 3 → chipReg t x.dev.toNat (dutyAddr x.led.toNat c).toNat = 0x00#8

theorem dutyAddr_range : ∀ l, l < 5 → ∀ c, c < 3 → 0x08#8 ≤ dutyAddr l c ∧ dutyAddr l c ≤ 0x27#8 := by decide

/-- The number of a duty address is that of a register of a chip. -/
theorem dutyAddr_toNat_lt {l c : Nat} (hl : l < 5) (hc : c < 3) : (dutyAddr l c).toNat < 128 :=
  lt_of_le_of_lt (dutyAddr_range l hl c hc).2 (by decide)

/-- What a chip register holds after a round of ENG_STOP: zero where it is of the LED made black, else what it held. -/
theorem chipReg_stoppedSlot {t : State} (h : Sound t) {j : Nat} (ha : (slotAt t j).active = true) {p a : Nat}
    (hlt : a < 128) : chipReg (t.stoppedSlot j) p a =
      if (p, BitVec.ofNat 8 a) ∈ ledRegs (slotAt t j).dev.toNat (slotAt t j).led.toNat then 0x00#8
      else chipReg t p a := by
  have hstore : ∀ u x, chipReg (State.setSlot u j x) p a = chipReg u p a := fun _ _ => rfl
  rw [State.stoppedSlot, if_pos ha, hstore]
  exact (zeroed_pushed t _ (h.led ha).2).chips p a hlt

/-- A round of ENG_STOP makes the LED of its own slot black. -/
theorem stoppedSlot_black {t : State} (h : Sound t) {j : Nat} (ha : (slotAt t j).active = true) :
    LedBlack (t.stoppedSlot j) (slotAt t j) := fun c hc => by
  rw [chipReg_stoppedSlot h ha (dutyAddr_toNat_lt (h.led ha).2 hc), BitVec.ofNat_toNat, BitVec.setWidth_eq,
    if_pos (mem_ledRegs hc)]

/-- A round of ENG_STOP leaves black what is black. -/
theorem LedBlack.stoppedSlot {t : State} {x : Slot} (hx : LedBlack t x) (hled : x.led.toNat < 5) (h : Sound t)
    (j : Nat) : LedBlack (t.stoppedSlot j) x := fun c hc => by
  by_cases ha : (slotAt t j).active = true
  · rw [chipReg_stoppedSlot h ha (dutyAddr_toNat_lt hled hc), hx c hc, ite_self]
  · rw [State.stoppedSlot, if_neg ha]
    exact hx c hc

/-- A round of ENG_STOP leaves the slots of the other rounds. -/
theorem slotAt_stoppedSlot_other (t : State) {i j : Nat} (hij : i ≠ j) : slotAt (t.stoppedSlot i) j = slotAt t j := by
  unfold State.stoppedSlot
  split
  · rw [slotAt_setSlot, if_neg fun h => hij h.1]
    rfl
  · rfl

/-- After the first `n` rounds the LEDs of the slots below `n` are black, and the slots from `n` on are untouched. -/
theorem stopRounds_black {s : State} (h : Sound s) (hbus : BusCompletes s) (n : Nat) :
    Round s ((List.range n).foldl State.stoppedSlot s) ∧
      (∀ j, n ≤ j → slotAt ((List.range n).foldl State.stoppedSlot s) j = slotAt s j) ∧
      ∀ j, j < n → (slotAt s j).active = true → LedBlack ((List.range n).foldl State.stoppedSlot s) (slotAt s j) := by
  induction n with
  | zero => exact ⟨.refl h hbus, fun _ _ => rfl, fun _ hj => absurd hj (Nat.not_lt_zero _)⟩
  | succ n ih =>
    obtain ⟨hround, huntouched, hblack⟩ := ih
    rw [List.range_succ, List.foldl_append, List.foldl_cons, List.foldl_nil]
    refine ⟨hround.stoppedSlot n, fun j hj => ?_, fun j hj ha => ?_⟩
    · rw [slotAt_stoppedSlot_other _ (by omega), huntouched j (by omega)]
    · obtain hlt | rfl := Nat.lt_succ_iff_lt_or_eq.mp hj
      · exact (hblack j hlt ha).stoppedSlot (h.led ha).2 hround.sound n
      · rw [← huntouched j le_rfl] at ha ⊢
        exact stoppedSlot_black hround.sound ha

/-- Settles O39: every active slot is of the pool, so a round has made its LED black; a READ on the reference chain
returns what the register holds. -/
theorem stopLeavesActiveLedsBlack : Obligations.StopLeavesActiveLedsBlack := by
  intro s hinv hbus
  obtain ⟨hsound, -⟩ := inv_iff_sound.mp hinv
  obtain ⟨hround, -, hblack⟩ := stopRounds_black hsound hbus s.par.poolCap
  refine ⟨_, exec_engStop_free hsound hbus, fun j c ha hc => ?_⟩
  obtain ⟨hd, hl⟩ := hsound.led ha
  obtain ⟨hlo, hhi⟩ := dutyAddr_range _ hl c hc
  obtain ⟨hplain, hreg⟩ := plainStorage_of_mem hlo hhi
  have hpool : j < s.par.poolCap := lt_of_lt_of_le (hsound.pool.inUse ha).1 hsound.slotsInUse
  have hzero : chipReg (s.stoppedPool.stopEngine.endCommand .ok) (slotAt s j).dev.toNat
      (dutyAddr (slotAt s j).led.toNat c).toNat = 0x00#8 := hblack j hpool ha c hc
  refine ⟨hzero, congrArg Slot.active (stoppedPool_inactive hsound hbus j), fun href => ?_⟩
  refine ⟨_, exec_read_free hround.bus hround.sound.shaped.rx hround.sound.shaped.latch hreg, ?_⟩
  refine (rxAt_hasRead_of_agrees (s := s.stoppedPool.stopEngine.endCommand .ok) hplain ?_
    (.inl (hround.refChain.trans href))).trans hzero
  rw [← hround.par] at hd
  exact hd

/-! #### TICK_UPDATE (42_twinkle.md R240) -/

/-- What TICK_UPDATE's loop leaves. -/
def State.tickedPool (m : MathPair) (s : State) : State :=
  (List.range s.engine.actS.toNat).foldl (fun u j => u.tickedSlot m j) (s.setTickPending false)

theorem tickLoop_free (m : MathPair) {s : State} (h : Sound s) (hbus : BusCompletes s) :
    forEach (List.range s.engine.actS.toNat) (tickSlot m) (s.setTickPending false) = .done () (s.tickedPool m) ∧
      Round (s.setTickPending false) (s.tickedPool m) :=
  forEach_done (P := Round (s.setTickPending false)) _ _ (.refl (h.setTickPending nofun) hbus) fun j _ _ ht =>
    ⟨tickSlot_free m ht.bus ht.sound.shaped.latch ht.sound.led, ht.tickedSlot m j⟩

/-- Settles O40: the rounds of the loop leave `tickedPool`, and the spawn touches neither the window nor the bus. -/
theorem tickAdvancesEverySlotThenSpawns : Obligations.TickAdvancesEverySlotThenSpawns := by
  intro s hinv hbus
  obtain ⟨hsound, -⟩ := inv_iff_sound.mp hinv
  obtain ⟨hloop, hround⟩ := tickLoop_free Config.math hsound hbus
  obtain ⟨-, hwindow, htransport, -, hengine⟩ := spawnOnce_frame Config.math (s.tickedPool Config.math)
  refine ⟨spawnOnce Config.math (s.tickedPool Config.math), ?_, rfl, hwindow.trans hround.window, ?_, ?_⟩
  · rw [exec, execTickUpdate, tickBody, hloop]
    rfl
  · rw [hengine, hround.engine]
    rfl
  · rw [htransport, hround.rx]
    rfl

/-- No slot that is inactive in `s` is active. -/
def NoneClaimed (s t : State) : Prop := ∀ i, (slotAt s i).active = false → (slotAt t i).active = false

/-- At most the slot `k` has been claimed. -/
def OneClaimed (s t : State) : Prop := ∃ k, ∀ i, i ≠ k → (slotAt s i).active = false → (slotAt t i).active = false

theorem NoneClaimed.one {s t : State} (h : NoneClaimed s t) : OneClaimed s t := ⟨0, fun i _ => h i⟩

theorem writeTxn_noneClaimed {s : State} (d : Nat) (r v : Byte) :
    Keeps (NoneClaimed s) (NoneClaimed s) (writeTxn d r v) :=
  writeTxn_keeps_engine
    (P := fun e => ∀ i, (slotAt s i).active = false → (e.slots.getD i inactiveSlot).active = false) d r v

/-- A round of the tick update claims no slot: it stores only to an active one. -/
theorem tickSlot_noneClaimed {s : State} (m : MathPair) (j : Nat) :
    Keeps (NoneClaimed s) (NoneClaimed s) (tickSlot m j) :=
  tickSlot_keeps m j writeTxn_noneClaimed fun t ht hactive u x hu i hi => by
    rw [slotAt_setSlot]
    split
    · next hji =>
      have := ht i hi
      rw [← hji.1, hactive] at this
      cases this
    · exact hu i hi

/-- A spawn claims at most one slot (42_twinkle.md R242). -/
theorem spawnOnce_oneClaimed {s t : State} (m : MathPair) (h : NoneClaimed s t) : OneClaimed s (spawnOnce m t) := by
  obtain ⟨_, ⟨_, _, _, _, rfl⟩, heq | ⟨j, x, -, -, heq⟩⟩ := spawnOnce_cases m t <;> rw [heq]
  · exact NoneClaimed.one h
  · refine ⟨j, fun i hij hi => ?_⟩
    rw [slotAt_setSlot, if_neg fun hji => hij hji.1.symm]
    exact h i hi

/-- Settles O41: the rounds claim no slot, ended or hung, and the spawn after them at most one. -/
theorem tickClaimsAtMostOneSlot : Obligations.TickClaimsAtMostOneSlot := by
  refine ⟨fun _ => rfl, ?_⟩
  rintro m s _ i j rfl hi hj hi' hj'
  have hloop := tickBody_meets (P := NoneClaimed s) (Q := NoneClaimed s) (m := m) (s := s) (fun _ h => h)
    (tickSlot_noneClaimed m) fun _ => spawnOnce_oneClaimed m
  obtain ⟨k, hk⟩ : OneClaimed s (completeInternal .tickUpdate (tickBody m s)) :=
    completeInternal_of_meets _ hloop (fun _ h => h) fun _ h => NoneClaimed.one h
  have only : ∀ l, (slotAt s l).active = false →
      (slotAt (completeInternal .tickUpdate (tickBody m s)) l).active = true → l = k := fun l hl hl' => by
    by_contra hne
    rw [hk l hne hl] at hl'
    cases hl'
  rw [only i hi hi', only j hj hj']

/-! #### SPAWN (42_twinkle.md R242) -/

/-- Some active slot in use has the LED. -/
theorem ledTaken_iff {s : State} {d l : Nat} : ledTaken s d l = true ↔
    ∃ j, j < s.engine.actS.toNat ∧ (slotAt s j).active = true ∧ (slotAt s j).dev.toNat = d ∧
      (slotAt s j).led.toNat = l := by
  constructor
  · intro h
    obtain ⟨x, hmem, hx⟩ := List.any_eq_true.mp h
    obtain ⟨j, hj, rfl⟩ := List.mem_take_iff_getElem.mp hmem
    simp only [Bool.and_eq_true, beq_iff_eq, and_assoc] at hx
    refine ⟨j, by omega, ?_⟩
    rw [slotAt, List.getD_eq_getElem _ _ (by omega)]
    exact hx
  · rintro ⟨j, hj, ha, hled⟩
    by_contra hfree
    exact ledTaken_spec (Bool.eq_false_iff.mpr hfree) hj ha hled

/-- The first slot in use that is not active is the one a spawn takes. -/
theorem freeSlot_eq_some {s : State} {j : Nat} (hlen : s.engine.actS.toNat ≤ s.engine.slots.length)
    (hj : j < s.engine.actS.toNat) (hfree : (slotAt s j).active = false)
    (hbefore : ∀ i, i < j → (slotAt s i).active = true) : freeSlot s = some j := by
  have hslot : ∀ i (hi : i < s.engine.slots.length), slotAt s i = s.engine.slots[i] := fun i hi =>
    List.getD_eq_getElem _ _ hi
  rw [hslot j (by omega)] at hfree
  refine List.findIdx?_eq_some_iff_getElem.mpr ⟨by rw [List.length_take]; omega, ?_, fun i hi => ?_⟩
  · rw [List.getElem_take, hfree]
    rfl
  · have hactive := hbefore i hi
    rw [hslot i (by omega)] at hactive
    rw [List.getElem_take, hactive]
    decide

theorem freeSlot_eq_none {s : State} (hall : ∀ j, j < s.engine.actS.toNat → (slotAt s j).active = true) :
    freeSlot s = none := by
  cases hfree : freeSlot s with
  | none => rfl
  | some j =>
    obtain ⟨hj, -, hinactive⟩ := freeSlot_spec hfree
    rw [hall j hj] at hinactive
    cases hinactive

/-- The test of tmax and scale (42_twinkle.md R242). -/
theorem spawnable_iff {x : Slot} : spawnable x = true ↔
    f32IsFinite x.tmax = true ∧ f32IsFinite x.scale = true ∧ f32Lt f32Zero x.scale = true := by
  simp only [spawnable, Bool.and_eq_true, and_assoc]

theorem spawnOnce_of_draw {m : MathPair} {s : State} (h : drawn spawnDen s < s.engine.actK.toNat) :
    spawnOnce m s = spawnPlace m (drawn s.par.n s.drew) (drawn ledSlots s.drew.drew) s.drew.drew.drew := if_pos h

theorem spawnPlace_of_taken {m : MathPair} {d l : Nat} {s : State} (h : ledTaken s d l = true) :
    spawnPlace m d l s = s := if_pos h

theorem spawnPlace_of_full {m : MathPair} {d l : Nat} {s : State} (h : freeSlot s = none) : spawnPlace m d l s = s := by
  unfold spawnPlace
  rw [h]
  exact ite_self _

theorem spawnPlace_of_free {m : MathPair} {d l j : Nat} {s : State} (hled : ledTaken s d l = false)
    (h : freeSlot s = some j) : spawnPlace m d l s = spawnClaim m j d l s := by
  simp only [spawnPlace, hled, h, Bool.false_eq_true, if_false]

/-- The claim, with the rates and the constants of the slot named (42_twinkle.md R225, R242). -/
theorem spawnClaim_eq (m : MathPair) (j d l : Nat) (s : State) {a0 a1 : F32}
    (hrates : (a0, a1) = drawnRates s.drew.drew.drew) :
    spawnClaim m j d l s =
      if f32IsFinite (peakTime m a0 a1) = true ∧ f32IsFinite (peakScale m a0 a1 (peakTime m a0 a1)) = true ∧
          f32Lt f32Zero (peakScale m a0 a1 (peakTime m a0 a1)) = true then
        s.drew.drew.drew.drewRates.setSlot j
          (spawnedSlot m d l (drawn 255 s) (drawn 255 s.drew) (drawn 255 s.drew.drew) (a0, a1))
      else s.drew.drew.drew.drewRates := by
  unfold spawnClaim
  dsimp only
  rw [← hrates]
  exact if_congr spawnable_iff rfl rfl

/-- Settles O42: the draws, the test of the LED and the search for a free slot decide the branch; the first two of
these see the engine of `s`, since a draw leaves it alone. -/
theorem spawnClaimsTheFirstFreeSlot : Obligations.SpawnClaimsTheFirstFreeSlot := by
  intro s hshaped hcap
  have hlen : s.engine.actS.toNat ≤ s.engine.slots.length := hshaped.slots ▸ hcap
  have hexec : exec .spawn s = .next (spawnOnce Config.math s) := rfl
  refine ⟨fun hdraw => congrArg _ (if_neg hdraw), ?_⟩
  rintro hdraw d l rfl rfl
  rw [hexec, spawnOnce_of_draw hdraw]
  refine ⟨fun htaken => ?_, fun hfull => ?_, ?_⟩
  · exact congrArg _ (spawnPlace_of_taken (s := s.drew.drew.drew) (ledTaken_iff.mpr htaken))
  · exact congrArg _ (spawnPlace_of_full (s := s.drew.drew.drew) (freeSlot_eq_none hfull))
  · rintro hled j hj hfree hbefore _ _ _ _ _ _ a0 a1 _ _ rfl rfl rfl rfl rfl rfl hrates rfl rfl
    have hled' : ledTaken s.drew.drew.drew (drawn s.par.n s.drew) (drawn ledSlots s.drew.drew) = false :=
      Bool.eq_false_iff.mpr fun h => hled (ledTaken_iff.mp h)
    rw [spawnPlace_of_free hled' (freeSlot_eq_some hlen hj hfree hbefore), spawnClaim_eq _ _ _ _ _ hrates]
    rfl

end Sys2Proof.Machine

/-! ### Binary32 rounding (00_scope.md R11)

The value of a pattern as a rational number, and what it means that an exact value is rounded once: the result has the
last place of the value's binade and is within half of it. From this follow the facts about rounding that are used,
that it keeps the order and that the error is small, without a look at how the result is computed. -/

namespace Sys2Proof.Machine

/-! #### Values -/

/-- The weight of the last place in the binade `j`, the subnormal one and the first normal one being 0. -/
def lastPlace (j : ℕ) : ℚ := 2 ^ ((j : ℤ) - 149)

theorem lastPlace_pos (j : ℕ) : 0 < lastPlace j := zpow_pos (by norm_num) _

theorem lastPlace_succ (j : ℕ) : lastPlace (j + 1) = 2 * lastPlace j := by
  rw [lastPlace, lastPlace, ← zpow_one_add₀ two_ne_zero]
  congr 1
  push_cast
  ring

theorem two_mul_lastPlace_le {i j : ℕ} (h : i < j) : 2 * lastPlace i ≤ lastPlace j := by
  rw [← lastPlace_succ]
  exact zpow_le_zpow_right₀ (by norm_num) (by omega)

/-- The value of a magnitude, infinity's being 2^128. -/
def magValue (k : ℕ) : ℚ :=
  if k < 8388608 then k * lastPlace 0 else ((k % 8388608 + 8388608 : ℕ) : ℚ) * lastPlace (k / 8388608 - 1)

/-- A magnitude with the last place of the binade `j`, up to and with the first of the next binade. -/
theorem magValue_parts {j q : ℕ} (hlow : j = 0 ∨ 8388608 ≤ q) (hhigh : q ≤ 16777216) :
    magValue (j * 8388608 + q) = q * lastPlace j := by
  obtain hsub | hnormal | rfl : q < 8388608 ∨ (8388608 ≤ q ∧ q < 16777216) ∨ q = 16777216 := by omega
  · obtain rfl : j = 0 := by omega
    rw [magValue, if_pos (by omega), Nat.zero_mul, Nat.zero_add]
  · rw [magValue, if_neg (by omega), show (j * 8388608 + q) % 8388608 + 8388608 = q by omega,
      show (j * 8388608 + q) / 8388608 - 1 = j by omega]
  · rw [magValue, if_neg (by omega), show (j * 8388608 + 16777216) % 8388608 + 8388608 = 8388608 by omega,
      show (j * 8388608 + 16777216) / 8388608 - 1 = j + 1 by omega, lastPlace_succ]
    push_cast
    ring

/-- Every magnitude is of a binade. -/
theorem exists_parts (k : ℕ) : ∃ j q, k = j * 8388608 + q ∧ (j = 0 ∨ 8388608 ≤ q) ∧ q < 16777216 := by
  obtain hsub | hnormal : k < 8388608 ∨ 8388608 ≤ k := by omega
  · exact ⟨0, k, by omega, .inl rfl, by omega⟩
  · exact ⟨k / 8388608 - 1, k % 8388608 + 8388608, by omega, .inr (by omega), by omega⟩

theorem magValue_strictMono : StrictMono magValue := strictMono_nat_of_lt_succ fun k => by
  obtain ⟨j, q, rfl, hlow, hhigh⟩ := exists_parts k
  rw [Nat.add_assoc, magValue_parts hlow hhigh.le, magValue_parts (by omega) (by omega)]
  have := lastPlace_pos j
  push_cast
  linarith

theorem magValue_zero : magValue 0 = 0 := by simp [magValue]

theorem magValue_nonneg (k : ℕ) : 0 ≤ magValue k := magValue_zero ▸ magValue_strictMono.monotone (Nat.zero_le k)

theorem f32Finite_iff {v : F32} : f32IsFinite v = true ↔ f32Mag v < 2139095040 := by simp [f32IsFinite]

/-- The absolute value of a value that is no NaN. -/
def f32Abs (v : F32) : ℚ := magValue (f32Mag v)

theorem f32Frac_eq (v : F32) : f32Frac v = f32Mag v % 8388608 := by
  rw [f32Frac, f32Mag]
  omega

/-- The significand and its weight, as the arithmetic computes with them. -/
theorem f32Abs_eq (v : F32) : f32Abs v = f32Sig v * 2 ^ f32Pow v := by
  obtain hsub | hnormal : f32Mag v < 8388608 ∨ 8388608 ≤ f32Mag v := by omega
  · have hexp : f32Exp v = 0 := by rw [f32Exp]; omega
    rw [f32Abs, magValue, if_pos hsub, f32Sig, if_pos hexp, f32Pow, if_pos hexp, f32Frac_eq, Nat.mod_eq_of_lt hsub]
    rfl
  · have hexp : f32Exp v ≠ 0 := by rw [f32Exp]; omega
    have hplace : ((f32Mag v / 8388608 - 1 : ℕ) : ℤ) - 149 = (f32Exp v : ℤ) - 150 := by rw [f32Exp]; omega
    rw [f32Abs, magValue, if_neg (by omega), f32Sig, if_neg hexp, f32Pow, if_neg hexp, f32Frac_eq, lastPlace, hplace]

theorem f32Abs_nonneg (v : F32) : 0 ≤ f32Abs v := magValue_nonneg _

theorem f32Abs_pos {v : F32} : 0 < f32Abs v ↔ f32Mag v ≠ 0 := by
  rw [f32Abs, ← magValue_zero, magValue_strictMono.lt_iff_lt, Nat.pos_iff_ne_zero]

/-- The value of a value that is no NaN. -/
def f32Val (v : F32) : ℚ := if f32Neg v then -f32Abs v else f32Abs v

theorem f32Val_eq (v : F32) : f32Val v = f32Int v * 2 ^ f32Pow v := by
  rw [f32Val, f32Int, f32Abs_eq]
  split
  · push_cast
    ring
  · push_cast
    ring

theorem f32Val_of_pos {v : F32} (h : f32Neg v = false) : f32Val v = f32Abs v := by simp [f32Val, h]

/-- The values are ordered as their places are. -/
theorem f32Val_le {a b : F32} (h : f32Key a ≤ f32Key b) : f32Val a ≤ f32Val b := by
  have ha := f32Abs_nonneg a
  have hb := f32Abs_nonneg b
  have hmag : ∀ c d : F32, f32Mag c ≤ f32Mag d → f32Abs c ≤ f32Abs d := fun _ _ => (magValue_strictMono.monotone ·)
  cases hna : f32Neg a <;> cases hnb : f32Neg b <;>
    simp only [f32Key, f32Val, hna, hnb, if_true, if_false, Bool.false_eq_true] at h ⊢
  · exact hmag a b (by omega)
  · have hzero : ∀ c : F32, f32Mag c = 0 → f32Abs c = 0 := fun c hc => by rw [f32Abs, hc, magValue_zero]
    rw [hzero a (by omega), hzero b (by omega), neg_zero]
  · linarith
  · exact neg_le_neg (hmag b a (by omega))

/-! #### Rounding -/

/-- `q` in the last place of the binade `j` is a nearest one to the exact value `x`, which is of that binade. -/
structure RoundsAt (j q : ℕ) (x : ℚ) : Prop where
  low : j = 0 ∨ 8388608 * lastPlace j ≤ x
  high : x < 16777216 * lastPlace j
  below : (2 * q - 1) * lastPlace j ≤ 2 * x
  above : 2 * x ≤ (2 * q + 1) * lastPlace j

theorem RoundsAt.le {j q : ℕ} {x : ℚ} (h : RoundsAt j q x) : q ≤ 16777216 := by
  by_contra hq
  have hq' : (16777217 : ℚ) ≤ q := by exact_mod_cast (by omega : 16777217 ≤ q)
  have := mul_le_mul_of_nonneg_right hq' (lastPlace_pos j).le
  linarith [h.below, h.high, lastPlace_pos j]

theorem RoundsAt.normal {j q : ℕ} {x : ℚ} (h : RoundsAt j q x) : j = 0 ∨ 8388608 ≤ q := by
  refine h.low.imp_right fun hlow => ?_
  by_contra hq
  have hq' : (q : ℚ) + 1 ≤ 8388608 := by exact_mod_cast (by omega : q + 1 ≤ 8388608)
  have := mul_le_mul_of_nonneg_right hq' (lastPlace_pos j).le
  linarith [h.above, lastPlace_pos j]

/-- The value of the result. -/
theorem RoundsAt.value {j q : ℕ} {x : ℚ} (h : RoundsAt j q x) : magValue (j * 8388608 + q) = q * lastPlace j :=
  magValue_parts h.normal h.le

/-- A larger exact value has no smaller result. -/
theorem RoundsAt.mono {j q j' q' : ℕ} {x x' : ℚ} (h : RoundsAt j q x) (h' : RoundsAt j' q' x') (hx : x < x') :
    j * 8388608 + q ≤ j' * 8388608 + q' := by
  have hq := h.le
  obtain hj | rfl | hj := Nat.lt_trichotomy j j'
  · have hq' := h'.normal
    omega
  · have hle : ((2 * q - 1) * lastPlace j : ℚ) < (2 * q' + 1) * lastPlace j := by linarith [h.below, h'.above]
    have hlt : (q : ℚ) < q' + 1 := by linarith [lt_of_mul_lt_mul_right hle (lastPlace_pos j).le]
    have : q < q' + 1 := by exact_mod_cast hlt
    omega
  · have hlow := h.low.resolve_left (by omega)
    linarith [h'.high, two_mul_lastPlace_le hj]

/-- The value of a magnitude is its own result. -/
theorem roundsAt_magValue (k : ℕ) : ∃ j q, k = j * 8388608 + q ∧ RoundsAt j q (magValue k) := by
  obtain ⟨j, q, rfl, hlow, hhigh⟩ := exists_parts k
  have hpos := lastPlace_pos j
  have hhigh' : (q : ℚ) < 16777216 := by exact_mod_cast hhigh
  rw [magValue_parts hlow hhigh.le]
  refine ⟨j, q, rfl, hlow.imp_right fun hq => ?_, mul_lt_mul_of_pos_right hhigh' hpos, by linarith, by linarith⟩
  have hq' : (8388608 : ℚ) ≤ q := by exact_mod_cast hq
  exact mul_le_mul_of_nonneg_right hq' hpos.le

theorem RoundsAt.le_of_lt {j q k : ℕ} {x : ℚ} (h : RoundsAt j q x) (hx : x < magValue k) : j * 8388608 + q ≤ k := by
  obtain ⟨_, _, hk, hround⟩ := roundsAt_magValue k
  have := h.mono hround hx
  omega

theorem RoundsAt.ge_of_gt {j q k : ℕ} {x : ℚ} (h : RoundsAt j q x) (hx : magValue k < x) : k ≤ j * 8388608 + q := by
  obtain ⟨_, _, hk, hround⟩ := roundsAt_magValue k
  have := hround.mono h hx
  omega

/-- The relative error of a normal result is at most 2^-24. -/
theorem RoundsAt.error {j q : ℕ} {x : ℚ} (h : RoundsAt j q x) (hx : 8388608 * lastPlace 0 ≤ x) :
    |magValue (j * 8388608 + q) - x| ≤ x * (1 / 16777216) := by
  have hlow : 8388608 * lastPlace j ≤ x := h.low.elim (fun hj => hj ▸ hx) id
  rw [h.value, abs_le]
  constructor <;> linarith [h.below, h.above]

/-! #### The rounding of the model -/

/-- A nearest integer of a quotient. -/
theorem rneDiv_spec {m d : ℕ} (hd : 0 < d) : 2 * (rneDiv m d * d) ≤ 2 * m + d ∧ 2 * m ≤ 2 * (rneDiv m d * d) + d := by
  have hdiv := Nat.div_add_mod m d
  have hmod := Nat.mod_lt m hd
  rw [Nat.mul_comm] at hdiv
  unfold rneDiv
  split
  · next hup =>
    rw [Nat.add_mul, Nat.one_mul]
    omega
  · next hdown => omega

/-- What the model's rounding of `m * 2 ^ e` computes: the last place `f32Ulp m e`, and how many of it. -/
def roundCount (m : ℕ) (e : ℤ) : ℕ :=
  if f32Ulp m e ≤ e then m * 2 ^ (e - f32Ulp m e).toNat else rneDiv m (2 ^ (f32Ulp m e - e).toNat)

theorem f32Round_eq (neg : Bool) {m : ℕ} (e : ℤ) (hm : m ≠ 0) :
    f32Round neg m e = f32Pack neg (min ((f32Ulp m e + 149).toNat * 8388608 + roundCount m e) 2139095040) :=
  if_neg hm

theorem f32Ulp_cases (m : ℕ) (e : ℤ) : e + (Nat.log2 m : ℤ) - 23 ≤ f32Ulp m e ∧ -149 ≤ f32Ulp m e ∧
    (f32Ulp m e = -149 ∨ f32Ulp m e = e + (Nat.log2 m : ℤ) - 23) := by
  unfold f32Ulp
  omega

theorem lastPlace_ulp (m : ℕ) (e : ℤ) : lastPlace (f32Ulp m e + 149).toNat = 2 ^ f32Ulp m e := by
  obtain ⟨-, hmin, -⟩ := f32Ulp_cases m e
  rw [lastPlace]
  congr 1
  omega

/-- The count is a nearest one. -/
theorem roundCount_spec (m : ℕ) (e : ℤ) : (2 * roundCount m e - 1) * (2 : ℚ) ^ f32Ulp m e ≤ 2 * (m * 2 ^ e) ∧
    2 * ((m : ℚ) * 2 ^ e) ≤ (2 * roundCount m e + 1) * 2 ^ f32Ulp m e := by
  have hpos : (0 : ℚ) < 2 ^ f32Ulp m e := zpow_pos (by norm_num) _
  unfold roundCount
  split
  · next hle =>
    obtain ⟨i, hi⟩ := Int.eq_ofNat_of_zero_le (sub_nonneg.mpr hle)
    have hexact : (m : ℚ) * 2 ^ e = (m * 2 ^ i : ℕ) * 2 ^ f32Ulp m e := by
      rw [show e = i + f32Ulp m e by omega, zpow_add₀ two_ne_zero, zpow_natCast]
      push_cast
      rw [← hi]
      ring_nf
    rw [hi, Int.toNat_natCast, hexact]
    constructor <;> linarith
  · next hgt =>
    obtain ⟨i, hi⟩ := Int.eq_ofNat_of_zero_le (sub_nonneg.mpr (not_le.mp hgt).le)
    have hplace : (2 : ℚ) ^ f32Ulp m e = 2 ^ i * 2 ^ e := by
      rw [show f32Ulp m e = i + e by omega, zpow_add₀ two_ne_zero, zpow_natCast]
    have he : (0 : ℚ) < 2 ^ e := zpow_pos (by norm_num) _
    obtain ⟨hbelow, habove⟩ := rneDiv_spec (m := m) (Nat.two_pow_pos i)
    rw [hi, Int.toNat_natCast, hplace]
    have hbelow' : (2 * (rneDiv m (2 ^ i) * 2 ^ i) : ℚ) ≤ 2 * m + 2 ^ i := by exact_mod_cast hbelow
    have habove' : (2 * m : ℚ) ≤ 2 * (rneDiv m (2 ^ i) * 2 ^ i) + 2 ^ i := by exact_mod_cast habove
    constructor
    · linarith [mul_le_mul_of_nonneg_right hbelow' he.le]
    · linarith [mul_le_mul_of_nonneg_right habove' he.le]

theorem roundCount_roundsAt {m : ℕ} (e : ℤ) (hm : m ≠ 0) :
    RoundsAt (f32Ulp m e + 149).toNat (roundCount m e) (m * 2 ^ e) := by
  obtain ⟨hulp, hmin, hcases⟩ := f32Ulp_cases m e
  obtain ⟨hbelow, habove⟩ := roundCount_spec m e
  have he : (0 : ℚ) < 2 ^ e := zpow_pos (by norm_num) _
  have hlog : (2 : ℚ) ^ Nat.log2 m ≤ m := by exact_mod_cast Nat.log2_self_le hm
  have hlog' : (m : ℚ) < 2 ^ (Nat.log2 m + 1) := by exact_mod_cast Nat.lt_log2_self
  constructor <;> rw [lastPlace_ulp]
  · refine hcases.imp (fun h => by omega) fun h => ?_
    calc (8388608 : ℚ) * 2 ^ f32Ulp m e = 2 ^ Nat.log2 m * 2 ^ e := by
          rw [h, show (8388608 : ℚ) = 2 ^ (23 : ℤ) by norm_num, ← zpow_natCast, ← zpow_add₀ two_ne_zero,
            ← zpow_add₀ two_ne_zero]
          congr 1
          omega
      _ ≤ m * 2 ^ e := mul_le_mul_of_nonneg_right hlog he.le
  · calc (m : ℚ) * 2 ^ e < 2 ^ (Nat.log2 m + 1) * 2 ^ e := mul_lt_mul_of_pos_right hlog' he
      _ = 2 ^ ((Nat.log2 m : ℤ) + 1 + e) := by
          rw [← zpow_natCast, ← zpow_add₀ two_ne_zero]
          norm_cast
      _ ≤ 2 ^ (24 + f32Ulp m e) := zpow_le_zpow_right₀ (by norm_num) (by omega)
      _ = 16777216 * 2 ^ f32Ulp m e := by
          rw [zpow_add₀ two_ne_zero]
          norm_num
  · exact hbelow
  · exact habove

/-- `v` is the exact value `x`, with a sign, rounded once. -/
def Rounded (neg : Bool) (x : ℚ) (v : F32) : Prop :=
  ∃ j q, v = f32Pack neg (min (j * 8388608 + q) 2139095040) ∧ RoundsAt j q x

theorem f32Round_rounded (neg : Bool) (m : ℕ) (e : ℤ) : Rounded neg (m * 2 ^ e) (f32Round neg m e) := by
  by_cases hm : m = 0
  · subst hm
    refine ⟨0, 0, rfl, .inl rfl, ?_, ?_, ?_⟩ <;> have := lastPlace_pos 0 <;> push_cast <;> linarith
  · exact ⟨_, _, f32Round_eq neg e hm, roundCount_roundsAt e hm⟩

theorem f32Pack_toNat (neg : Bool) {k : ℕ} (hk : k < 2147483648) :
    (f32Pack neg k).toNat = k + if neg then 2147483648 else 0 := by
  rw [f32Pack, BitVec.toNat_ofNat, Nat.mod_eq_of_lt]
  split <;> omega

theorem f32Mag_pack (neg : Bool) {k : ℕ} (hk : k < 2147483648) : f32Mag (f32Pack neg k) = k := by
  rw [f32Mag, f32Pack_toNat neg hk]
  split <;> omega

theorem f32Neg_pack (neg : Bool) {k : ℕ} (hk : k < 2147483648) : f32Neg (f32Pack neg k) = neg := by
  rw [f32Neg, f32Pack_toNat neg hk]
  cases neg <;> simp [hk]

theorem Rounded.neg {neg : Bool} {x : ℚ} {v : F32} (h : Rounded neg x v) : f32Neg v = neg := by
  obtain ⟨j, q, rfl, -⟩ := h
  exact f32Neg_pack neg (by omega)

theorem Rounded.mag {neg : Bool} {x : ℚ} {v : F32} (h : Rounded neg x v) :
    ∃ j q, f32Mag v = min (j * 8388608 + q) 2139095040 ∧ RoundsAt j q x := by
  obtain ⟨j, q, rfl, hround⟩ := h
  exact ⟨j, q, f32Mag_pack neg (by omega), hround⟩

theorem Rounded.not_nan {neg : Bool} {x : ℚ} {v : F32} (h : Rounded neg x v) : f32IsNaN v = false := by
  obtain ⟨j, q, hmag, -⟩ := h.mag
  rw [f32IsNaN, decide_eq_false_iff_not]
  omega

theorem Rounded.mag_le {neg : Bool} {x : ℚ} {v : F32} {k : ℕ} (h : Rounded neg x v) (hx : x < magValue k) :
    f32Mag v ≤ k := by
  obtain ⟨j, q, hmag, hround⟩ := h.mag
  have := hround.le_of_lt hx
  omega

theorem Rounded.le_mag {neg : Bool} {x : ℚ} {v : F32} {k : ℕ} (h : Rounded neg x v) (hk : k ≤ 2139095040)
    (hx : magValue k < x) : k ≤ f32Mag v := by
  obtain ⟨j, q, hmag, hround⟩ := h.mag
  have := hround.ge_of_gt hx
  omega

/-- The relative error of a finite normal result is at most 2^-24. -/
theorem Rounded.error {neg : Bool} {x : ℚ} {v : F32} (h : Rounded neg x v) (hv : f32IsFinite v = true)
    (hx : 8388608 * lastPlace 0 ≤ x) : |f32Abs v - x| ≤ x * (1 / 16777216) := by
  obtain ⟨j, q, hmag, hround⟩ := h.mag
  have hfinite := f32Finite_iff.mp hv
  rw [f32Abs, show f32Mag v = j * 8388608 + q by omega]
  exact hround.error hx

/-- Where a value overflows a larger one overflows, to the same infinity. -/
theorem Rounded.eq_of_overflow {neg : Bool} {x x' : ℚ} {v v' : F32} (h : Rounded neg x v) (h' : Rounded neg x' v')
    (hx : x < x') (hv : f32IsFinite v = false) : v = v' := by
  obtain ⟨j, q, rfl, hround⟩ := h
  obtain ⟨j', q', rfl, hround'⟩ := h'
  rw [f32IsFinite, f32Mag_pack neg (by omega), decide_eq_false_iff_not] at hv
  have := hround.mono hround' hx
  rw [show min (j * 8388608 + q) 2139095040 = min (j' * 8388608 + q') 2139095040 by omega]

/-! #### Product, quotient and sum of finite values -/

/-- A finite value is neither a NaN nor an infinity. -/
theorem f32IsNaN_of_finite {v : F32} (h : f32IsFinite v = true) : f32IsNaN v = false ∧ f32IsInf v = false := by
  rw [f32Finite_iff] at h
  simp only [f32IsNaN, f32IsInf, decide_eq_false_iff_not, beq_eq_false_iff_ne]
  omega

theorem f32IsZero_iff {v : F32} : f32IsZero v = true ↔ f32Mag v = 0 := by simp [f32IsZero]

/-- A product of finite values is the exact product rounded once. -/
theorem f32Mul_rounded {a b : F32} (ha : f32IsFinite a = true) (hb : f32IsFinite b = true) :
    Rounded (f32Neg a != f32Neg b) (f32Abs a * f32Abs b) (f32Mul a b) := by
  obtain ⟨hna, hia⟩ := f32IsNaN_of_finite ha
  obtain ⟨hnb, hib⟩ := f32IsNaN_of_finite hb
  have hexact : f32Abs a * f32Abs b = ((f32Sig a * f32Sig b : ℕ) : ℚ) * 2 ^ (f32Pow a + f32Pow b) := by
    rw [f32Abs_eq, f32Abs_eq, zpow_add₀ two_ne_zero]
    push_cast
    ring
  rw [hexact]
  simp only [f32Mul, hna, hia, hnb, hib, Bool.or_self, Bool.false_eq_true, if_false]
  exact f32Round_rounded _ _ _

/-- A value in units of a lower power of two. -/
theorem f32Val_aligned {v : F32} {e : ℤ} (he : e ≤ f32Pow v) :
    f32Val v = (f32Int v * 2 ^ (f32Pow v - e).toNat : ℤ) * 2 ^ e := by
  obtain ⟨i, hi⟩ := Int.eq_ofNat_of_zero_le (sub_nonneg.mpr he)
  rw [f32Val_eq, hi, Int.toNat_natCast, show f32Pow v = i + e by omega, zpow_add₀ two_ne_zero, zpow_natCast]
  push_cast
  ring

/-- A sum of finite values is the exact sum rounded once; one that is not 0 has its sign. -/
theorem f32Add_rounded {a b : F32} (ha : f32IsFinite a = true) (hb : f32IsFinite b = true) :
    ∃ neg, Rounded neg |f32Val a + f32Val b| (f32Add a b) ∧ (0 < f32Val a + f32Val b → neg = false) ∧
      (f32Val a + f32Val b < 0 → neg = true) := by
  obtain ⟨hna, hia⟩ := f32IsNaN_of_finite ha
  obtain ⟨hnb, hib⟩ := f32IsNaN_of_finite hb
  simp only [f32Add, hna, hia, hnb, hib, Bool.or_self, Bool.false_eq_true, if_false]
  generalize he : min (f32Pow a) (f32Pow b) = e
  have hsum : f32Val a + f32Val b =
      ((f32Int a * 2 ^ (f32Pow a - e).toNat + f32Int b * 2 ^ (f32Pow b - e).toNat : ℤ) : ℚ) * 2 ^ e := by
    rw [f32Val_aligned (v := a) (e := e) (by omega), f32Val_aligned (v := b) (e := e) (by omega), Int.cast_add,
      add_mul]
  generalize f32Int a * 2 ^ (f32Pow a - e).toNat + f32Int b * 2 ^ (f32Pow b - e).toNat = x at hsum
  have hpos : (0 : ℚ) < 2 ^ e := zpow_pos (by norm_num) _
  have habs : |f32Val a + f32Val b| = (x.natAbs : ℚ) * 2 ^ e := by
    rw [hsum, abs_mul, abs_of_pos hpos, Nat.cast_natAbs, Int.cast_abs]
  refine ⟨_, habs ▸ f32Round_rounded _ _ _, fun h => ?_, fun h => ?_⟩ <;> rw [hsum] at h
  · have hx : 0 < x := by exact_mod_cast pos_of_mul_pos_left h hpos.le
    rw [if_neg hx.ne', decide_eq_false (by omega)]
  · have hx : x < 0 := by exact_mod_cast neg_of_mul_neg_left h hpos.le
    rw [if_neg hx.ne, decide_eq_true hx]

/-! A quotient is computed to 50 places with one more that says whether anything was left over. That the one rounding
then sees the exact quotient: an even number is on the same side of both. -/

/-- Twice the integer part of `n / d`, and one more where something is left over. -/
def stickyQuotient (n d : ℕ) : ℕ := 2 * (n / d) + if n % d = 0 then 0 else 1

/-- An even number not above the one is not above the other. -/
theorem even_le_sticky_iff {n d : ℕ} (hd : 0 < d) {c : ℤ} :
    2 * c ≤ (stickyQuotient n d : ℤ) ↔ (2 * c : ℚ) ≤ 2 * (n / d) := by
  have hd' : (0 : ℚ) < d := by exact_mod_cast hd
  calc 2 * c ≤ (stickyQuotient n d : ℤ) ↔ c ≤ (n / d : ℕ) := by unfold stickyQuotient; split <;> omega
    _ ↔ c * d ≤ n := by rw [Int.natCast_div, Int.le_ediv_iff_mul_le (by omega)]
    _ ↔ (c : ℚ) ≤ n / d := by rw [le_div_iff₀ hd']; exact_mod_cast Iff.rfl
    _ ↔ (2 * c : ℚ) ≤ 2 * (n / d) := (mul_le_mul_iff_right₀ two_pos).symm

/-- An even number not below the one is not below the other. -/
theorem sticky_le_even {n d : ℕ} (hd : 0 < d) {c : ℤ} (h : (stickyQuotient n d : ℤ) ≤ 2 * c) :
    (2 * (n / d) : ℚ) ≤ 2 * c := by
  have hd' : (0 : ℚ) < d := by exact_mod_cast hd
  obtain hlt | heq := lt_or_eq_of_le h
  · exact (lt_of_not_ge fun hle => not_le.mpr hlt ((even_le_sticky_iff hd).mpr hle)).le
  · have hexact : n % d = 0 ∧ c = (n / d : ℕ) := by
      unfold stickyQuotient at heq
      split at heq <;> omega
    have hn : n = c * d := by
      have hdiv := Nat.div_add_mod n d
      rw [hexact.1, Nat.add_zero, Nat.mul_comm] at hdiv
      rw [hexact.2]
      exact_mod_cast hdiv.symm
    have hn' : (n : ℚ) = c * d := by exact_mod_cast hn
    rw [hn', mul_div_cancel_right₀ _ hd'.ne']

/-- Where the last place is at least four units of the sticky quotient, that and the exact quotient round alike: the
bounds of the binade and the middles between two results are even. -/
theorem RoundsAt.of_sticky {j q n d : ℕ} {N : ℤ} {w : ℚ} (h : RoundsAt j q (stickyQuotient n d * w)) (hd : 0 < d)
    (hw : 0 < w) (hplace : lastPlace j = 4 * N * w) : RoundsAt j q (2 * (n / d) * w) := by
  have hlower : ∀ c : ℤ, (2 * c : ℚ) * w ≤ stickyQuotient n d * w ↔ (2 * c : ℚ) * w ≤ 2 * (n / d) * w := fun c => by
    rw [mul_le_mul_iff_left₀ hw, mul_le_mul_iff_left₀ hw, ← even_le_sticky_iff hd]
    exact_mod_cast Iff.rfl
  have hupper : ∀ c : ℤ, stickyQuotient n d * w ≤ (2 * c : ℚ) * w → 2 * (n / d) * w ≤ (2 * c : ℚ) * w := fun c hc =>
    mul_le_mul_of_nonneg_right (sticky_le_even hd (by exact_mod_cast le_of_mul_le_mul_right hc hw)) hw.le
  obtain ⟨hlow, hhigh, hbelow, habove⟩ := h
  rw [hplace] at hlow hhigh hbelow habove
  constructor <;> rw [hplace]
  · refine hlow.imp_right fun hlow => ?_
    have := (hlower (16777216 * N)).mp (by push_cast; linarith)
    push_cast at this
    linarith
  · have := not_imp_not.mpr (hlower (33554432 * N)).mpr (by push_cast; linarith)
    push_cast at this
    linarith
  · have := (hlower ((2 * q - 1) * N)).mp (by push_cast; linarith)
    push_cast at this
    linarith
  · have := hupper ((2 * q + 1) * N) (by push_cast; linarith)
    push_cast at this
    linarith

/-- A quotient of enough places is rounded as the exact one. -/
theorem stickyQuotient_rounded (neg : Bool) {n d : ℕ} (e : ℤ) (hd : 0 < d) (hn : 2 ^ 25 * d ≤ n) :
    Rounded neg (2 * (n / d) * 2 ^ e) (f32Round neg (stickyQuotient n d) e) := by
  have hquot : 2 ^ 25 ≤ n / d := (Nat.le_div_iff_mul_le hd).mpr hn
  have hsticky : 2 ^ 25 ≤ stickyQuotient n d := by
    unfold stickyQuotient
    omega
  have hm : stickyQuotient n d ≠ 0 := by omega
  have hlog := (Nat.le_log2 hm).mpr hsticky
  obtain ⟨hulp, -⟩ := f32Ulp_cases (stickyQuotient n d) e
  obtain ⟨i, hi⟩ : ∃ i : ℕ, f32Ulp (stickyQuotient n d) e = 2 + i + e :=
    ⟨(f32Ulp (stickyQuotient n d) e - e - 2).toNat, by omega⟩
  refine ⟨_, _, f32Round_eq _ _ hm,
    (roundCount_roundsAt _ hm).of_sticky (N := 2 ^ i) hd (zpow_pos (by norm_num) _) ?_⟩
  rw [lastPlace_ulp, hi, zpow_add₀ two_ne_zero, zpow_add₀ two_ne_zero]
  norm_num

theorem f32Sig_lt (v : F32) : f32Sig v < 16777216 := by
  have : f32Frac v < 8388608 := Nat.mod_lt _ (by omega)
  unfold f32Sig
  split <;> omega

theorem f32Sig_eq_zero {v : F32} : f32Sig v = 0 ↔ f32Mag v = 0 := by
  rw [f32Sig, f32Frac_eq, f32Exp]
  split <;> omega

/-- A quotient of finite values that are not 0 is the exact quotient rounded once. -/
theorem f32Div_rounded {a b : F32} (ha : f32IsFinite a = true) (hb : f32IsFinite b = true) (ha0 : f32Mag a ≠ 0)
    (hb0 : f32Mag b ≠ 0) : Rounded (f32Neg a != f32Neg b) (f32Abs a / f32Abs b) (f32Div a b) := by
  obtain ⟨hna, hia⟩ := f32IsNaN_of_finite ha
  obtain ⟨hnb, hib⟩ := f32IsNaN_of_finite hb
  have hzb : f32IsZero b = false := Bool.eq_false_iff.mpr (hb0 ∘ f32IsZero_iff.mp)
  have hsa : 0 < f32Sig a := Nat.pos_of_ne_zero (ha0 ∘ f32Sig_eq_zero.mp)
  have hsb : 0 < f32Sig b := Nat.pos_of_ne_zero (hb0 ∘ f32Sig_eq_zero.mp)
  have hplaces : 2 ^ 25 * f32Sig b ≤ f32Sig a * 2 ^ 50 := by
    have := f32Sig_lt b
    omega
  have hexact : f32Abs a / f32Abs b =
      2 * ((f32Sig a * 2 ^ 50 : ℕ) / f32Sig b) * (2 : ℚ) ^ (f32Pow a - f32Pow b - 51) := by
    rw [f32Abs_eq, f32Abs_eq, zpow_sub₀ two_ne_zero, zpow_sub₀ two_ne_zero]
    push_cast
    field_simp
    norm_num
  have hdiv : f32Div a b = f32Round (f32Neg a != f32Neg b) (stickyQuotient (f32Sig a * 2 ^ 50) (f32Sig b))
      (f32Pow a - f32Pow b - 51) := by
    simp only [f32Div, hna, hia, hnb, hib, hzb, Bool.or_self, Bool.false_eq_true, if_false]
    rfl
  rw [hdiv, hexact]
  exact stickyQuotient_rounded _ _ hsb hplaces

/-! #### Signs, and operands of a finite result -/

theorem f32Mag_flip (v : F32) : f32Mag (f32Flip v) = f32Mag v := by
  have hlow : ∀ x : F32, f32Mag x = (x.setWidth 31).toNat := fun x => by rw [f32Mag, BitVec.toNat_setWidth]
  rw [hlow, hlow, f32Flip, BitVec.setWidth_xor]
  congr 1
  exact BitVec.xor_zero

theorem f32Neg_flip (v : F32) : f32Neg (f32Flip v) = !f32Neg v := by
  have hsign : ∀ x : F32, f32Neg x = x.msb := fun x => (BitVec.msb_eq_decide x).symm
  rw [hsign, hsign, f32Flip, BitVec.msb_xor]
  exact Bool.xor_true _

theorem f32IsFinite_flip (v : F32) : f32IsFinite (f32Flip v) = f32IsFinite v := by
  rw [f32IsFinite, f32IsFinite, f32Mag_flip]

theorem f32Val_flip (v : F32) : f32Val (f32Flip v) = -f32Val v := by
  rw [f32Val, f32Val, f32Neg_flip, f32Abs, f32Abs, f32Mag_flip]
  cases f32Neg v <;> simp

/-- A value with a place above that of 0 is positive. -/
theorem f32Pos_of_lt {v : F32} (h : f32Lt f32Zero v = true) : f32Neg v = false ∧ f32Mag v ≠ 0 := by
  obtain ⟨-, -, hkey⟩ := f32Lt_iff.mp h
  have hzero : f32Key f32Zero = 0 := rfl
  rw [hzero, f32Key] at hkey
  split at hkey
  · omega
  · next hneg => exact ⟨by simpa using hneg, by omega⟩

/-- Two values without a sign are ordered as their magnitudes are. -/
theorem f32Le_of_mag {a b : F32} (ha : f32Neg a = false) (hb : f32Neg b = false) (h : f32Mag a ≤ f32Mag b)
    (hfin : f32IsFinite b = true) : f32Le a b = true := by
  rw [f32Finite_iff] at hfin
  have hnum : ∀ v : F32, f32Mag v < 2139095040 → f32IsNaN v = false := fun v hv =>
    (f32IsNaN_of_finite (f32Finite_iff.mpr hv)).1
  refine f32Le_iff.mpr ⟨hnum a (by omega), hnum b hfin, ?_⟩
  simp only [f32Key, ha, hb, if_false, Bool.false_eq_true]
  omega

/-- The operands of a finite sum are finite. -/
theorem finite_of_f32Add {a b : F32} (h : f32IsFinite (f32Add a b) = true) :
    f32IsFinite a = true ∧ f32IsFinite b = true := by
  have ha : f32IsFinite a = true := by
    by_contra hna
    rw [f32Add_not_finite b (Bool.eq_false_iff.mpr hna)] at h
    cases h
  refine ⟨ha, ?_⟩
  obtain ⟨hnum, hinf⟩ := f32IsNaN_of_finite ha
  by_contra hb
  cases hnan : f32IsNaN b with
  | true => simp [f32Add, hnan, f32NaN_not_finite] at h
  | false =>
    have hinfb := (nan_or_inf_of_not_finite (Bool.eq_false_iff.mpr hb)).resolve_left (by simp [hnan])
    simp [f32Add, hnum, hinf, hinfb, hnan, hb] at h

theorem f32Inf_not_finite (neg : Bool) : f32IsFinite (f32Inf neg) = false := by
  cases neg <;> decide

/-- A finite quotient has the sign of its operands, and it is 0 unless they are finite and the divisor is not 0. -/
theorem f32Div_finite {a b : F32} (h : f32IsFinite (f32Div a b) = true) :
    f32Neg (f32Div a b) = (f32Neg a != f32Neg b) ∧
      (f32Mag (f32Div a b) ≠ 0 → f32IsFinite a = true ∧ f32IsFinite b = true ∧ f32Mag b ≠ 0) := by
  unfold f32Div at h ⊢
  dsimp only at h ⊢
  generalize (2 * (f32Sig a * 2 ^ 50 / f32Sig b) + if f32Sig a * 2 ^ 50 % f32Sig b = 0 then 0 else 1) = q at h ⊢
  split_ifs at h ⊢ with hnan hinfa hinfb hinfb hzb hza
  · simp [f32NaN_not_finite] at h
  · simp [f32NaN_not_finite] at h
  · simp [f32Inf_not_finite] at h
  · exact ⟨f32Neg_pack _ (by omega), fun hmag => absurd (f32Mag_pack _ (by omega)) hmag⟩
  · simp [f32NaN_not_finite] at h
  · simp [f32Inf_not_finite] at h
  · have hfinite : ∀ v, f32IsNaN v = false → ¬f32IsInf v = true → f32IsFinite v = true := fun v hnum hinf => by
      by_contra hv
      exact (nan_or_inf_of_not_finite (Bool.eq_false_iff.mpr hv)).elim (by simp [hnum]) hinf
    simp only [Bool.or_eq_true, not_or, Bool.not_eq_true] at hnan
    exact ⟨(f32Round_rounded _ _ _).neg, fun _ =>
      ⟨hfinite a hnan.1 hinfa, hfinite b hnan.2 hinfb, fun hmag => hzb (f32IsZero_iff.mpr hmag)⟩⟩

end Sys2Proof.Machine

/-! ### The envelope's peak (42_twinkle.md R224, R225, R244) -/

namespace Sys2Proof.Machine

theorem f32One_value : f32Mag f32One = 1065353216 ∧ f32Abs f32One = 1 := by
  have hmag : f32Mag f32One = 1065353216 := by decide
  refine ⟨hmag, ?_⟩
  rw [f32Abs, hmag]
  norm_num [magValue, lastPlace]

theorem f32One_val : f32Val f32One = 1 := (f32Val_of_pos (by decide)).trans f32One_value.2

theorem f32Zero_val : f32Val f32Zero = 0 := (f32Val_of_pos (by decide)).trans magValue_zero

/-! #### A value times its inverse -/

/-- The relative error of an inverse is that of its product. -/
theorem mul_inverse_error {e x δ : ℚ} (he : 0 < e) (h : |x - 1 / e| ≤ 1 / e * δ) : |e * x - 1| ≤ δ := by
  have hone : e * (1 / e) = 1 := mul_one_div_cancel he.ne'
  calc |e * x - 1| = e * |x - 1 / e| := by rw [← abs_of_pos he, ← abs_mul, abs_of_pos he, mul_sub, hone]
    _ ≤ e * (1 / e * δ) := mul_le_mul_of_nonneg_left h he.le
    _ = δ := by rw [← mul_assoc, hone, one_mul]

/-- The inverse of a value of at most 2 is normal, so its relative error is at most 2^-24. -/
theorem f32Inverse_error {e : F32} (hfin : f32IsFinite e = true) (he0 : f32Mag e ≠ 0) (he : f32Abs e ≤ 2)
    (hinv : f32IsFinite (f32Div f32One e) = true) :
    |f32Abs e * f32Abs (f32Div f32One e) - 1| ≤ 1 / 16777216 := by
  have hpos := f32Abs_pos.mpr he0
  have hdiv := f32Div_rounded (a := f32One) (by decide) hfin (by decide) he0
  rw [f32One_value.2] at hdiv
  have hhalf : (1 / 2 : ℚ) ≤ 1 / f32Abs e := one_div_le_one_div_of_le hpos he
  have hnormal : 8388608 * lastPlace 0 ≤ 1 / 2 := by norm_num [lastPlace]
  refine mul_inverse_error hpos ?_
  exact hdiv.error hinv (hnormal.trans hhalf)

/-- The magnitudes 2^-22 below and above that of 1.0. -/
theorem nearOne_values : magValue 1065353212 = 1 - 1 / 4194304 ∧ magValue 1065353218 = 1 + 1 / 4194304 := by
  norm_num [magValue, lastPlace]

/-- The product of a positive value of at most 2 and its inverse is within 2^-22 of 1.0: the exact product is within
2^-24, and rounding it stays in the range. -/
theorem mul_inverse_near_one {e : F32} (hfin : f32IsFinite e = true) (hpos : f32Neg e = false) (he0 : f32Mag e ≠ 0)
    (he : f32Abs e ≤ 2) (hinv : f32IsFinite (f32Div f32One e) = true) :
    f32Le 0x3F7FFFFC#32 (f32Mul e (f32Div f32One e)) = true ∧
      f32Le (f32Mul e (f32Div f32One e)) 0x3F800002#32 = true := by
  obtain ⟨hlo, hhi⟩ := abs_le.mp (f32Inverse_error hfin he0 he hinv)
  obtain ⟨hbelow, habove⟩ := nearOne_values
  have hmul := f32Mul_rounded hfin hinv
  have hlow : 1065353212 ≤ f32Mag (f32Mul e (f32Div f32One e)) := hmul.le_mag (by omega) (by linarith)
  have hhigh : f32Mag (f32Mul e (f32Div f32One e)) ≤ 1065353218 := hmul.mag_le (by linarith)
  have hneg : f32Neg (f32Mul e (f32Div f32One e)) = false := by
    rw [hmul.neg, (f32Div_finite hinv).1, hpos]
    rfl
  exact ⟨f32Le_of_mag (by decide) hneg hlow (f32Finite_iff.mpr (by omega)),
    f32Le_of_mag hneg (by decide) hhigh (by decide)⟩

/-! #### The rates, the peak time and the envelope there -/

/-- The rates of a slot are finite and positive, the first the smaller one. -/
theorem rates_abs {a0 a1 : F32} (h0 : f32Lt f32Zero a0 = true) (h01 : f32Lt a0 a1 = true)
    (hfin : f32IsFinite a1 = true) : f32IsFinite a0 = true ∧ f32Neg a0 = false ∧ f32Neg a1 = false ∧
      0 < f32Abs a0 ∧ f32Abs a0 < f32Abs a1 := by
  obtain ⟨hneg0, hmag0⟩ := f32Pos_of_lt h0
  obtain ⟨hneg1, -⟩ := f32Pos_of_lt (f32Lt_of_lt_of_le h0 (f32Le_of_lt h01))
  obtain ⟨-, -, hkey⟩ := f32Lt_iff.mp h01
  simp only [f32Key, hneg0, hneg1, Bool.false_eq_true, if_false] at hkey
  have hmag : f32Mag a0 < f32Mag a1 := by omega
  rw [f32Finite_iff] at hfin
  exact ⟨f32Finite_iff.mpr (by omega), hneg0, hneg1, f32Abs_pos.mpr hmag0, magValue_strictMono hmag⟩

/-- The quotient of the rates is at least 1.0. -/
theorem rates_quotient {a0 a1 : F32} (h0 : f32Lt f32Zero a0 = true) (h01 : f32Lt a0 a1 = true)
    (hfin : f32IsFinite a1 = true) :
    f32Neg (f32Div a1 a0) = false ∧ f32Mag f32One ≤ f32Mag (f32Div a1 a0) := by
  obtain ⟨hfin0, hneg0, hneg1, hpos, hlt⟩ := rates_abs h0 h01 hfin
  have hdiv := f32Div_rounded hfin hfin0 (f32Abs_pos.mp (hpos.trans hlt)) (f32Abs_pos.mp hpos)
  rw [hneg0, hneg1] at hdiv
  refine ⟨hdiv.neg, hdiv.le_mag (by decide) ?_⟩
  rw [← f32Abs, f32One_value.2]
  exact (one_lt_div hpos).mpr hlt

theorem eq_of_neg_of_mag {v w : F32} (hneg : f32Neg v = f32Neg w) (hmag : f32Mag v = f32Mag w) : v = w := by
  apply BitVec.eq_of_toNat_eq
  have hv := v.isLt
  have hw := w.isLt
  simp only [f32Neg, f32Mag, decide_eq_decide] at hneg hmag
  omega

/-- The logarithm of a value from 1.0 on is not negative (00_scope.md R12). -/
theorem fln_nonneg {m : MathPair} (hm : LawfulMath m) {q : F32} (hfin : f32IsFinite q = true) (hpos : f32Neg q = false)
    (hq : f32Mag f32One ≤ f32Mag q) : f32Neg (m.fln q) = false := by
  by_cases hone : f32Lt f32One q = true
  · exact (f32Pos_of_lt (hm.fln_pos q hfin hone).2).1
  · have hle : f32Le q f32One = true := f32Le_of_not_lt (by decide) (f32IsNaN_of_finite hfin).1 hone
    obtain ⟨-, -, hkey⟩ := f32Le_iff.mp hle
    have hone' : f32Neg f32One = false := by decide
    simp only [f32Key, hpos, hone', Bool.false_eq_true, if_false] at hkey
    rw [eq_of_neg_of_mag (hpos.trans hone'.symm) (show f32Mag q = f32Mag f32One by omega), hm.fln_one]
    decide

/-- The peak of the envelope is not at a negative time. -/
theorem peakTime_nonneg {m : MathPair} (hm : LawfulMath m) {a0 a1 : F32} (h0 : f32Lt f32Zero a0 = true)
    (h01 : f32Lt a0 a1 = true) (hfin : f32IsFinite a1 = true) (hq : f32IsFinite (f32Div a1 a0) = true)
    (ht : f32IsFinite (peakTime m a0 a1) = true) : f32Neg (peakTime m a0 a1) = false := by
  obtain ⟨hfin0, hneg0, hneg1, hpos, hlt⟩ := rates_abs h0 h01 hfin
  obtain ⟨hqneg, hqmag⟩ := rates_quotient h0 h01 hfin
  obtain ⟨neg, hsub, hsign, -⟩ := f32Add_rounded hfin ((f32IsFinite_flip a0).trans hfin0)
  rw [f32Val_flip, f32Val_of_pos hneg0, f32Val_of_pos hneg1] at hsign
  have hsubneg : f32Neg (f32Sub a1 a0) = false := hsub.neg.trans (hsign (by linarith))
  rw [peakTime] at ht ⊢
  rw [(f32Div_finite ht).1, fln_nonneg hm hq hqneg hqmag, hsubneg]
  rfl

/-- The exponential of no positive value is above fexp(0) = 1 (00_scope.md R12). -/
theorem fexp_flip_le_one {m : MathPair} (hm : LawfulMath m) {v : F32} (hfin : f32IsFinite v = true)
    (hneg : f32Neg v = false) : f32Val (m.fexp (f32Flip v)) ≤ 1 := by
  have hflip : f32IsFinite (f32Flip v) = true := (f32IsFinite_flip v).trans hfin
  have hkey : f32Key (f32Flip v) ≤ f32Key f32Zero := by
    rw [f32Key, f32Neg_flip, hneg, Bool.not_false, if_pos rfl, show f32Key f32Zero = 0 from rfl]
    omega
  have hle := hm.fexp_mono _ _ hflip (f32Le_iff.mpr ⟨(f32IsNaN_of_finite hflip).1, by decide, hkey⟩) (by decide)
  rw [hm.fexp_pos_zero] at hle
  exact f32One_val ▸ f32Val_le (f32Le_iff.mp hle).2.2

theorem fexp_val_nonneg {m : MathPair} (hm : LawfulMath m) {v : F32} (hnum : f32IsNaN v = false) :
    0 ≤ f32Val (m.fexp v) :=
  f32Zero_val ▸ f32Val_le (f32Le_iff.mp (hm.fexp_nonneg v hnum)).2.2

/-- The exponentials of the envelope at a time t ≥ 0, where they are finite, differ by at most 1: the first is at most
1, unless a0 * t overflows; then a1 * t does so too, and the two are one. -/
theorem envelope_operands {m : MathPair} (hm : LawfulMath m) {a0 a1 t : F32} (h0 : f32Lt f32Zero a0 = true)
    (h01 : f32Lt a0 a1 = true) (hfin : f32IsFinite a1 = true) (ht : f32IsFinite t = true) (htneg : f32Neg t = false) :
    f32Val (m.fexp (f32Flip (f32Mul a0 t))) - f32Val (m.fexp (f32Flip (f32Mul a1 t))) ≤ 1 := by
  obtain ⟨hfin0, hneg0, hneg1, hpos, hlt⟩ := rates_abs h0 h01 hfin
  have hmul0 := f32Mul_rounded hfin0 ht
  have hmul1 := f32Mul_rounded hfin ht
  rw [hneg0, htneg] at hmul0
  rw [hneg1, htneg] at hmul1
  by_cases hover : f32IsFinite (f32Mul a0 t) = true
  · have hnum : f32IsNaN (f32Flip (f32Mul a1 t)) = false := by
      rw [f32IsNaN, f32Mag_flip]
      exact hmul1.not_nan
    linarith [fexp_flip_le_one hm hover hmul0.neg, fexp_val_nonneg hm hnum]
  · have htpos : 0 < f32Abs t := by
      refine f32Abs_pos.mpr fun hzero => hover (f32Finite_iff.mpr ((hmul0.mag_le (k := 1) ?_).trans_lt (by decide)))
      rw [f32Abs, f32Abs, hzero, magValue_zero, mul_zero, ← magValue_zero]
      exact magValue_strictMono one_pos
    rw [hmul0.eq_of_overflow hmul1 (mul_lt_mul_of_pos_right hlt htpos) (Bool.eq_false_iff.mpr hover), sub_self]
    exact zero_le_one

/-- A positive finite inverse is one of a positive finite value. -/
theorem inverse_pos {e : F32} (hfin : f32IsFinite (f32Div f32One e) = true)
    (hpos : f32Lt f32Zero (f32Div f32One e) = true) :
    f32IsFinite e = true ∧ f32Neg e = false ∧ f32Mag e ≠ 0 := by
  obtain ⟨hneg, hmag⟩ := f32Pos_of_lt hpos
  obtain ⟨hsign, hops⟩ := f32Div_finite hfin
  obtain ⟨-, he, he0⟩ := hops hmag
  refine ⟨he, ?_, he0⟩
  rw [hneg, show f32Neg f32One = false by decide] at hsign
  simpa using hsign.symm

/-- A positive finite envelope is at most 2, which is all that a normal inverse asks. -/
theorem envelope_le_two {m : MathPair} (hm : LawfulMath m) {a0 a1 t : F32} (h0 : f32Lt f32Zero a0 = true)
    (h01 : f32Lt a0 a1 = true) (hfin : f32IsFinite a1 = true) (ht : f32IsFinite t = true) (htneg : f32Neg t = false)
    (he : f32IsFinite (envelope m a0 a1 t) = true) (hepos : f32Neg (envelope m a0 a1 t) = false) :
    f32Abs (envelope m a0 a1 t) ≤ 2 := by
  have hdiff := envelope_operands hm h0 h01 hfin ht htneg
  rw [envelope, f32Sub] at he hepos ⊢
  obtain ⟨hX, hY⟩ := finite_of_f32Add he
  obtain ⟨neg, hround, -, hsign⟩ := f32Add_rounded hX hY
  rw [f32Val_flip, ← sub_eq_add_neg] at hround hsign
  have hsum := not_lt.mp fun hlt => Bool.false_ne_true (hepos.symm.trans (hround.neg.trans (hsign hlt)))
  rw [abs_of_nonneg hsum] at hround
  have htwo : magValue 1073741824 = 2 := by norm_num [magValue, lastPlace]
  rw [← htwo, f32Abs]
  exact magValue_strictMono.monotone (hround.mag_le (by linarith))

/-- Settles O43: the envelope at the peak is positive, finite and at most 2, and its product with its own inverse
is near 1.0. -/
theorem envelopePeakIsNormalised : Obligations.EnvelopePeakIsNormalised := by
  rintro m a0 a1 _ _ hm h0 h01 hfin hq rfl rfl ht hscale hpos
  have htneg := peakTime_nonneg hm h0 h01 hfin hq ht
  obtain ⟨he, hepos, he0⟩ := inverse_pos hscale hpos
  exact mul_inverse_near_one he hepos he0 (envelope_le_two hm h0 h01 hfin ht htneg he hepos) hscale

end Sys2Proof.Machine

/-! ### The fault queries (43_queries.md R260-R263)

A query is ReadTxns whose registers are no plain storage, so that the reference chain has no say in what they receive;
each ReadTxn leaves what the next one asks for. -/

namespace Sys2Proof.Machine

/-! #### A ReadTxn, and what one device answers to it -/

/-- What a ReadTxn asks for in order to end (40_transport.md R152). -/
structure ReadReady (s : State) : Prop where
  bus : BusCompletes s
  rx : s.transport.rx.length = s.par.n
  latch : s.env.latch.length = s.par.n

theorem Shaped.readReady {s : State} (h : Shaped s) (hbus : BusCompletes s) : ReadReady s := ⟨hbus, h.rx, h.latch⟩

/-- A ReadTxn leaves what the next one asks for. -/
theorem ReadReady.hasRead {s : State} (h : ReadReady s) (r : Byte) : ReadReady (s.hasRead r) := by
  obtain ⟨hrx, hlatch⟩ := hasRead_ready s r
  exact ⟨h.bus, hrx, hlatch⟩

theorem ReadReady.readTxn_eq {s : State} {r : Byte} (h : ReadReady s) (hr : r ≤ regMax) :
    readTxn r s = .done () (s.hasRead r) :=
  readTxn_free h.bus h.rx h.latch hr

/-- rx[i] after a ReadTxn of a register that is no plain storage is the environment's answer (20_memory.md R99). -/
theorem rxAt_hasRead_of_not_plain {s : State} {r : Byte} {i : Nat} (hplain : plainStorage r.toNat = false)
    (hi : i < s.par.n) : rxAt (s.hasRead r) i = answerAt s (2 * s.par.n + (2 * i + 1)) := by
  simp [rxAt, State.hasRead, readAnswer, regReply, hplain, hi]

/-- A fault register is 0x00 or 0x01 (00_scope.md R8): in range, and no plain storage. -/
theorem faultReg_range {r : Byte} (h : r ≤ 1#8) : r ≤ regMax ∧ plainStorage r.toNat = false := by
  have hle : r.toNat ≤ 1 := h
  refine ⟨BitVec.le_def.mpr (hle.trans (by decide)), ?_⟩
  simp only [plainStorage, Bool.and_eq_false_iff, decide_eq_false_iff_not]
  omega

/-- The fault registers of valid parameters (00_scope.md R8). -/
theorem faultRegs_of_valid {p : Params} (h : paramsValid p = true) : p.ovtReg ≤ 1#8 ∧ p.errpReg ≤ 1#8 := by
  simp only [paramsValid, Bool.and_eq_true, decide_eq_true_eq] at h
  obtain ⟨⟨⟨⟨-, hovt⟩, -⟩, herrp⟩, -⟩ := h
  exact ⟨hovt, herrp⟩

/-! #### Q_THERM (43_queries.md R260, R261) -/

/-- Q_THERM's operation on a device of the chain, when every bus primitive completes: one ReadTxn, whose bit is data. -/
theorem qThermBody_free {s : State} {d : Byte} (h : ReadReady s) (hd : d.toNat < s.par.n)
    (hr : s.par.ovtReg ≤ regMax) :
    qThermBody d 0x00#8 0x00#8 s = .done .ok ((s.hasRead s.par.ovtReg).setResult
      (if rxBit (s.hasRead s.par.ovtReg) d.toNat s.par.ovtBit then 1#32 else 0#32)) := by
  simp only [qThermBody, unused, devOk, hd, h.readTxn_eq hr, Res.andThen_done]
  rfl

/-- Settles O46: the bit is one of what the ReadTxn receives for device d, the environment's answer. -/
theorem thermalQueryReportsTheBit : Obligations.ThermalQueryReportsTheBit := by
  intro s d hbus hshaped hparams hd
  obtain ⟨hr, hplain⟩ := faultReg_range (faultRegs_of_valid hparams).1
  rw [exec, execQTherm, qThermBody_free (hshaped.readReady hbus) hd hr, rxBit, rxAt_hasRead_of_not_plain hplain hd]
  rfl

/-! #### Q_ERR (43_queries.md R262, R263) -/

/-- The error-flag register at 0x42 + k, when every bus primitive completes. -/
theorem readFlag_free {s : State} (d : Nat) {k : Nat} {r : Byte} (h : ReadReady s) (hk : 0x42#8 + BitVec.ofNat 8 k = r)
    (hr : r ≤ regMax) : readFlag d k s = .done (rxAt (s.hasRead r) d) (s.hasRead r) := by
  rw [readFlag, hk, h.readTxn_eq hr, Res.andThen_done]

/-- The four error-flag registers, ascending: each is read from where the one before it leaves the chain. -/
theorem readFlags_free {s s1 s2 s3 s4 : State} (d : Nat) (h : ReadReady s) (h1 : s1 = s.hasRead 0x42#8)
    (h2 : s2 = s1.hasRead 0x43#8) (h3 : s3 = s2.hasRead 0x44#8) (h4 : s4 = s3.hasRead 0x45#8) :
    readFlags d s = .done (rxAt s4 d ++ rxAt s3 d ++ rxAt s2 d ++ rxAt s1 d) s4 := by
  have hready1 : ReadReady s1 := h1 ▸ h.hasRead 0x42#8
  have hready2 : ReadReady s2 := h2 ▸ hready1.hasRead 0x43#8
  have hready3 : ReadReady s3 := h3 ▸ hready2.hasRead 0x44#8
  have flag0 := readFlag_free d (k := 0) (r := 0x42#8) h rfl (by decide)
  have flag1 := readFlag_free d (k := 1) (r := 0x43#8) hready1 rfl (by decide)
  have flag2 := readFlag_free d (k := 2) (r := 0x44#8) hready2 rfl (by decide)
  have flag3 := readFlag_free d (k := 3) (r := 0x45#8) hready3 rfl (by decide)
  rw [readFlags, flag0, ← h1, Res.andThen_done, flag1, ← h2, Res.andThen_done, flag2, ← h3, Res.andThen_done, flag3,
    ← h4, Res.andThen_done]

/-- Q_ERR's operation on a device of the chain, when its first ReadTxn completes: the bit received decides what follows. -/
theorem qErrBody_free {s : State} {d : Byte} (h : ReadReady s) (hd : d.toNat < s.par.n)
    (hr : s.par.errpReg ≤ regMax) :
    qErrBody d 0x00#8 0x00#8 s =
      if (rxAt (s.hasRead s.par.errpReg) d.toNat).getLsbD s.par.errpBit then
        (readFlags d.toNat (s.hasRead s.par.errpReg)).andThen fun w u => .done .ok (u.setResult w)
      else .done .ok ((s.hasRead s.par.errpReg).setResult 0x00000000#32) := by
  simp only [qErrBody, unused, devOk, hd, h.readTxn_eq hr, Res.andThen_done]
  rfl

/-- Settles O47: the bit of the first ReadTxn decides between an end at once and the four flags. -/
theorem errorQueryReportsTheFlags : Obligations.ErrorQueryReportsTheFlags := by
  intro s d hbus hshaped hparams hd s0 s1 s2 s3 s4 h0 h1 h2 h3 h4
  have hready := hshaped.readReady hbus
  have hready0 : ReadReady s0 := h0 ▸ hready.hasRead s.par.errpReg
  have hbody := qErrBody_free hready hd (faultReg_range (faultRegs_of_valid hparams).2).1
  rw [← h0] at hbody
  refine ⟨fun hclear => ?_, fun hset => ?_⟩
  · rw [exec, execQErr, hbody, hclear]
    rfl
  · rw [exec, execQErr, hbody, hset, if_pos rfl, readFlags_free d.toNat hready0 h1 h2 h3 h4]
    rfl

end Sys2Proof.Machine

/-! ### Ticks that arrive (60_exceptions.md R306-R308) -/

namespace Sys2Proof.Machine

theorem tickArrives_of_stopped {s : State} (h : s.engine.running = false) : tickArrives s = s := by
  simp only [tickArrives, h, Bool.not_false, if_true]

theorem tickArrives_of_running {s : State} (h : s.engine.running = true) :
    tickArrives s = if s.engine.tickPending then s.setTickOvr else s.setTickPending true := by
  simp only [tickArrives, h, Bool.not_true, Bool.false_eq_true, if_false]

/-- A tick event is the arrival of a tick. -/
theorem step_tick {s : State} {l : List Event} (h : s.env.events = .tick :: l) :
    step s = .next (tickArrives (s.setEvents l)) :=
  step_of_event h rfl

/-- Settles O15: `tickArrives` returns the state it is given. -/
theorem tickWhileStoppedHasNoEffect : Obligations.TickWhileStoppedHasNoEffect := by
  intro s l h hstop
  rw [step_tick h, tickArrives_of_stopped (by exact hstop)]

/-- Settles O16, by the two branches of `tickArrives` of a running engine. -/
theorem tickWhileRunningIsPendingOrMerged : Obligations.TickWhileRunningIsPendingOrMerged := by
  intro s l h hrun
  have hstep : step s = .next (if s.engine.tickPending then (s.setEvents l).setTickOvr
      else (s.setEvents l).setTickPending true) := by
    rw [step_tick h, tickArrives_of_running (by exact hrun)]
    rfl
  refine ⟨fun hp => ?_, fun hp => ?_⟩
  · rw [hstep, hp]
    rfl
  · rw [hstep, hp]
    rfl

/-! ### An operation that hangs has no more turns (60_exceptions.md R313) -/

/-- `t` is as far in its command as `s`: the same sequencer and transport, the same code, and still BUSY if `s` is. -/
structure CommandKept (s t : State) : Prop where
  seq : t.seq = s.seq
  transport : t.transport = s.transport
  err : t.window.err = s.window.err
  busy : s.window.cmdValid = true → t.window.cmdValid = true

theorem CommandKept.refl (s : State) : CommandKept s s := ⟨rfl, rfl, rfl, id⟩

/-- A write of CMD while a command is pending is dropped; no other register write reaches the command slot. -/
theorem windowWrite_commandKept (off : Nat) (w : Word) (s : State) : CommandKept s (windowWrite off w s) := by
  have hissue : CommandKept s (issueCommand w s) := by
    unfold issueCommand
    split
    · exact ⟨rfl, rfl, rfl, id⟩
    · exact ⟨rfl, rfl, rfl, fun _ => rfl⟩
  unfold windowWrite
  split_ifs
  · exact hissue
  all_goals exact ⟨rfl, rfl, rfl, id⟩

theorem hostWrite_commandKept (off : BitVec 12) (size : AccessSize) (w : Word) (s : State) :
    CommandKept s (hostWrite off size w s) := by
  unfold hostWrite
  split
  · exact windowWrite_commandKept _ w s
  · exact ⟨rfl, rfl, rfl, id⟩

theorem hostRead_commandKept (off : BitVec 12) (size : AccessSize) (s : State) :
    CommandKept s (hostRead off size s) := by
  unfold hostRead
  split <;> exact ⟨rfl, rfl, rfl, id⟩

theorem tickArrives_commandKept (s : State) : CommandKept s (tickArrives s) := by
  unfold tickArrives
  split_ifs
  · exact .refl s
  all_goals exact ⟨rfl, rfl, rfl, id⟩

/-- While an operation is stuck, an event that is neither a reset nor a unit at a chip only moves the state, and the
command stays where it is. -/
theorem eventTurn_stuck {s : State} {op : Instr} (h : s.seq = .exec op) {e : Event} (hreset : e ≠ .reset)
    (hunit : ∀ p u, e ≠ .wireUnit p u) : ∃ t, eventTurn e s = .stay t ∧ CommandKept s t := by
  cases e with
  | reset => exact absurd rfl hreset
  | wireUnit p u => exact absurd rfl (hunit p u)
  | hostRead off size => exact ⟨_, rfl, hostRead_commandKept off size s⟩
  | hostWrite off size w => exact ⟨_, rfl, hostWrite_commandKept off size w s⟩
  | tick => exact ⟨_, rfl, tickArrives_commandKept s⟩
  | turn => exact ⟨s, sequencerTurn_stuck h, .refl s⟩
  | hang k => exact ⟨_, rfl, rfl, rfl, rfl, id⟩

/-- Settles O8: a stuck sequencer has no turn, the other events keep the command (`eventTurn_stuck`), and a reset gives
the sequencer, the select line and the command slot their reset values. -/
theorem stuckOperationEndsOnlyByReset : Obligations.StuckOperationEndsOnlyByReset := by
  intro s op hstuck
  refine ⟨fun hempty => ?_, fun e l h hreset hunit => ?_, fun l h => ?_⟩
  · exact step_of_stay ((nextTurn_of_empty hempty).trans (sequencerTurn_stuck hstuck))
  · obtain ⟨t, hturn, hkept⟩ := eventTurn_stuck (s := s.setEvents l) hstuck hreset hunit
    exact ⟨t, step_of_event h hturn, hkept.seq.trans hstuck, hkept.transport, hkept.err, hkept.busy⟩
  · exact ⟨_, step_of_event h rfl, rfl, rfl, rfl⟩

end Sys2Proof.Machine

/-! ### The operation that hangs (60_exceptions.md R313, log 8)

A bus call either leaves an operation going on, or is the one that hangs: then the countdown, which must have been set,
has run out. No piece of an operation writes the window before its end, so a hang finds it as the operation found it. -/

namespace Sys2Proof.Machine

/-- What a bus call comes to: it completes, counting down if there is a countdown, or the countdown has run out. -/
theorem busCall_meets {P Q : State → Prop} {e : BusEvent} {s : State}
    (hdone : ∀ h, (s.env.hangIn = none → h = none) → P ((s.record e).setHang h))
    (hhung : s.env.hangIn = some 0 → Q ((s.record e).setHang none)) : (busCall e s).Meets (fun _ => P) Q := by
  unfold busCall
  split
  · next hnone =>
    have hsame : (s.record e).setHang none = s.record e := by rw [← hnone]; rfl
    exact hsame ▸ hdone none fun _ => rfl
  · next hzero => exact hhung hzero
  · next k hsucc => exact hdone (some k) fun hnone => absurd (hsucc.symm.trans hnone) nofun

/-- An operation of `s` is going on: it has written nothing of the window, and no countdown has been set since. -/
structure GoesOn (s t : State) : Prop where
  window : t.window = s.window
  idle : t.seq = .idle
  hangIn : s.env.hangIn = none → t.env.hangIn = none

/-- An operation of `s` has hung: the window is as it was, and the countdown, which was set, has run out. -/
structure HungIn (s t : State) : Prop where
  window : t.window = s.window
  spent : t.env.hangIn = none
  counting : ∃ k, s.env.hangIn = some k

theorem GoesOn.update {s t u : State} (h : GoesOn s t) (hwindow : u.window = t.window) (hseq : u.seq = t.seq)
    (hhang : u.env.hangIn = t.env.hangIn) : GoesOn s u :=
  ⟨hwindow.trans h.window, hseq.trans h.idle, fun hnone => hhang.trans (h.hangIn hnone)⟩

/-! #### The pieces on the bus -/

theorem busCall_goesOn {s : State} (e : BusEvent) : Keeps (GoesOn s) (HungIn s) (busCall e) := fun t ht =>
  busCall_meets (fun _ hh => ⟨ht.window, ht.idle, fun hnone => hh (ht.hangIn hnone)⟩) fun hzero =>
    ⟨ht.window, rfl, Option.ne_none_iff_exists'.mp fun hnone => by simp [ht.hangIn hnone] at hzero⟩

theorem selAssert_goesOn {s : State} : Keeps (GoesOn s) (HungIn s) selAssert :=
  (busCall_goesOn _).andThen fun _ _ ht => ht.update rfl rfl rfl

theorem selDeassert_goesOn {s : State} : Keeps (GoesOn s) (HungIn s) selDeassert :=
  (busCall_goesOn _).andThen fun _ t ht => by
    obtain ⟨m, l, hchips⟩ := chipsTake_eq (t.setSel false)
    rw [hchips]
    exact ht.update rfl rfl rfl

theorem xfer_goesOn {s : State} (b : Byte) : Keeps (GoesOn s) (HungIn s) (xfer b) :=
  (busCall_goesOn _).andThen fun _ _ ht => ht.update rfl rfl rfl

theorem sendUnit_goesOn {s : State} (i : Nat) : Keeps (GoesOn s) (HungIn s) (sendUnit i) := fun t ht =>
  (xfer_goesOn _ t ht).andThen fun _ u hu => (xfer_goesOn _ u hu).andThen fun _ _ hv => hv

theorem sendUnitCapture_goesOn {s : State} (i : Nat) : Keeps (GoesOn s) (HungIn s) (sendUnitCapture i) := fun t ht =>
  (xfer_goesOn _ t ht).andThen fun _ u hu => (xfer_goesOn _ u hu).andThen fun _ _ hv => hv.update rfl rfl rfl

theorem bracket_goesOn {s : State} {unit : Nat → State → Res Unit} (hunit : ∀ i, Keeps (GoesOn s) (HungIn s) (unit i)) :
    Keeps (GoesOn s) (HungIn s) (bracket unit) := fun t ht =>
  (selAssert_goesOn t ht).andThen fun _ u hu =>
    (Keeps.forEach hunit _ u hu).andThen fun _ v hv => selDeassert_goesOn v hv

theorem writeTxn_goesOn {s : State} (d : Nat) (r v : Byte) : Keeps (GoesOn s) (HungIn s) (writeTxn d r v) :=
  fun t ht => bracket_goesOn sendUnit_goesOn (stageWrite d r v t) (ht.update rfl rfl rfl)

theorem readTxn_goesOn {s : State} (r : Byte) : Keeps (GoesOn s) (HungIn s) (readTxn r) := fun _ ht =>
  (bracket_goesOn sendUnit_goesOn (stageRead r _) (ht.update rfl rfl rfl)).andThen fun _ u hu =>
    bracket_goesOn sendUnitCapture_goesOn (stageIdle u) (hu.update rfl rfl rfl)

/-! #### The instructions -/

/-- What an instruction the idle sequencer runs leaves it in: idle again, or in that instruction, which has hung. -/
def EndsOrHangs (i : Instr) (s t : State) : Prop := t.seq = .idle ∨ (t.seq = .exec i ∧ HungIn s t)

theorem HungIn.endsOrHangs {s t : State} (i : Instr) (h : HungIn s t) : EndsOrHangs i s (t.stuckIn i) :=
  .inr ⟨rfl, h.window, h.spent, h.counting⟩

theorem completeCommand_endsOrHangs {i : Instr} {s : State} {r : Res ErrorCode}
    (h : r.Meets (fun _ t => t.seq = .idle) (HungIn s)) : EndsOrHangs i s (completeCommand i r) :=
  completeCommand_of_meets i h (fun _ _ => .inl) fun _ => HungIn.endsOrHangs i

theorem completeInternal_endsOrHangs {i : Instr} {s : State} {r : Res Unit}
    (h : r.Meets (fun _ t => t.seq = .idle) (HungIn s)) : EndsOrHangs i s (completeInternal i r) :=
  completeInternal_of_meets i h (fun _ => .inl) fun _ => HungIn.endsOrHangs i

theorem spawnOnce_seq (m : MathPair) (s : State) : (spawnOnce m s).seq = s.seq := by
  obtain ⟨-, -, -, hseq, -⟩ := spawnOnce_frame m s
  exact hseq

theorem ChipsOnly.seq {s t : State} (h : ChipsOnly s t) : t.seq = s.seq := by
  obtain ⟨m, l, rfl, -, -⟩ := h
  rfl

/-- Every instruction of an idle sequencer ends, or is the one that hung. -/
theorem exec_endsOrHangs {i : Instr} {s t : State} (h : exec i s = .next t) (hidle : s.seq = .idle) :
    EndsOrHangs i s t := by
  have h0 : GoesOn s s := ⟨rfl, hidle, id⟩
  have hw := writeTxn_goesOn (s := s)
  have hr := readTxn_goesOn (s := s)
  have hstore : ∀ t j x, GoesOn s t → GoesOn s (t.setSlot j x) := fun _ _ _ ht => ht.update rfl rfl rfl
  have hend : ∀ (_ : ErrorCode) t, GoesOn s t → t.seq = .idle := fun _ _ => GoesOn.idle
  have hres : ∀ w t, GoesOn s t → (t.setResult w).seq = .idle := fun _ _ => GoesOn.idle
  cases i with
  | nop dev a b => cases h; exact completeCommand_endsOrHangs (nopBody_meets dev a b fun _ => hidle)
  | write dev reg b val => cases h; exact completeCommand_endsOrHangs (writeBody_meets dev reg b val h0 hw hend)
  | read dev reg b => cases h; exact completeCommand_endsOrHangs (readBody_meets dev reg b h0 hr hend)
  | setPw dev slot color duty =>
    cases h; exact completeCommand_endsOrHangs (setPwBody_meets dev slot color duty h0 hw hend)
  | setGain dev slot color f =>
    cases h; exact completeCommand_endsOrHangs (setGainBody_meets dev slot color f h0 hw hend hres)
  | clearCh dev a b => cases h; exact completeCommand_endsOrHangs (clearChBody_meets dev a b h0 hw hend)
  | clearAll dev a b => cases h; exact completeCommand_endsOrHangs (clearAllBody_meets dev a b h0 hw hend)
  | engStart dev a b =>
    cases h; exact completeCommand_endsOrHangs (engStartBody_meets dev a b (fun _ => hidle) fun _ => hidle)
  | engStop dev a b =>
    cases h
    exact completeCommand_endsOrHangs
      (engStopBody_meets dev a b h0 hend (stopSlot_keeps hw hstore) fun _ _ => GoesOn.idle)
  | qTherm dev a b => cases h; exact completeCommand_endsOrHangs (qThermBody_meets dev a b h0 hr hend hres)
  | qErr dev a b => cases h; exact completeCommand_endsOrHangs (qErrBody_meets dev a b h0 hr hend hres)
  | reservedOp op dev a b => cases h; exact completeCommand_endsOrHangs (r := .done .opcode s) hidle
  | tickUpdate =>
    cases h
    exact completeInternal_endsOrHangs (tickBody_meets (h0.update rfl rfl rfl)
      (fun j => tickSlot_keeps _ j hw fun _ _ _ u x => hstore u j x) fun _ ht => (spawnOnce_seq _ _).trans ht.idle)
  | spawn => cases h; exact .inl ((spawnOnce_seq _ s).trans hidle)
  | wireNop => cases h; exact .inl ((chipIdle_chipsOnly _ s).seq.trans hidle)
  | wireWr reg val => cases h; exact .inl ((chipWrite_chipsOnly _ reg val s).seq.trans hidle)
  | wireRd reg dummy => cases h; exact .inl ((chipLatch_chipsOnly _ reg s).seq.trans hidle)

/-- Settles O51: an instruction that has not left the sequencer idle is the one that hung. -/
theorem hungOperationKeepsItsCommand : Obligations.HungOperationKeepsItsCommand := by
  intro i s t h hidle hbusy
  obtain ⟨hseq, hhung⟩ := (exec_endsOrHangs h hidle).resolve_left hbusy
  exact ⟨hseq, hhung.window, hhung.spent, hhung.counting⟩

end Sys2Proof.Machine

/-! ### Where a write transaction hangs (60_exceptions.md R313, 10_state.md R51 (b), log 8)

A piece of an operation is metered when a countdown changes nothing about it but where it stops: with `k` primitives
left it makes the calls it makes without a countdown, ends as it does without one where they are at most `k`, and hangs
in call number `k` where they are more. So what a transaction does when every primitive completes (`writeTxn_free`)
also says where it hangs. -/

namespace Sys2Proof.Machine

/-- What `f` comes to from `s` with `k` primitives left, where without a countdown it makes `calls` and ends with `a` in
`t`. -/
structure MeteredFrom {α : Type} (f : State → Res α) (s : State) (a : α) (t : State) (calls : List BusEvent) (k : Nat) :
    Prop where
  ends : calls.length ≤ k → f (s.setHang (some k)) = .done a (t.setHang (some (k - calls.length)))
  hangs : k < calls.length → ∃ u, f (s.setHang (some k)) = .hung u ∧ u.env.hangIn = none ∧
    u.env.trace = s.env.trace ++ calls.take (k + 1)

/-- A countdown only decides where the piece stops. -/
def Metered {α : Type} (f : State → Res α) : Prop :=
  ∀ ⦃s a t⦄, BusCompletes s → f s = .done a t →
    BusCompletes t ∧ ∃ calls, t.env.trace = s.env.trace ++ calls ∧ ∀ k, MeteredFrom f s a t calls k

/-! #### How metered pieces are put together -/

theorem setHang_of_eq {s : State} {h : Option Nat} (hs : s.env.hangIn = h) : s.setHang h = s := by
  rw [← hs]
  rfl

/-- An update that makes no call. -/
theorem Metered.done {α : Type} {v : State → α} {g : State → State} (hv : ∀ s h, v (s.setHang h) = v s)
    (hg : ∀ s h, g (s.setHang h) = (g s).setHang h) (htrace : ∀ s, (g s).env.trace = s.env.trace) :
    Metered fun s => .done (v s) (g s) := by
  rintro s _ _ hs ⟨⟩
  have hcompletes : (g s).setHang none = g s := by rw [← hg, setHang_of_eq hs]
  refine ⟨congrArg (fun t => t.env.hangIn) hcompletes.symm, [], by simp [htrace], fun k => ⟨fun _ => ?_, nofun⟩⟩
  simp only [hv, hg, List.length_nil, Nat.sub_zero]

theorem Metered.ends {α : Type} (a : α) : Metered (Res.done a) :=
  .done (v := fun _ => a) (g := id) (fun _ _ => rfl) (fun _ _ => rfl) fun _ => rfl

/-- A piece that takes an operand from a part of the state that is not the countdown. -/
theorem Metered.operand {α β : Type} {v : State → β} {f : β → State → Res α} (hv : ∀ s h, v (s.setHang h) = v s)
    (hf : ∀ x, Metered (f x)) : Metered fun s => f (v s) s := by
  intro s a t hs h
  obtain ⟨ht, calls, htrace, hcount⟩ := hf (v s) hs h
  refine ⟨ht, calls, htrace, fun k => ?_⟩
  obtain ⟨hends, hhangs⟩ := hcount k
  exact ⟨by simpa only [hv] using hends, by simpa only [hv] using hhangs⟩

/-- The calls of two pieces, one after the other: the second has what the first has left of the countdown. -/
theorem Metered.andThen {α β : Type} {f : State → Res α} {g : α → State → Res β} (hf : Metered f)
    (hg : ∀ a, Metered (g a)) : Metered fun s => (f s).andThen g := by
  intro s b u hs h
  cases hfs : f s with
  | hung t => simp [hfs] at h
  | done a t =>
    obtain ⟨ht, calls, htrace, hcount⟩ := hf hs hfs
    obtain ⟨hu, calls', htrace', hcount'⟩ := hg a ht (by simpa [hfs] using h)
    refine ⟨hu, calls ++ calls', by rw [htrace', htrace, List.append_assoc], fun k => ⟨fun hk => ?_, fun hk => ?_⟩⟩
    · rw [List.length_append] at hk ⊢
      rw [(hcount k).ends (by omega), Res.andThen_done, (hcount' _).ends (by omega), Nat.sub_sub]
    · rw [List.length_append] at hk
      by_cases hfirst : k < calls.length
      · obtain ⟨v, hhung, hspent, hv⟩ := (hcount k).hangs hfirst
        exact ⟨v, by rw [hhung, Res.andThen_hung], hspent, by rw [hv, List.take_append_of_le_length hfirst]⟩
      · obtain ⟨v, hhung, hspent, hv⟩ := (hcount' (k - calls.length)).hangs (by omega)
        refine ⟨v, by rw [(hcount k).ends (by omega), Res.andThen_done, hhung], hspent, ?_⟩
        rw [hv, htrace, List.append_assoc, List.take_append, List.take_of_length_le (show calls.length ≤ k + 1 by omega),
          Nat.sub_add_comm (by omega)]

theorem Metered.forEach {α : Type} {f : α → State → Res Unit} (hf : ∀ x, Metered (f x)) (l : List α) :
    Metered (Machine.forEach l f) := by
  induction l with
  | nil => exact .ends ()
  | cons x l ih => exact (hf x).andThen fun _ => ih

/-! #### The bus primitives and the write transaction -/

/-- One call. -/
theorem busCall_metered (e : BusEvent) : Metered (busCall e) := by
  intro s _ t hs h
  obtain rfl : s.record e = t := by simpa [busCall_free hs] using h
  refine ⟨hs, [e], rfl, fun k => ⟨fun hk => ?_, fun hk => ?_⟩⟩
  · obtain ⟨j, rfl⟩ : ∃ j, k = j + 1 := ⟨k - 1, (Nat.sub_add_cancel hk).symm⟩
    rfl
  · obtain rfl : k = 0 := Nat.lt_one_iff.mp hk
    exact ⟨_, rfl, rfl, rfl⟩

/-- Two choices made by the same test, each between states that differ in the countdown only. -/
theorem ite_setHang {c : Prop} [Decidable c] {s t s' t' : State} {h : Option Nat} (hs : s' = s.setHang h)
    (ht : t' = t.setHang h) : (if c then s' else t') = (if c then s else t).setHang h := by
  rw [hs, ht]
  split <;> rfl

theorem chipTakes_setHang (p : Nat) (u : Unit16) (s : State) (h : Option Nat) :
    chipTakes p u (s.setHang h) = (chipTakes p u s).setHang h := by
  have hidle : chipIdle p (s.setHang h) = (chipIdle p s).setHang h := ite_setHang rfl rfl
  have hwrite : ∀ r v, chipWrite p r v (s.setHang h) = (chipWrite p r v s).setHang h := fun _ _ => ite_setHang rfl rfl
  have hlatch : ∀ r, chipLatch p r (s.setHang h) = (chipLatch p r s).setHang h := fun _ => ite_setHang rfl rfl
  unfold chipTakes
  cases decodeUnit u with
  | wireNop => exact hidle
  | wireWr r v => exact hwrite r v
  | wireRd r _ => exact hlatch r
  | _ => rfl

theorem chipsTake_setHang (s : State) (h : Option Nat) : chipsTake (s.setHang h) = (chipsTake s).setHang h :=
  List.foldl_hom (State.setHang · h) fun t i => chipTakes_setHang i (stagedUnit s i) t h

theorem chipsTake_trace (s : State) : (chipsTake s).env.trace = s.env.trace := by
  obtain ⟨m, l, hchips⟩ := chipsTake_eq s
  rw [hchips]
  rfl

theorem selAssert_metered : Metered selAssert :=
  (busCall_metered _).andThen fun _ => .done (fun _ _ => rfl) (fun _ _ => rfl) fun _ => rfl

theorem selDeassert_metered : Metered selDeassert :=
  (busCall_metered _).andThen fun _ => .done (fun _ _ => rfl) (fun s h => chipsTake_setHang (s.setSel false) h)
    fun s => chipsTake_trace (s.setSel false)

theorem xfer_metered (b : Byte) : Metered (xfer b) :=
  (busCall_metered _).andThen fun _ => .done (fun _ _ => rfl) (fun _ _ => rfl) fun _ => rfl

theorem sendUnit_metered (i : Nat) : Metered (sendUnit i) :=
  .operand (v := fun s => s.transport.instr.getD i noopByte) (fun _ _ => rfl) fun x =>
    (xfer_metered x).andThen fun _ =>
      .operand (v := fun s => s.transport.data.getD i noopByte) (fun _ _ => rfl) fun y =>
        (xfer_metered y).andThen fun _ => .ends ()

theorem bracket_sendUnit_metered : Metered (bracket sendUnit) :=
  .operand (v := fun s => s.par.n) (f := fun n s => (selAssert s).andThen fun _ t =>
      (forEach (List.range n) sendUnit t).andThen fun _ u => selDeassert u) (fun _ _ => rfl) fun n =>
    selAssert_metered.andThen fun _ =>
      (Metered.forEach sendUnit_metered (List.range n)).andThen fun _ => selDeassert_metered

theorem writeTxn_metered (d : Nat) (r v : Byte) : Metered (writeTxn d r v) :=
  (Metered.done (v := fun _ => ()) (g := stageWrite d r v) (fun _ _ => rfl) (fun _ _ => rfl) fun _ => rfl).andThen
    fun _ => bracket_sendUnit_metered

/-! #### What a hung bracket has not touched -/

/-- The staged frame and the chips are as in `s`. -/
structure FrameHeld (s t : State) : Prop where
  instr : t.transport.instr = s.transport.instr
  data : t.transport.data = s.transport.data
  chips : t.env.chips = s.env.chips
  latch : t.env.latch = s.env.latch

/-- Inside a bracket of `s`: the frame is held and the select line asserted. -/
structure InBracket (s t : State) : Prop where
  frame : FrameHeld s t
  sel : t.transport.sel = true

/-- A bracket of `s` has hung: the chips have taken nothing, and the select line is asserted unless its very first call
hung. -/
structure HungBracket (s t : State) : Prop where
  frame : FrameHeld s t
  sel : s.env.hangIn ≠ some 0 → t.transport.sel = true

theorem InBracket.hung {s t : State} (h : InBracket s t) : HungBracket s t := ⟨h.frame, fun _ => h.sel⟩

theorem InBracket.update {s t u : State} (h : InBracket s t) (htransport : u.transport = t.transport)
    (hchips : u.env.chips = t.env.chips) (hlatch : u.env.latch = t.env.latch) : InBracket s u :=
  ⟨⟨htransport ▸ h.frame.instr, htransport ▸ h.frame.data, hchips.trans h.frame.chips, hlatch.trans h.frame.latch⟩,
    htransport ▸ h.sel⟩

theorem busCall_inBracket {s : State} (e : BusEvent) : Keeps (InBracket s) (HungBracket s) (busCall e) := fun t ht =>
  have hcall : ∀ h, InBracket s ((t.record e).setHang h) := fun _ => ht.update rfl rfl rfl
  busCall_meets (fun h _ => hcall h) fun _ => (hcall none).hung

theorem xfer_inBracket {s : State} (b : Byte) : Keeps (InBracket s) (HungBracket s) (xfer b) :=
  (busCall_inBracket _).andThen fun _ _ ht => ht.update rfl rfl rfl

theorem sendUnit_inBracket {s : State} (i : Nat) : Keeps (InBracket s) (HungBracket s) (sendUnit i) := fun t ht =>
  (xfer_inBracket _ t ht).andThen fun _ u hu => (xfer_inBracket _ u hu).andThen fun _ _ hv => hv

theorem selAssert_inBracket (s : State) : (selAssert s).Meets (fun _ => InBracket s) (HungBracket s) :=
  (busCall_meets (P := FrameHeld s) (fun _ _ => ⟨rfl, rfl, rfl, rfl⟩) fun hzero =>
    ⟨⟨rfl, rfl, rfl, rfl⟩, fun hne => absurd hzero hne⟩).andThen fun _ _ ht =>
      ⟨⟨ht.instr, ht.data, ht.chips, ht.latch⟩, rfl⟩

/-- The chips take their units only once SelDeassert has completed (20_memory.md R99). -/
theorem bracket_sendUnit_hung {s u : State} (h : bracket sendUnit s = .hung u) : HungBracket s u := by
  have hmeets : (bracket sendUnit s).Meets (fun _ _ => True) (HungBracket s) :=
    (selAssert_inBracket s).andThen fun _ t ht =>
      (Keeps.forEach sendUnit_inBracket _ t ht).andThen fun _ v hv =>
        (busCall_inBracket .selDeassert v hv).andThen fun _ _ _ => trivial
  rw [h] at hmeets
  exact hmeets

/-! #### The WRITE command -/

/-- A WriteTxn with `k` primitives left ends, or hangs in call number `k` of its frame. -/
theorem writeTxn_metered_frame {s : State} {d k : Nat} {r v : Byte} (hk : s.env.hangIn = some k)
    (hl : s.env.latch.length = s.par.n) (hd : d < s.par.n) (hr : r ≤ regMax) :
    (2 * s.par.n + 2 ≤ k →
      writeTxn d r v s = .done () ((s.wrote d r v).setHang (some (k - (2 * s.par.n + 2))))) ∧
    (k < 2 * s.par.n + 2 → ∃ u, writeTxn d r v s = .hung u ∧ u.env.hangIn = none ∧
      u.env.trace = s.env.trace ++ (writeFrame s.par.n d r v).take (k + 1)) := by
  obtain ⟨-, calls, htrace, hcount⟩ :=
    writeTxn_metered d r v (s := s.setHang none) rfl (writeTxn_free rfl hl hd hr)
  obtain rfl : writeFrame s.par.n d r v = calls := List.append_cancel_left htrace
  have hlen : (writeFrame s.par.n d r v).length = 2 * s.par.n + 2 := by rw [writeFrame, frame_length]; omega
  have hs : (s.setHang none).setHang (some k) = s := setHang_of_eq hk
  obtain ⟨hends, hhangs⟩ := hcount k
  rw [hlen, hs] at hends hhangs
  exact ⟨hends, hhangs⟩

/-- A WRITE of legal operands is its transaction (40_transport.md R160). -/
theorem exec_write_legal {s : State} {d r : Byte} (v : Byte) (hd : d.toNat < s.par.n) (hr : r ≤ regMax) :
    exec (.write d r 0x00#8 v) s =
      .next (completeCommand (.write d r 0x00#8 v) (thenOk (writeTxn d.toNat r v s))) := by
  have hbody : writeBody d r 0x00#8 v s = thenOk (writeTxn d.toNat r v s) := by
    simp [writeBody, unused, devOk, regOk, hd, hr]
  rw [← hbody]
  rfl

/-- Settles O24: the transaction is metered, so it ends or hangs where its frame says; a hang is inside its bracket, and
the rest of the state is not the bus's. -/
theorem writeHangsAtAnyPrimitive : Obligations.WriteHangsAtAnyPrimitive := by
  intro s d r v k hk hshaped hd hr
  obtain ⟨hends, hhangs⟩ := writeTxn_metered_frame (v := v) hk hshaped.latch hd hr
  rw [exec_write_legal v hd hr]
  refine ⟨fun hlt => ?_, fun hle => by rw [hends hle]; rfl⟩
  obtain ⟨u, hu, hspent, htrace⟩ := hhangs hlt
  have hbus := writeTxn_busOnly d.toNat r v s
  have hrx := writeTxn_rx d.toNat r v s
  have hbracket : HungBracket (stageWrite d.toNat r v s) u := bracket_sendUnit_hung hu
  rw [hu] at hbus hrx ⊢
  exact ⟨_, rfl, rfl, hbus.par, hbus.window, hbus.engine, hrx, instrByte_write r ▸ hbracket.frame.instr,
    hbracket.frame.data, fun hpos => hbracket.sel fun hzero => by simp [stageWrite, hk] at hzero; omega,
    hbracket.frame.chips, hbracket.frame.latch, hspent, htrace⟩

end Sys2Proof.Machine

/-! ### A reset and the chain (70_reset_and_hazards.md R341, R342) -/

namespace Sys2Proof.Machine

/-- With no transaction in flight a reset leaves the whole environment (R342). -/
theorem envAfterReset_of_noTransaction {s : State} (h : s.transport.sel = false) : envAfterReset s = s.env := by
  simp only [envAfterReset, h, Bool.false_eq_true, if_false]

/-- A reset inside a transaction cuts it, and changes nothing of the environment but the chips' registers and
latches (R341, log 9). -/
theorem envAfterReset_of_transaction {s : State} (h : s.transport.sel = true) :
    envAfterReset s = { s.env with chips := s.env.chips.cut, latch := List.replicate s.par.n none } := by
  simp only [envAfterReset, h, if_true]

/-- Outside the chips a reset leaves the environment, and so sends nothing. -/
theorem envAfterReset_chipsOnly (s : State) : ∃ m l, envAfterReset s = { s.env with chips := m, latch := l } := by
  cases hsel : s.transport.sel with
  | false => exact ⟨_, _, envAfterReset_of_noTransaction hsel⟩
  | true => exact ⟨_, _, envAfterReset_of_transaction hsel⟩

@[simp] theorem envAfterReset_events (s : State) : (envAfterReset s).events = s.env.events := by
  obtain ⟨_, _, henv⟩ := envAfterReset_chipsOnly s
  rw [henv]

@[simp] theorem envAfterReset_trace (s : State) : (envAfterReset s).trace = s.env.trace := by
  obtain ⟨_, _, henv⟩ := envAfterReset_chipsOnly s
  rw [henv]

/-- After a cut every register of every chip holds the free value of one more cut (`ChipRegs.cut_read`). -/
theorem chipReg_resetBlock_of_transaction {s : State} (h : s.transport.sel = true) (p a : Nat) :
    chipReg (resetBlock s) p a = Config.unknownReg (s.env.chips.cuts + 1) (chipKey p a) := by
  simp only [chipReg, resetBlock, envAfterReset_of_transaction h, ChipRegs.cut_read]

/-- Settles O18: the step is `resetBlock` with the event taken off the queue, so the select line before it tells what the
chips keep. -/
theorem resetLeavesTheChain : Obligations.ResetLeavesTheChain := by
  intro s l hevents
  exact ⟨resetBlock (s.setEvents l), step_of_event hevents rfl, rfl, envAfterReset_events (s.setEvents l),
    envAfterReset_trace (s.setEvents l), envAfterReset_of_noTransaction (s := s.setEvents l),
    chipReg_resetBlock_of_transaction (s := s.setEvents l)⟩

end Sys2Proof.Machine
